-- ==== Sys2Proof/Word.lean ====
section
/-! DEFINITION. The word types of the block: command words, pixels, display colours and DMA words (R14, R61, R71). -/

namespace Sys2Proof

/-- One `u32` command word as the host writes it to a port (R61). -/
abbrev Word := BitVec 32

/-- One `u32` pixel: `R` in 7:0, `G` in 15:8, `B` in 23:16, `A` in 31:24 (R14, R22). -/
abbrev Pixel := BitVec 32

/-- One `u24` display colour: red in 7:0, green in 15:8, blue in 23:16 (R86, R100). -/
abbrev Color := BitVec 24

/-- One `u16` DMA word, an element of a bitplane (R71). -/
abbrev DmaWord := BitVec 16

end Sys2Proof
end

