-- ==== Sys2Proof/Syntax.lean ====
section
/-! DEFINITION. The commands of the EDB command set, one constructor per row of the opcode table (R66), with the
operands of R65 and R73. -/

namespace Sys2Proof

/-- A command of the block. Layer indices, immediates and factors are the non-negative integers, coordinates the
signed integers and colours the pixel words of R65. -/
inductive Instr where
  /-- R91 -/
  | setPixel (l : Nat) (x y : Int) (color : Pixel)
  /-- R92 -/
  | setPixelOver (l : Nat) (x y : Int) (color : Pixel)
  /-- R94 -/
  | getPixel (l : Nat) (x y : Int)
  /-- R95 -/
  | setAll (l : Nat) (color : Pixel)
  /-- R96 -/
  | fadeOut (l factor : Nat)
  /-- R98 -/
  | shiftUp (l n : Nat)
  /-- R101 -/
  | composite (x y : Int)
  /-- R103 -/
  | startDrawing (l : Nat)
  /-- R104 -/
  | doneDrawing (l : Nat)
  /-- R105 -/
  | waitDrawingDone
  /-- R107 -/
  | doneUpdating
  /-- R120 -/
  | init (brightness : Nat)
  /-- R124 -/
  | updateFrame
  /-- R122 -/
  | setBrightness (level : Nat)
  /-- R123 -/
  | setBrightnessCap (cap : Nat)
  /-- R127 -/
  | readReg (r : Nat)
deriving DecidableEq, Repr

end Sys2Proof
end

