-- ==== Sys2Proof/WellFormed.lean ====
section
/-! DEFINITION. Well-formed commands: every operand fits its field of the encoding (R62 to R65). A command that does not
is the assembler error of R73, not an encoding. -/

namespace Sys2Proof

/-- `l` fits the 4-bit `LAYER` field (R62). -/
abbrev fitsLayer (l : Nat) : Prop := l ≤ 15

/-- `v` fits the 16-bit `IMM` field (R62). -/
abbrev fitsImm (v : Nat) : Prop := v ≤ 65535

/-- `f` fits the 8-bit factor field of `FADE_OUT` (R65). -/
abbrev fitsFactor (f : Nat) : Prop := f ≤ 255

/-- `v` is an `i16` coordinate (R63). -/
abbrev fitsCoord (v : Int) : Prop := -32768 ≤ v ∧ v ≤ 32767

/-- Every operand of the command fits its field. -/
def Instr.wf : Instr → Bool
  | .setPixel l x y _ => decide (fitsLayer l ∧ fitsCoord x ∧ fitsCoord y)
  | .setPixelOver l x y _ => decide (fitsLayer l ∧ fitsCoord x ∧ fitsCoord y)
  | .getPixel l x y => decide (fitsLayer l ∧ fitsCoord x ∧ fitsCoord y)
  | .setAll l _ => decide (fitsLayer l)
  | .fadeOut l factor => decide (fitsLayer l ∧ fitsFactor factor)
  | .shiftUp l n => decide (fitsLayer l ∧ fitsImm n)
  | .composite x y => decide (fitsCoord x ∧ fitsCoord y)
  | .startDrawing l => decide (fitsLayer l)
  | .doneDrawing l => decide (fitsLayer l)
  | .waitDrawingDone => true
  | .doneUpdating => true
  | .init brightness => decide (fitsImm brightness)
  | .updateFrame => true
  | .setBrightness level => decide (fitsImm level)
  | .setBrightnessCap cap => decide (fitsImm cap)
  | .readReg r => decide (fitsImm r)

end Sys2Proof
end

