-- ==== Sys2Proof/Decode.lean ====
section
/-! DEFINITION. The command encoding R61 to R69: field extraction, the opcode table with its must-be-zero masks, the
decoder, and the encoder written from the same tables. -/

namespace Sys2Proof

/-! ### Fields -/

/-- `W0[7:0]`, the opcode byte (R62). -/
def opcodeField (w0 : Word) : BitVec 8 := w0.extractLsb' 0 8

/-- `l = zext_4(W0[11:8])` (R65). -/
def layerField (w0 : Word) : Nat := (w0.extractLsb' 8 4).toNat

/-- `imm = zext_16(W0[31:16])` (R65). -/
def immField (w0 : Word) : Nat := (w0.extractLsb' 16 16).toNat

/-- `factor = zext_8(W0[23:16])` (R65). -/
def factorField (w0 : Word) : Nat := (w0.extractLsb' 16 8).toNat

/-- `x = sext_16(XY[15:0])` (R63, R65). -/
def xField (xy : Word) : Int := (xy.extractLsb' 0 16).toInt

/-- `y = sext_16(XY[31:16])` (R63, R65). -/
def yField (xy : Word) : Int := (xy.extractLsb' 16 16).toInt

/-! ### The opcode table -/

/-- The operand shape of a row: how `W0` and the argument words give the operands (R65, R66). -/
inductive Shape where
  | setPixel | setPixelOver | getPixel | setAll | fadeOut | shiftUp | composite
  | startDrawing | doneDrawing | waitDrawingDone | doneUpdating
  | init | updateFrame | setBrightness | setBrightnessCap | readReg
deriving DecidableEq, Repr

/-- One row of R66 and R67: the command length and the fixed bits of `W0`. -/
structure OpRow where
  shape : Shape
  words : Nat
  fixed : Word
  mask : Word
deriving DecidableEq, Repr

/-- The framebuffer rows of R66 and R67. -/
def framebufferRows : List OpRow :=
  [⟨.setPixel, 3, 0x00000001#32, 0xFFFFF0FF#32⟩,
   ⟨.setPixelOver, 3, 0x00000002#32, 0xFFFFF0FF#32⟩,
   ⟨.getPixel, 2, 0x00000003#32, 0xFFFFF0FF#32⟩,
   ⟨.setAll, 2, 0x00000004#32, 0xFFFFF0FF#32⟩,
   ⟨.fadeOut, 1, 0x00000005#32, 0xFF00F0FF#32⟩,
   ⟨.shiftUp, 1, 0x00000006#32, 0x0000F0FF#32⟩,
   ⟨.composite, 2, 0x00000007#32, 0xFFFFFFFF#32⟩]

/-- The barrier rows of R66 and R67. -/
def syncRows : List OpRow :=
  [⟨.startDrawing, 1, 0x00000010#32, 0xFFFFF0FF#32⟩,
   ⟨.doneDrawing, 1, 0x00000011#32, 0xFFFFF0FF#32⟩,
   ⟨.waitDrawingDone, 1, 0x00000012#32, 0xFFFFFFFF#32⟩,
   ⟨.doneUpdating, 1, 0x00000013#32, 0xFFFFFFFF#32⟩]

/-- The panel rows of R66 and R67. -/
def panelRows : List OpRow :=
  [⟨.init, 1, 0x00000020#32, 0x0000FFFF#32⟩,
   ⟨.updateFrame, 1, 0x00000021#32, 0xFFFFFFFF#32⟩,
   ⟨.setBrightness, 1, 0x00000022#32, 0x0000FFFF#32⟩,
   ⟨.setBrightnessCap, 1, 0x00000023#32, 0x0000FFFF#32⟩,
   ⟨.readReg, 1, 0x00000024#32, 0x0000FFFF#32⟩]

/-- All sixteen rows. -/
def opTable : List OpRow := framebufferRows ++ syncRows ++ panelRows

/-- The row whose opcode byte is `opc`; none when `opc` is reserved (R66). -/
def lookupRow (opc : BitVec 8) : Option OpRow :=
  opTable.find? fun r => opcodeField r.fixed == opc

/-- Operand assembly R65: `a1` and `a2` are the first and second argument word. -/
def buildInstr (shape : Shape) (w0 a1 a2 : Word) : Instr :=
  match shape with
  | .setPixel => .setPixel (layerField w0) (xField a1) (yField a1) a2
  | .setPixelOver => .setPixelOver (layerField w0) (xField a1) (yField a1) a2
  | .getPixel => .getPixel (layerField w0) (xField a1) (yField a1)
  | .setAll => .setAll (layerField w0) a1
  | .fadeOut => .fadeOut (layerField w0) (factorField w0)
  | .shiftUp => .shiftUp (layerField w0) (immField w0)
  | .composite => .composite (xField a1) (yField a1)
  | .startDrawing => .startDrawing (layerField w0)
  | .doneDrawing => .doneDrawing (layerField w0)
  | .waitDrawingDone => .waitDrawingDone
  | .doneUpdating => .doneUpdating
  | .init => .init (immField w0)
  | .updateFrame => .updateFrame
  | .setBrightness => .setBrightness (immField w0)
  | .setBrightnessCap => .setBrightnessCap (immField w0)
  | .readReg => .readReg (immField w0)

/-! ### The decoder -/

/-- Why a command word is refused by the decoder: checks 1 and 2 of R136. -/
inductive Reject where
  /-- the opcode byte is reserved (R69(a)) -/
  | reservedOpcode
  /-- a must-be-zero bit of a defined opcode is set (R69(b)) -/
  | mustBeZero
deriving DecidableEq, Repr

/-- What a port finds at the front of its FIFO. -/
inductive Decoded where
  /-- only part of a command has arrived; the port waits for the rest (R20) -/
  | incomplete
  /-- an illegal encoding that consumes `words` words (R68, R69) -/
  | illegal (why : Reject) (words : Nat)
  /-- the command `i`, `words` words long -/
  | instr (i : Instr) (words : Nat)
deriving DecidableEq, Repr

/-- Decoding in the order of R68: the length comes from the opcode byte alone, then the fields are checked (R67). -/
def decode : List Word → Decoded
  | [] => .incomplete
  | w0 :: args =>
    match lookupRow (opcodeField w0) with
    | none => .illegal .reservedOpcode 1
    | some r =>
      if args.length + 1 < r.words then .incomplete
      else if w0 &&& r.mask = r.fixed then
        .instr (buildInstr r.shape w0 (args.getD 0 0) (args.getD 1 0)) r.words
      else .illegal .mustBeZero r.words

/-! ### The encoder -/

/-- The header word `{IMM, RSV = 0, LAYER, OPC}` (R62). -/
def headerWord (opc : BitVec 8) (l imm : Nat) : Word :=
  BitVec.ofNat 16 imm ++ 0#4 ++ BitVec.ofNat 4 l ++ opc

/-- The coordinate word `{Y, X}` (R63). -/
def xyWord (x y : Int) : Word := BitVec.ofInt 16 y ++ BitVec.ofInt 16 x

/-- The words of a command (R61, R66). -/
def encode : Instr → List Word
  | .setPixel l x y color => [headerWord 0x01#8 l 0, xyWord x y, color]
  | .setPixelOver l x y color => [headerWord 0x02#8 l 0, xyWord x y, color]
  | .getPixel l x y => [headerWord 0x03#8 l 0, xyWord x y]
  | .setAll l color => [headerWord 0x04#8 l 0, color]
  | .fadeOut l factor => [headerWord 0x05#8 l factor]
  | .shiftUp l n => [headerWord 0x06#8 l n]
  | .composite x y => [headerWord 0x07#8 0 0, xyWord x y]
  | .startDrawing l => [headerWord 0x10#8 l 0]
  | .doneDrawing l => [headerWord 0x11#8 l 0]
  | .waitDrawingDone => [headerWord 0x12#8 0 0]
  | .doneUpdating => [headerWord 0x13#8 0 0]
  | .init brightness => [headerWord 0x20#8 0 brightness]
  | .updateFrame => [headerWord 0x21#8 0 0]
  | .setBrightness level => [headerWord 0x22#8 0 level]
  | .setBrightnessCap cap => [headerWord 0x23#8 0 cap]
  | .readReg r => [headerWord 0x24#8 0 r]

/-! ### The table's numbering of bits -/

/-- The three command words of an instruction given as one number: bit 0 is bit 0 of `W0`, bit 32 is bit 0 of the
first argument word. Bits at or above `nbits` are 0. -/
def tableWords (nbits w : Nat) : List Word :=
  let v := w % 2 ^ nbits
  [BitVec.ofNat 32 v, BitVec.ofNat 32 (v / 2 ^ 32), BitVec.ofNat 32 (v / 2 ^ 64)]

/-- The words of the one command at the front of `tableWords`: as many as its length says (R68). -/
def tableCommand (nbits w : Nat) : List Word :=
  match decode (tableWords nbits w) with
  | .instr _ n => (tableWords nbits w).take n
  | .illegal _ n => (tableWords nbits w).take n
  | .incomplete => tableWords nbits w

/-- The instruction the decoder reads from an instruction numbered as the opcode table numbers it. -/
def decodeTableWord (nbits w : Nat) : Option Instr :=
  match decode (tableWords nbits w) with
  | .instr i _ => some i
  | _ => none

end Sys2Proof
end

