-- ==== Sys2Proof/Config.lean ====
section
/-! DEFINITION. The elaboration-time parameters R4 to R13 as one record, their admitted ranges, the default gamma
table R87, the reference configuration, and the free choice of what happens next (R52). -/

namespace Sys2Proof

/-- `GETPIXEL_OOB`: the out-of-bounds policy of the layer reads (R13, R93). -/
inductive OobPolicy where
  | zero
  | wrap
  | clamp
deriving DecidableEq, Repr

/-- The configuration record (R4 to R13). No step changes it. -/
structure Config where
  /-- number of layers (R4) -/
  N : Nat
  /-- panel and layer width (R5) -/
  W : Nat
  /-- panel and layer height (R5) -/
  H : Nat
  /-- row-address line count (R6) -/
  L : Nat
  /-- number of bitplanes (R7) -/
  K : Nat
  /-- the gamma table, 256 entries of `u8` (R8, R32) -/
  gamma : List (BitVec 8)
  /-- the barrier's bounded wait in ms; no rule of the untimed model depends on it (R9, R161) -/
  tSync : Nat
  /-- number of command ports (R10) -/
  nports : Nat
  bitR1 : Nat
  bitG1 : Nat
  bitB1 : Nat
  bitR2 : Nat
  bitG2 : Nat
  bitB2 : Nat
  bitAddr0 : Nat
  bitLat : Nat
  bitOe : Nat
  /-- `ALLOC_CAN_FAIL` (R12) -/
  allocCanFail : Bool
  /-- `GETPIXEL_OOB` (R13) -/
  oob : OobPolicy
  /-- `WDD_CLEAR_ON_TIMEOUT` (R13) -/
  wddClear : Bool
deriving DecidableEq, Repr

namespace Config

/-- Pixels of one layer, `W*H` (R22). -/
def pixels (c : Config) : Nat := c.W * c.H

/-- Row pairs of the panel, `H/2` (R119). -/
def half (c : Config) : Nat := c.H / 2

/-- Words of one bitplane, `W*H/2` (R28). -/
def planeWords (c : Config) : Nat := c.W * c.H / 2

/-- Entries of the schedule, `2^K - 1` (R27). -/
def slots (c : Config) : Nat := 2 ^ c.K - 1

/-- The nine position parameters of R11. -/
def namedPositions (c : Config) : List Nat :=
  [c.bitR1, c.bitG1, c.bitB1, c.bitR2, c.bitG2, c.bitB2, c.bitAddr0, c.bitLat, c.bitOe]

/-- The bit positions a DMA word uses: six colours, `LAT`, `OE` and the `L` address bits (R11). -/
def bitPositions (c : Config) : List Nat :=
  [c.bitR1, c.bitG1, c.bitB1, c.bitR2, c.bitG2, c.bitB2, c.bitLat, c.bitOe]
    ++ (List.range c.L).map (c.bitAddr0 + ·)

/-- The admitted parameter ranges (R4 to R8, R10, R11, R13). -/
structure Valid (c : Config) : Prop where
  n_pos : 1 ≤ c.N
  n_le : c.N ≤ 8
  w_ge : 2 ≤ c.W
  w_le : c.W ≤ 32767
  h_ge : 2 ≤ c.H
  h_le : c.H ≤ 32767
  h_even : c.H % 2 = 0
  l_le : c.L ≤ 5
  rows_fit : c.H / 2 ≤ 2 ^ c.L
  k_pos : 1 ≤ c.K
  k_le : c.K ≤ 8
  gamma_length : c.gamma.length = 256
  gamma_mono : ∀ i < 255, c.gamma.getD i 0 ≤ c.gamma.getD (i + 1) 0
  gamma_zero : c.gamma.getD 0 0 = 0
  gamma_full : c.gamma.getD 255 0 = 255
  nports_pos : 1 ≤ c.nports
  named_distinct : c.namedPositions.Nodup
  named_le : ∀ b ∈ c.namedPositions, b ≤ 15
  bits_distinct : c.bitPositions.Nodup
  bits_le : ∀ b ∈ c.bitPositions, b ≤ 15
  wrap_pow2 : c.oob = .wrap → (∃ a, c.W = 2 ^ a) ∧ (∃ a, c.H = 2 ^ a)

end Config

/-- Rows `0x0_` to `0x3_` of the table of R87. -/
def gammaRows0 : List (List Nat) :=
  [[0, 0, 0, 0, 0, 0, 0, 1, 1, 1, 1, 1, 1, 1, 1, 1],
   [1, 1, 2, 2, 2, 2, 2, 2, 2, 2, 3, 3, 3, 3, 3, 3],
   [4, 4, 4, 4, 4, 5, 5, 5, 5, 6, 6, 6, 6, 7, 7, 7],
   [8, 8, 8, 8, 9, 9, 9, 10, 10, 10, 11, 11, 12, 12, 12, 13]]

/-- Rows `0x4_` to `0x7_` of the table of R87. -/
def gammaRows1 : List (List Nat) :=
  [[13, 13, 14, 14, 15, 15, 16, 16, 17, 17, 17, 18, 18, 19, 19, 20],
   [20, 21, 22, 22, 23, 23, 24, 24, 25, 25, 26, 27, 27, 28, 29, 29],
   [30, 30, 31, 32, 32, 33, 34, 35, 35, 36, 37, 37, 38, 39, 40, 41],
   [41, 42, 43, 44, 45, 45, 46, 47, 48, 49, 50, 51, 51, 52, 53, 54]]

/-- Rows `0x8_` to `0xB_` of the table of R87. -/
def gammaRows2 : List (List Nat) :=
  [[55, 56, 57, 58, 59, 60, 61, 62, 63, 64, 65, 66, 67, 68, 69, 70],
   [71, 72, 73, 74, 76, 77, 78, 79, 80, 81, 82, 84, 85, 86, 87, 88],
   [90, 91, 92, 93, 95, 96, 97, 99, 100, 101, 103, 104, 105, 107, 108, 109],
   [111, 112, 114, 115, 116, 118, 119, 121, 122, 124, 125, 127, 128, 130, 131, 133]]

/-- Rows `0xC_` to `0xF_` of the table of R87. -/
def gammaRows3 : List (List Nat) :=
  [[134, 136, 138, 139, 141, 142, 144, 146, 147, 149, 151, 152, 154, 156, 157, 159],
   [161, 163, 164, 166, 168, 170, 171, 173, 175, 177, 179, 181, 183, 184, 186, 188],
   [190, 192, 194, 196, 198, 200, 202, 204, 206, 208, 210, 212, 214, 216, 218, 220],
   [222, 224, 226, 229, 231, 233, 235, 237, 239, 242, 244, 246, 248, 250, 253, 255]]

/-- `GAMMA_REF`, the default gamma table (R87): the spec's integers, entry `16*hi + lo`. -/
def gammaRef : List (BitVec 8) :=
  (gammaRows0 ++ gammaRows1 ++ gammaRows2 ++ gammaRows3).flatten.map (BitVec.ofNat 8)

/-- The configuration of `State.reset`: every default of R4, R9 to R13 and R87; the geometry `W = H = 4`, `L = 1`,
`K = 2` of the spec's test vectors, because the spec gives no reference value. DESIGN CHOICE (log entry 3): unsafe
only for a claim about `State.reset` itself, since every other claim ranges over all configurations. -/
def Config.reference : Config where
  N := 3
  W := 4
  H := 4
  L := 1
  K := 2
  gamma := gammaRef
  tSync := 500
  nports := 4
  bitR1 := 0
  bitG1 := 1
  bitB1 := 2
  bitR2 := 3
  bitG2 := 4
  bitB2 := 5
  bitAddr0 := 8
  bitLat := 13
  bitOe := 14
  allocCanFail := true
  oob := .zero
  wddClear := true

/-- Who takes the next atomic step, or what the outside does to the block (R17, R52, R150). -/
inductive Turn where
  /-- Port `p` takes one atomic step. `alt` resolves the step's open choice: with `alt = true` a wait whose condition
  is false ends by `TIMEOUT` (R111), and an `INIT` that can fail fails (R120). -/
  | port (p : Nat) (alt : Bool)
  /-- The panel sequencer takes one atomic step (R17(b), R124). -/
  | sequencer
  /-- The DMA engine takes one atomic step (R17(c), R128). -/
  | dma
  /-- The host writes one command word to port `p` (R20, R61). -/
  | hostWrite (p : Nat) (w : Word)
  /-- The host takes the oldest response of port `p` (R20, R70). -/
  | hostRead (p : Nat)
  /-- External reset (R150). -/
  | reset
deriving DecidableEq, Repr, Inhabited

/-- FREE VALUE (log entry 1): which enabled agent steps next is free, and so are timeouts, the outcome of `INIT` and the
host's actions (R52, R111, R120, A5 to A10). It has no body: nothing can be proved about its values. -/
opaque Config.freeTurn : Nat → Turn

end Sys2Proof
end

