-- ==== Sys2Proof/Machine/State.lean ====
section
/-! DEFINITION. The architectural state R17 to R39 as plain data, the response and port types, the reasons a step can stop,
and the reset state R39. -/

namespace Sys2Proof.Machine

/-- The status codes of R135. Codes 5 to 15 do not exist, so none can be produced (A17). -/
inductive Code where
  | ok
  | timeout
  | illegal
  | notReady
  | fatal
deriving DecidableEq, Repr

/-- A response `{code, data}` (R70). -/
structure Response where
  code : Code
  data : BitVec 32
deriving DecidableEq, Repr

/-- The condition of a held command (R20, R103, R105, R126). -/
inductive Cond where
  /-- `DRAWABLE[l] = 1` -/
  | drawable (l : Nat)
  /-- `DONE[l] = 1` for every layer -/
  | allDone
  /-- `SEQ_OWNER = none` -/
  | seqFree
deriving DecidableEq, Repr

/-- `PORT_STATE[p]` (R20). `exec` carries the next pixel or word index and, for `FADE_OUT`, the count so far, which
R96 keeps between the command's steps. -/
inductive PortState where
  | idle
  | exec (cmd : Instr) (progress count : Nat)
  | held (cmd : Instr) (cond : Cond)
deriving DecidableEq, Repr

/-- One command port: `PORT_IN`, `PORT_STATE`, `PORT_OUT` (R20). -/
structure Port where
  inq : List Word
  st : PortState
  out : List Response
deriving DecidableEq, Repr

/-- `INIT_STATE` (R24). -/
inductive InitState where
  | uninit
  | ready
  | fatal
deriving DecidableEq, Repr

/-- `SEQ_PHASE` (R30). -/
inductive SeqPhase where
  | wait
  | encode
  | release
deriving DecidableEq, Repr

/-- A storage space of `w`-bit elements in canonical form: element numbers strictly rising, each with its value.
An unlisted element holds "no value" (R40, A12). The element is the smallest unit a command or the block reaches
(R41, R47), so it is the unit of the list (log entry 4). -/
abbrev Memory (w : Nat) := List (Nat × BitVec w)

/-- The whole machine. The first five fields are the model's own (log entries 1 to 3, 18); the others are the block's
state, by the names of R20 to R30 and R133. -/
structure State where
  /-- the configuration record; constant (R4 to R13) -/
  cfg : Config
  /-- the turns fixed in advance, next first; when empty, the next turn is free -/
  agenda : List Turn
  /-- how many free turns have been drawn -/
  fresh : Nat
  /-- the port taking the current step -/
  actor : Nat
  /-- how the current step resolves its open choice -/
  alt : Bool
  /-- `PORT_IN`, `PORT_STATE`, `PORT_OUT` of every port (R20) -/
  ports : List Port
  /-- `LAYER` (R22) -/
  layer : Memory 32
  /-- `PLANE` (R28) -/
  plane : Memory 16
  /-- `SCHED` (R27); empty means no value -/
  sched : List Nat
  /-- `DRAWABLE` (R23) -/
  drawable : List Bool
  /-- `DONE` (R23) -/
  done : List Bool
  /-- `INIT_STATE` (R24) -/
  initState : InitState
  /-- `BRIGHTNESS` (R25) -/
  brightness : BitVec 16
  /-- `BRIGHTNESS_CAP` (R26) -/
  brightnessCap : BitVec 16
  /-- `DMA_RUN` (R29) -/
  dmaRun : Bool
  /-- `DMA_SLOT` (R29) -/
  dmaSlot : Nat
  /-- `DMA_IDX` (R29) -/
  dmaIdx : Nat
  /-- `SEQ_OWNER` (R30) -/
  seqOwner : Option Nat
  /-- `SEQ_PHASE` (R30) -/
  seqPhase : SeqPhase
  /-- `SEQ_Y` (R30) -/
  seqY : Nat
  /-- `SEQ_X` (R30) -/
  seqX : Nat
  /-- `SEQ_B` (R30) -/
  seqB : Nat
  /-- `SEQ_TO` (R30) -/
  seqTo : Bool
  /-- the panel-bus trace, oldest word first (R133) -/
  bus : List DmaWord
deriving DecidableEq, Repr

/-- The storage spaces that hold no value before `INIT` (R40). -/
inductive Space where
  | layer
  | plane
  | sched
deriving DecidableEq, Repr

/-- The reasons the machine stops with a fault. -/
inductive Fault where
  /-- A read of an element that holds "no value": R40 asks a model to treat it as a fault. Raised by the pixel reads of
  the framebuffer commands and the sequencer and by the DMA engine. Safe: no state that the invariant
  `Sys2Proof.BlockInv` admits raises it (R40, R134). -/
  | noValue (space : Space)
deriving DecidableEq, Repr

/-- The reasons a step has no meaning. -/
inductive Refusal where
  /-- An instruction without a meaning; raised by no arm of this model. Safe. -/
  | notModelled (mnemonic : String)
deriving DecidableEq, Repr

/-- What a step or a part of one answers. -/
abbrev Result := Host.Outcome State Fault Refusal

/-- A port after reset (R39). -/
def Port.reset : Port where
  inq := []
  st := .idle
  out := []

/-- The reset state of a block with configuration `c` (R39). The registers that R39 calls unspecified (`SEQ_PHASE`,
`SEQ_Y`, `SEQ_X`, `SEQ_B`, `SEQ_TO`) get the value zero, DESIGN CHOICE (log entry 6). -/
def State.resetWith (c : Config) : State where
  cfg := c
  agenda := []
  fresh := 0
  actor := 0
  alt := false
  ports := List.replicate c.nports Port.reset
  layer := []
  plane := []
  sched := []
  drawable := List.replicate c.N true
  done := List.replicate c.N false
  initState := .uninit
  brightness := 0
  brightnessCap := BitVec.ofNat 16 (c.W - 2)
  dmaRun := false
  dmaSlot := 0
  dmaIdx := 0
  seqOwner := none
  seqPhase := .wait
  seqY := 0
  seqX := 0
  seqB := 0
  seqTo := false
  bus := []

/-- The machine right after reset, with the reference configuration. -/
def State.reset : State := State.resetWith Config.reference

end Sys2Proof.Machine
end

