-- ==== Sys2Proof/Machine/Ops.lean ====
section
/-! DEFINITION. The named operations over the storage spaces and the ports: element reads and writes R47, responses R70,
holding R20, and the error response R136, R137, R141 that stands where another machine would take an exception. -/

namespace Sys2Proof.Machine

/-! ### Storage spaces -/

/-- The value of an element; none is "no value" (R40). -/
def Memory.read {w : Nat} : Memory w → Nat → Option (BitVec w)
  | [], _ => none
  | (k, v) :: rest, a => if k = a then some v else Memory.read rest a

/-- One atomic write of a whole element (R47), keeping the canonical form. -/
def Memory.write {w : Nat} : Memory w → Nat → BitVec w → Memory w
  | [], a, v => [(a, v)]
  | (k, u) :: rest, a, v =>
    if a < k then (a, v) :: (k, u) :: rest
    else if a = k then (a, v) :: rest
    else (k, u) :: Memory.write rest a v

/-- The space whose elements `0 .. n-1` hold `f` and whose other elements hold no value. -/
def Memory.filled {w : Nat} (n : Nat) (f : Nat → BitVec w) : Memory w :=
  (List.range n).map fun a => (a, f a)

/-- The canonical form: element numbers strictly rising. An unlisted element holds no value, so no listed entry can
equal what an unlisted one reads as. -/
abbrev Memory.wf {w : Nat} (m : Memory w) : Prop := List.Pairwise (fun p q => p.1 < q.1) m

/-- The element number of pixel `i` of layer `l` (R42). -/
def layerAddr (c : Config) (l i : Nat) : Nat := l * c.pixels + i

/-- The element number of word `j` of bitplane `k` (R43). -/
def planeAddr (c : Config) (k j : Nat) : Nat := k * c.planeWords + j

/-- `LayerRead(l, i)` (R15, R47). -/
def State.readLayer (s : State) (l i : Nat) : Option Pixel := s.layer.read (layerAddr s.cfg l i)

/-- `LayerWrite(l, i, v)` (R15, R47). -/
def State.writeLayer (s : State) (l i : Nat) (v : Pixel) : State :=
  { s with layer := s.layer.write (layerAddr s.cfg l i) v }

/-- `PlaneRead(k, j)` (R15, R47). -/
def State.readPlane (s : State) (k j : Nat) : Option DmaWord := s.plane.read (planeAddr s.cfg k j)

/-- `PlaneWrite(k, j, v)` (R15, R47). -/
def State.writePlane (s : State) (k j : Nat) (v : DmaWord) : State :=
  { s with plane := s.plane.write (planeAddr s.cfg k j) v }

/-- Byte `b` of a value, little-endian: byte 0 is bits 7:0 (R46). -/
def byteOf {w : Nat} (v : BitVec w) (b : Nat) : BitVec 8 := v.extractLsb' (8 * b) 8

/-- The byte view of layer `l`: byte `a % 4` of pixel `a / 4` (R46). -/
def State.layerByte (s : State) (l a : Nat) : Option (BitVec 8) :=
  (s.readLayer l (a / 4)).map fun p => byteOf p (a % 4)

/-- The byte view of bitplane `k`: byte `a % 2` of word `a / 2` (R46). -/
def State.planeByte (s : State) (k a : Nat) : Option (BitVec 8) :=
  (s.readPlane k (a / 2)).map fun w => byteOf w (a % 2)

/-- Go on with a value that was read; a read of "no value" is a fault of the model (R40, A12). -/
def orNoValue {α : Type} (space : Space) (o : Option α) (k : α → Result) : Result :=
  match o with
  | some v => k v
  | none => .fault (.noValue space)

/-! ### Ports -/

/-- The `u4` number of a status code (R70, R135). -/
def Code.u4 : Code → BitVec 4
  | .ok => 0
  | .timeout => 1
  | .illegal => 2
  | .notReady => 3
  | .fatal => 4

/-- A response as the bits `{code, data}`, the code in bits 35:32 (R14, R70). -/
def Response.bits (r : Response) : BitVec 36 := r.code.u4 ++ r.data

/-- Change port `p`; nothing happens where there is no such port. -/
def State.updPort (s : State) (p : Nat) (f : Port → Port) : State :=
  { s with ports := s.ports.modify p f }

/-- `PORT_STATE` of port `p`. -/
def State.portState (s : State) (p : Nat) : PortState :=
  match s.ports[p]? with
  | some q => q.st
  | none => .idle

/-- `PORT_STATE` of the port taking the current step. -/
def State.actorState (s : State) : PortState := s.portState s.actor

/-- What a response does to its port: it enters `PORT_OUT` last, and the port is idle (R70, R142). -/
def Port.respond (q : Port) (code : Code) (data : BitVec 32) : Port :=
  { q with st := .idle, out := q.out ++ [⟨code, data⟩] }

/-- `respond(code, data)` on port `p` (R15, R70). -/
def State.respondOn (s : State) (p : Nat) (code : Code) (data : BitVec 32) : State :=
  s.updPort p fun q => q.respond code data

/-- `respond(code, data)` on the acting port (R15, R70). -/
def State.respond (s : State) (code : Code) (data : BitVec 32) : State :=
  s.respondOn s.actor code data

/-- The acting port holds (R20). -/
def State.hold (s : State) (cmd : Instr) (cond : Cond) : State :=
  s.updPort s.actor fun q => { q with st := .held cmd cond }

/-- Port `p` has more steps of its command to take (R20, R54). -/
def State.execOn (s : State) (p : Nat) (cmd : Instr) (progress count : Nat) : State :=
  s.updPort p fun q => { q with st := .exec cmd progress count }

/-! ### The checks of R136 -/

/-- What a command asks of `INIT_STATE` (R138, checks 3 and 5 of R136). -/
inductive Needs where
  /-- the commands of R138 -/
  | ready
  /-- `INIT` -/
  | uninit
  /-- the barrier commands: any state but `FATAL` (R102) -/
  | notFatal
  /-- `READ_REG`: every state (R127) -/
  | nothing
deriving DecidableEq, Repr

/-- Checks 3, 4 and 5 of R136 in their order; `operandOk` is check 4. None means the command executes. Checks 1 and 2 are
the decoder's. -/
def State.refusalCode (s : State) (needs : Needs) (operandOk : Bool) : Option Code :=
  if s.initState = .fatal ∧ needs ≠ .nothing then some .fatal
  else if operandOk = false then some .illegal
  else if needs = .uninit ∧ s.initState = .ready then some .illegal
  else if needs = .ready ∧ s.initState = .uninit then some .notReady
  else none

/-- The error response: the code, data 0, and no other change (R135, R137, R141). -/
def State.errorResponse (s : State) (code : Code) : Result := .next (s.respond code 0)

/-- The first step of a command: its checks, then `run` (R136). -/
def State.checked (s : State) (needs : Needs) (operandOk : Bool) (run : State → Result) : Result :=
  match s.refusalCode needs operandOk with
  | some code => s.errorResponse code
  | none => run s

/-! ### Bulk commands -/

/-- The end of one step of a bulk command that has treated element `i`: go on with `i + 1`, or respond after the last
element (R54, R95). The response comes in the last element's step, DEDUCED (log entry 7). -/
def State.advance (s : State) (cmd : Instr) (i count : Nat) (data : BitVec 32) : State :=
  if i + 1 < s.cfg.pixels then s.execOn s.actor cmd (i + 1) count else s.respond .ok data

/-- One step of a bulk command: its first step makes the checks and treats element 0, a later one goes on at the port's
progress (R54, R136). `elem i count` treats element `i`. -/
def State.bulk (s : State) (operandOk : Bool) (elem : Nat → Nat → State → Result) : Result :=
  match s.actorState with
  | .exec _ i count => elem i count s
  | _ => s.checked .ready operandOk (elem 0 0)

end Sys2Proof.Machine
end

