-- ==== Sys2Proof/Machine/PixelMath.lean ====
section
/-! DEFINITION. Pixel arithmetic and gamma, R78 to R89: the block's datapath functions. -/

namespace Sys2Proof.Machine

/-- A channel of a pixel (R14). -/
inductive Channel where
  | R
  | G
  | B
  | A
deriving DecidableEq, Repr

/-- The lowest bit of a channel (R14, R22). -/
def Channel.lo : Channel → Nat
  | .R => 0
  | .G => 8
  | .B => 16
  | .A => 24

/-- `ch(p, c)` (R14). -/
def ch (p : Pixel) (c : Channel) : Nat := (p.extractLsb' c.lo 8).toNat

/-- `pack(r, g, b, a) = {a, b, g, r}`, each argument reduced `mod 256` (R14). -/
def pack (r g b a : Nat) : Pixel :=
  BitVec.ofNat 8 a ++ BitVec.ofNat 8 b ++ BitVec.ofNat 8 g ++ BitVec.ofNat 8 r

/-- `sc(f, v) = ((f + 1) * v) >> 8` (R78). -/
def sc (f v : Nat) : Nat := ((f + 1) * v) >>> 8

/-- `scale(f, p)` (R78). -/
def scale (f : Nat) (p : Pixel) : Pixel :=
  pack (sc f (ch p .R)) (sc f (ch p .G)) (sc f (ch p .B)) (sc f (ch p .A))

/-- The two-lane form of `scale` (R79), on unsigned 32-bit arithmetic. -/
def scaleLanes (f : Nat) (p : Pixel) : Pixel :=
  let m : Pixel := 0x00FF00FF#32
  let g : Pixel := BitVec.ofNat 32 (f + 1)
  let lo := (((p &&& m) * g) >>> 8) &&& m
  let hi := ((((p >>> 8) &&& m) * g) >>> 8) &&& m
  lo ||| (hi <<< 8)

/-- `t_c` of R81: one channel of `over` before its reduction `mod 256`. -/
def overChannel (dst src : Pixel) (c : Channel) : Nat :=
  ch dst c + ch src c - sc (ch src .A) (ch dst c)

/-- `over(dst, src)` (R81); a channel above 255 wraps on its own (R82). -/
def blendOver (dst src : Pixel) : Pixel :=
  pack (overChannel dst src .R) (overChannel dst src .G) (overChannel dst src .B) (overChannel dst src .A)

/-- A pixel is premultiplied when no colour channel exceeds its alpha (glossary, R83). The block does not check it (R85). -/
abbrev Premultiplied (p : Pixel) : Prop :=
  ch p .R ≤ ch p .A ∧ ch p .G ≤ ch p .A ∧ ch p .B ≤ ch p .A

/-- `GAMMA[v]` (R8, R32). -/
def gammaAt (c : Config) (v : Nat) : BitVec 8 := c.gamma.getD v 0

/-- `gammaRGB(acc)`; the accumulator's alpha is not read (R86). -/
def gammaRGB (c : Config) (acc : Pixel) : Color :=
  gammaAt c (ch acc .B) ++ gammaAt c (ch acc .G) ++ gammaAt c (ch acc .R)

end Sys2Proof.Machine
end

