-- ==== Sys2Proof/Machine/Operands.lean ====
section
/-! DEFINITION. Operand forms: coordinates and their bounds R16, R90, the out-of-bounds read policy R93, and the fold of the
layers at one position R99, R100. -/

namespace Sys2Proof.Machine

/-- `inb(x, y)` (R16, R90). -/
abbrev inb (c : Config) (x y : Int) : Prop := 0 ≤ x ∧ x < c.W ∧ 0 ≤ y ∧ y < c.H

/-- `idx(x, y) = x + y*W` for coordinates in bounds (R16, R90). -/
def idx (c : Config) (x y : Int) : Nat := x.toNat + y.toNat * c.W

/-- `v & (n-1)` on a two's-complement `i16`, the `WRAP` policy (R93). -/
def wrapCoord (n : Nat) (v : Int) : Int := ((BitVec.ofInt 16 v) &&& BitVec.ofNat 16 (n - 1)).toNat

/-- `min(max(v, 0), n-1)`, the `CLAMP` policy (R93). -/
def clampCoord (n : Nat) (v : Int) : Int := min (max v 0) ((n : Int) - 1)

/-- `readPix(l, x, y)` (R93); none is a read of "no value". -/
def State.readPix (s : State) (l : Nat) (x y : Int) : Option Pixel :=
  if inb s.cfg x y then s.readLayer l (idx s.cfg x y)
  else match s.cfg.oob with
    | .zero => some 0
    | .wrap => s.readLayer l (idx s.cfg (wrapCoord s.cfg.W x) (wrapCoord s.cfg.H y))
    | .clamp => s.readLayer l (idx s.cfg (clampCoord s.cfg.W x) (clampCoord s.cfg.H y))

/-- Layers `0 .. n-1` of one position folded with `over`, layer 0 first, from transparent black (R99). -/
def State.accUpTo (s : State) (x y : Int) : Nat → Option Pixel
  | 0 => some 0
  | n + 1 =>
    match s.accUpTo x y n, s.readPix n x y with
    | some acc, some p => some (blendOver acc p)
    | _, _ => none

/-- `accAt(x, y)` (R99). -/
def State.accAt (s : State) (x y : Int) : Option Pixel := s.accUpTo x y s.cfg.N

/-- `compositeAt(x, y) = gammaRGB(accAt(x, y))` (R100). -/
def State.compositeAt (s : State) (x y : Int) : Option Color := (s.accAt x y).map (gammaRGB s.cfg)

end Sys2Proof.Machine
end

