-- ==== Sys2Proof/Machine/Framebuffer.lean ====
section
/-! DEFINITION. The framebuffer and compositor commands, R90 to R101. -/

namespace Sys2Proof.Machine

/-- `l < N`, check 4 of R136. -/
abbrev State.layerOk (s : State) (l : Nat) : Bool := decide (l < s.cfg.N)

/-- `SET_PIXEL` (R91). -/
def execSetPixel (l : Nat) (x y : Int) (color : Pixel) (s : State) : Result :=
  s.checked .ready (s.layerOk l) fun s =>
    if inb s.cfg x y then .next ((s.writeLayer l (idx s.cfg x y) color).respond .ok 0)
    else .next (s.respond .ok 0)

/-- `SET_PIXEL_OVER` (R92): one atomic read-modify-write. -/
def execSetPixelOver (l : Nat) (x y : Int) (color : Pixel) (s : State) : Result :=
  s.checked .ready (s.layerOk l) fun s =>
    if inb s.cfg x y then
      orNoValue .layer (s.readLayer l (idx s.cfg x y)) fun p =>
        .next ((s.writeLayer l (idx s.cfg x y) (blendOver p color)).respond .ok 0)
    else .next (s.respond .ok 0)

/-- `GET_PIXEL` (R94). -/
def execGetPixel (l : Nat) (x y : Int) (s : State) : Result :=
  s.checked .ready (s.layerOk l) fun s =>
    orNoValue .layer (s.readPix l x y) fun p => .next (s.respond .ok p)

/-- One step of `SET_ALL` (R95). -/
def execSetAll (l : Nat) (color : Pixel) (s : State) : Result :=
  s.bulk (s.layerOk l) fun i count s =>
    .next ((s.writeLayer l i color).advance (.setAll l color) i count 0)

/-- One step of `FADE_OUT` (R96). The pixel is tested before its own scaling, and the response carries the count. -/
def execFadeOut (l factor : Nat) (s : State) : Result :=
  s.bulk (s.layerOk l) fun i count s =>
    orNoValue .layer (s.readLayer l i) fun p =>
      if p = 0 then .next (s.advance (.fadeOut l factor) i count (BitVec.ofNat 32 count))
      else .next ((s.writeLayer l i (scale (255 - factor) p)).advance (.fadeOut l factor) i (count + 1)
        (BitVec.ofNat 32 (count + 1)))

/-- One step of `SHIFT_UP` (R98): read and write in one step, ascending destination order. -/
def execShiftUp (l n : Nat) (s : State) : Result :=
  s.bulk (s.layerOk l) fun i count s =>
    if i / s.cfg.W + n < s.cfg.H then
      orNoValue .layer (s.readLayer l (i + n * s.cfg.W)) fun p =>
        .next ((s.writeLayer l i p).advance (.shiftUp l n) i count 0)
    else .next ((s.writeLayer l i 0).advance (.shiftUp l n) i count 0)

/-- `COMPOSITE` (R101): one atomic step that reads the pixel of every layer. -/
def execComposite (x y : Int) (s : State) : Result :=
  s.checked .ready true fun s =>
    orNoValue .layer (s.compositeAt x y) fun c => .next (s.respond .ok (c.setWidth 32))

end Sys2Proof.Machine
end

