-- ==== Sys2Proof/Machine/Flags.lean ====
section
/-! DEFINITION. The barrier flags R23, R57, R102 and the read-only registers that show them and the configuration, R33 to
R36. The block has no arithmetic flags (R37). -/

namespace Sys2Proof.Machine

/-- Flag `l` of a flag row. -/
def flagAt (flags : List Bool) (l : Nat) : Bool := flags.getD l false

/-- `DRAWABLE[l]` (R23). -/
def State.drawableAt (s : State) (l : Nat) : Bool := flagAt s.drawable l

/-- `DONE[l]` (R23). -/
def State.doneAt (s : State) (l : Nat) : Bool := flagAt s.done l

/-- `for all l < N: DONE[l] = 1` (R105). -/
def State.allDone (s : State) : Bool := (List.range s.cfg.N).all s.doneAt

/-- `DRAWABLE[l] <- v` (R103). -/
def State.setDrawable (s : State) (l : Nat) (v : Bool) : State := { s with drawable := s.drawable.set l v }

/-- `DONE[l] <- v` (R104). -/
def State.setDone (s : State) (l : Nat) (v : Bool) : State := { s with done := s.done.set l v }

/-- `for all l < N: DRAWABLE[l] <- 1`, one atomic update (R107). -/
def State.releaseAll (s : State) : State := { s with drawable := List.replicate s.cfg.N true }

/-- `for all l < N: DONE[l] <- 0`, one atomic update (R105). -/
def State.clearDone (s : State) : State := { s with done := List.replicate s.cfg.N false }

/-- The clear that ends a wait of the compositor: always after success, after a timeout only with
`WDD_CLEAR_ON_TIMEOUT` (R105, R106). -/
def State.endWait (s : State) (timedOut : Bool) : State :=
  if timedOut = false ∨ s.cfg.wddClear = true then s.clearDone else s

/-- Bit `l` of a flag field of `STATUS`: the flag for `l < N`, 0 above (R34). -/
def flagBit (n : Nat) (flags : List Bool) (l : Nat) : BitVec 1 := BitVec.ofBool (decide (l < n) && flagAt flags l)

/-- An 8-bit flag field of `STATUS` (R34). -/
def flagByte (n : Nat) (flags : List Bool) : BitVec 8 :=
  flagBit n flags 7 ++ flagBit n flags 6 ++ flagBit n flags 5 ++ flagBit n flags 4
    ++ flagBit n flags 3 ++ flagBit n flags 2 ++ flagBit n flags 1 ++ flagBit n flags 0

/-- `STATUS` (R34). -/
def State.status (s : State) : BitVec 32 :=
  0#8 ++ flagByte s.cfg.N s.done ++ flagByte s.cfg.N s.drawable
    ++ 0#5 ++ BitVec.ofBool s.dmaRun
    ++ BitVec.ofBool (decide (s.initState = .fatal)) ++ BitVec.ofBool (decide (s.initState = .ready))

/-- `CONFIG0 = {H[15:0], W[15:0]}` (R35). -/
def config0 (c : Config) : BitVec 32 := BitVec.ofNat 16 c.H ++ BitVec.ofNat 16 c.W

/-- `CONFIG1`: `N` in 3:0, `K` in 7:4, `L` in 11:8, zero above (R36). -/
def config1 (c : Config) : BitVec 32 :=
  0#20 ++ BitVec.ofNat 4 c.L ++ BitVec.ofNat 4 c.K ++ BitVec.ofNat 4 c.N

/-- Register `r` of the register map; none for a reserved number (R33, R127). -/
def State.regValue (s : State) : Nat → Option (BitVec 32)
  | 0 => some s.status
  | 1 => some (s.brightness.setWidth 32)
  | 2 => some (s.brightnessCap.setWidth 32)
  | 3 => some (config0 s.cfg)
  | 4 => some (config1 s.cfg)
  | _ => none

end Sys2Proof.Machine
end

