-- ==== Sys2Proof/Machine/Panel.lean ====
section
/-! DEFINITION. The panel driver: the BCM schedule R114, the scanline encode R116 to R119, and the commands `INIT`,
`SET_BRIGHTNESS`, `SET_BRIGHTNESS_CAP`, `UPDATE_FRAME` (its port's steps) and `READ_REG`, R120 to R127. -/

namespace Sys2Proof.Machine

/-! ### Schedule -/

/-- The least index of a smallest weight (R114). -/
def leastMin : List Nat → Nat
  | [] => 0
  | [_] => 0
  | a :: b :: rest =>
    let j := leastMin (b :: rest)
    if a ≤ (b :: rest).getD j 0 then 0 else j + 1

/-- The greedy rule for `n` slots from the weights `ws` (R114). -/
def scheduleFrom (K : Nat) : Nat → List Nat → List Nat
  | 0, _ => []
  | n + 1, ws =>
    let k := leastMin ws
    k :: scheduleFrom K n (ws.modify k (· + 2 ^ (K - 1 - k)))

/-- `buildSchedule(K)` (R114). -/
def buildSchedule (K : Nat) : List Nat := scheduleFrom K (2 ^ K - 1) (List.replicate K 0)

/-! ### Scanline encode -/

/-- `oeStart(b)` (R116). -/
def oeStart (W b : Nat) : Nat := (W - b) / 2

/-- `oeStop(b)` (R116). -/
def oeStop (W b : Nat) : Nat := oeStart W b + b

/-- `blanked(x, b)` (R116). -/
abbrev blanked (W x b : Nat) : Prop := ¬(oeStart W b ≤ x ∧ x < oeStop W b)

/-- `if v: w[i] <- 1`. -/
def orBit (w : DmaWord) (i : Nat) (v : Bool) : DmaWord := if v then w ||| (1#16 <<< i) else w

/-- `w[i] <- v`. -/
def assignBit (w : DmaWord) (i : Nat) (v : Bool) : DmaWord :=
  if v then w ||| (1#16 <<< i) else w &&& ~~~(1#16 <<< i)

/-- The six colour bits of plane `k` (R118). -/
def colorBits (c : Config) (c1 c2 : Color) (k : Nat) : DmaWord :=
  let q := 8 - c.K + k
  let w := orBit 0 c.bitR1 (c1.getLsbD q)
  let w := orBit w c.bitG1 (c1.getLsbD (8 + q))
  let w := orBit w c.bitB1 (c1.getLsbD (16 + q))
  let w := orBit w c.bitR2 (c2.getLsbD q)
  let w := orBit w c.bitG2 (c2.getLsbD (8 + q))
  orBit w c.bitB2 (c2.getLsbD (16 + q))

/-- The row-address bits `0 .. n-1` of row pair `y` set in `w` (R117, R118). -/
def addrBits (c : Config) (y : Nat) (w : DmaWord) : Nat → DmaWord
  | 0 => w
  | j + 1 => assignBit (addrBits c y w j) (c.bitAddr0 + j) (y.testBit j)

/-- `encodeWord(y, x, c1, c2, k, b)` (R118). -/
def encodeWord (c : Config) (y x : Nat) (c1 c2 : Color) (k b : Nat) : DmaWord :=
  let w := addrBits c y (colorBits c c1 c2 k) c.L
  let w := orBit w c.bitLat (decide (x = c.W - 1))
  orBit w c.bitOe (decide (blanked c.W x b))

/-- The word a blank plane holds at element `a` of the plane space (R120). -/
def blankWord (c : Config) (b a : Nat) : DmaWord :=
  encodeWord c (a % c.planeWords / c.W) (a % c.planeWords % c.W) 0 0 (a / c.planeWords) b

/-! ### Commands -/

/-- `min(imm, W - 2)`, the clamp of the brightness registers (R25, R26). -/
def clampBrightness (c : Config) (imm : Nat) : BitVec 16 := BitVec.ofNat 16 (min imm (c.W - 2))

/-- The effective brightness (R123). -/
def State.effectiveBrightness (s : State) : Nat := min s.brightness.toNat s.brightnessCap.toNat

/-- The state a successful `INIT` leaves, before its response (R120). -/
def State.initialised (s : State) (imm : Nat) : State :=
  { s with
    layer := Memory.filled (s.cfg.N * s.cfg.pixels) fun _ => 0
    sched := buildSchedule s.cfg.K
    brightness := clampBrightness s.cfg imm
    brightnessCap := BitVec.ofNat 16 (s.cfg.W - 2)
    plane := Memory.filled (s.cfg.K * s.cfg.planeWords) (blankWord s.cfg (clampBrightness s.cfg imm).toNat)
    dmaSlot := 0
    dmaIdx := 0
    dmaRun := true
    initState := .ready }

/-- `INIT` (R120, R121): fails when it can and the step's open choice says so. -/
def execInit (imm : Nat) (s : State) : Result :=
  s.checked .uninit true fun s =>
    if s.cfg.allocCanFail = true ∧ s.alt = true then
      .next (({ s with initState := .fatal } : State).respond .fatal 0)
    else .next ((s.initialised imm).respond .ok 0)

/-- `SET_BRIGHTNESS` (R122). -/
def execSetBrightness (level : Nat) (s : State) : Result :=
  s.checked .ready true fun s =>
    .next (({ s with brightness := clampBrightness s.cfg level } : State).respond .ok
      ((clampBrightness s.cfg level).setWidth 32))

/-- `SET_BRIGHTNESS_CAP` (R123). -/
def execSetBrightnessCap (cap : Nat) (s : State) : Result :=
  s.checked .ready true fun s =>
    .next (({ s with brightnessCap := clampBrightness s.cfg cap } : State).respond .ok
      ((clampBrightness s.cfg cap).setWidth 32))

/-- The acquire step of `UPDATE_FRAME`: take the sequencer or hold until it is free (R124, R126). -/
def tryAcquire (s : State) : Result :=
  if s.seqOwner = none then
    .next (({ s with seqOwner := some s.actor, seqPhase := .wait } : State).hold .updateFrame .allDone)
  else .next (s.hold .updateFrame .seqFree)

/-- The completing step of the wait phase: clear the done flags, sample the brightness, start the encode (R124). -/
def State.frameWaitDone (s : State) (timedOut : Bool) : State :=
  ({ s.endWait timedOut with
      seqTo := timedOut
      seqB := s.effectiveBrightness
      seqPhase := .encode
      seqY := 0
      seqX := 0 } : State).execOn s.actor .updateFrame 0 0

/-- A step of the wait phase (R124, R105). -/
def tryFrameWait (s : State) : Result :=
  if s.allDone = true then .next (s.frameWaitDone false)
  else if s.alt = true then .next (s.frameWaitDone true)
  else .next (s.hold .updateFrame .allDone)

/-- A step of `UPDATE_FRAME` that its port takes: acquire and wait (R124, R126). The encode and release steps are the
sequencer's, so during them the port takes no step (log entry 8). -/
def execUpdateFrame (s : State) : Result :=
  match s.actorState with
  | .idle => s.checked .ready true tryAcquire
  | .held _ .seqFree => tryAcquire s
  | .held _ _ => tryFrameWait s
  | .exec _ _ _ => .next s

/-- `READ_REG` (R127). -/
def execReadReg (r : Nat) (s : State) : Result :=
  s.checked .nothing (s.regValue r).isSome fun s =>
    .next (s.respond .ok ((s.regValue r).getD 0))

end Sys2Proof.Machine
end

