-- ==== Sys2Proof/Machine/Sync.lean ====
section
/-! DEFINITION. The synchronization barrier commands, R102 to R113. A wait whose condition is false holds, or ends with
`TIMEOUT` when the step's open choice says so (R111, log entry 2). -/

namespace Sys2Proof.Machine

/-- A step of `START_DRAWING` after its checks (R103). -/
def tryStartDrawing (l : Nat) (s : State) : Result :=
  if s.drawableAt l = true then .next ((s.setDrawable l false).respond .ok 0)
  else if s.alt = true then .next (s.respond .timeout 0)
  else .next (s.hold (.startDrawing l) (.drawable l))

/-- `START_DRAWING` (R103). A held command is not checked again (R136). -/
def execStartDrawing (l : Nat) (s : State) : Result :=
  match s.actorState with
  | .held _ _ => tryStartDrawing l s
  | _ => s.checked .notFatal (s.layerOk l) (tryStartDrawing l)

/-- `DONE_DRAWING` (R104). -/
def execDoneDrawing (l : Nat) (s : State) : Result :=
  s.checked .notFatal (s.layerOk l) fun s => .next ((s.setDone l true).respond .ok 0)

/-- A step of `WAIT_DRAWING_DONE` after its checks: test and clear are one step (R105, R106). -/
def tryWaitDrawingDone (s : State) : Result :=
  if s.allDone = true then .next ((s.endWait false).respond .ok 0)
  else if s.alt = true then .next ((s.endWait true).respond .timeout 0)
  else .next (s.hold .waitDrawingDone .allDone)

/-- `WAIT_DRAWING_DONE` (R105). -/
def execWaitDrawingDone (s : State) : Result :=
  match s.actorState with
  | .held _ _ => tryWaitDrawingDone s
  | _ => s.checked .notFatal true tryWaitDrawingDone

/-- `DONE_UPDATING` (R107). -/
def execDoneUpdating (s : State) : Result :=
  s.checked .notFatal true fun s => .next (s.releaseAll.respond .ok 0)

end Sys2Proof.Machine
end

