-- ==== Sys2Proof/Machine/Dispatch.lean ====
section
/-! DEFINITION. One atomic step of a command on the port that takes the current step: one meaning per command. -/

namespace Sys2Proof.Machine

def exec (i : Instr) (s : State) : Host.Outcome State Fault Refusal :=
  match i with
  | .setPixel l x y color => Sys2Proof.Machine.execSetPixel l x y color s
  | .setPixelOver l x y color => Sys2Proof.Machine.execSetPixelOver l x y color s
  | .getPixel l x y => Sys2Proof.Machine.execGetPixel l x y s
  | .setAll l color => Sys2Proof.Machine.execSetAll l color s
  | .fadeOut l factor => Sys2Proof.Machine.execFadeOut l factor s
  | .shiftUp l n => Sys2Proof.Machine.execShiftUp l n s
  | .composite x y => Sys2Proof.Machine.execComposite x y s
  | .startDrawing l => Sys2Proof.Machine.execStartDrawing l s
  | .doneDrawing l => Sys2Proof.Machine.execDoneDrawing l s
  | .waitDrawingDone => Sys2Proof.Machine.execWaitDrawingDone s
  | .doneUpdating => Sys2Proof.Machine.execDoneUpdating s
  | .init brightness => Sys2Proof.Machine.execInit brightness s
  | .updateFrame => Sys2Proof.Machine.execUpdateFrame s
  | .setBrightness level => Sys2Proof.Machine.execSetBrightness level s
  | .setBrightnessCap cap => Sys2Proof.Machine.execSetBrightnessCap cap s
  | .readReg r => Sys2Proof.Machine.execReadReg r s

end Sys2Proof.Machine
end

