-- ==== Sys2Proof/Machine/Dma.lean ====
section
/-! DEFINITION. The DMA engine, R128, R129, R133. -/

namespace Sys2Proof.Machine

/-- `DMA_IDX` and `DMA_SLOT` after one word (R128). -/
def State.advanceDma (s : State) : State :=
  if s.dmaIdx + 1 = s.cfg.planeWords then
    { s with dmaIdx := 0, dmaSlot := (s.dmaSlot + 1) % s.cfg.slots }
  else { s with dmaIdx := s.dmaIdx + 1 }

/-- `emit(w)`: one word on the panel bus (R128, R133). -/
def State.emit (s : State) (w : DmaWord) : State := { s with bus := s.bus ++ [w] }

/-- One step of the DMA engine; none is enabled while `DMA_RUN = 0` (R128). -/
def dmaStep (s : State) : Result :=
  if s.dmaRun = true then
    orNoValue .sched s.sched[s.dmaSlot]? fun k =>
      orNoValue .plane (s.readPlane k s.dmaIdx) fun w => .next (s.emit w).advanceDma
  else .next s

end Sys2Proof.Machine
end

