-- ==== Sys2Proof/Machine/Sequencer.lean ====
section
/-! DEFINITION. The panel sequencer's own steps: the encode phase and the release of `UPDATE_FRAME`, R124, R125. -/

namespace Sys2Proof.Machine

/-- The words of planes `0 .. n-1` at row pair `y`, column `x`, written `k` ascending (R124, R125). -/
def State.writePlanes (s : State) (y x : Nat) (c1 c2 : Color) : Nat → State
  | 0 => s
  | k + 1 =>
    (s.writePlanes y x c1 c2 k).writePlane k (y * s.cfg.W + x) (encodeWord s.cfg y x c1 c2 k s.seqB)

/-- The sequencer's position after `(SEQ_Y, SEQ_X)`: `x` first, then `y`; after the last position the release
phase (R124, R125). -/
def State.nextPosition (s : State) : State :=
  if s.seqX + 1 < s.cfg.W then { s with seqX := s.seqX + 1 }
  else if s.seqY + 1 < s.cfg.half then { s with seqX := 0, seqY := s.seqY + 1 }
  else { s with seqX := 0, seqY := 0, seqPhase := .release }

/-- One encode step at `(SEQ_Y, SEQ_X)` for owner `p` (R124). -/
def encodeStep (p : Nat) (s : State) : Result :=
  orNoValue .layer (s.compositeAt s.seqX s.seqY) fun c1 =>
    orNoValue .layer (s.compositeAt s.seqX (s.seqY + s.cfg.half : Nat)) fun c2 =>
      .next ((s.writePlanes s.seqY s.seqX c1 c2 s.cfg.K).nextPosition.execOn p .updateFrame
        (s.seqY * s.cfg.W + s.seqX + 1) 0)

/-- The release step for owner `p`: every layer drawable, the sequencer free, and the response (R124). -/
def releaseStep (p : Nat) (s : State) : Result :=
  .next (({ s.releaseAll with seqOwner := none } : State).respondOn p (if s.seqTo = true then .timeout else .ok) 0)

/-- One step of the sequencer; none is enabled without an owner or in the wait phase. -/
def sequencerStep (s : State) : Result :=
  match s.seqOwner, s.seqPhase with
  | some p, .encode => encodeStep p s
  | some p, .release => releaseStep p s
  | _, _ => .next s

end Sys2Proof.Machine
end

