-- ==== Sys2Proof/Machine/Ports.lean ====
section
/-! DEFINITION. The command ports' steps R20, R68, R136, the host's side of their FIFOs, the external reset R150, and the choice
of the next turn R52. -/

namespace Sys2Proof.Machine

/-- The next turn: the head of the agenda, or a free one when the agenda is empty (R52, log entry 1). -/
def State.nextTurn (s : State) : Turn :=
  match s.agenda with
  | t :: _ => t
  | [] => Config.freeTurn s.fresh

/-- The state with its next turn used up. -/
def State.dropTurn (s : State) : State :=
  { s with
    agenda := s.agenda.tail
    fresh := if s.agenda.isEmpty then s.fresh + 1 else s.fresh }

/-- Port `p` becomes the acting port, with the step's open choice. -/
def State.actAs (s : State) (p : Nat) (alt : Bool) : State := { s with actor := p, alt := alt }

/-- The acting port takes `n` words out of its FIFO (R68). -/
def State.takeWords (s : State) (n : Nat) : State :=
  s.updPort s.actor fun q => { q with inq := q.inq.drop n }

/-- An idle port whose FIFO holds `ws` (R20, R68, R136): it waits for the rest of a command, refuses an illegal encoding
with `ILLEGAL`, or takes the command and its first step. -/
def fetchStep (ws : List Word) (s : State) : Result :=
  match decode ws with
  | .incomplete => .next s
  | .illegal _ n => (s.takeWords n).errorResponse .illegal
  | .instr i n => exec i (s.takeWords n)

/-- One step of port `p` (R17(a), R20); a port that does not exist takes none. -/
def portStep (p : Nat) (alt : Bool) (s : State) : Result :=
  match s.ports[p]? with
  | none => .next s
  | some q =>
    match q.st with
    | .idle => fetchStep q.inq (s.actAs p alt)
    | .exec cmd _ _ => exec cmd (s.actAs p alt)
    | .held cmd _ => exec cmd (s.actAs p alt)

/-- The host writes one word to `PORT_IN[p]` (R20). -/
def State.hostWrite (s : State) (p : Nat) (w : Word) : State :=
  s.updPort p fun q => { q with inq := q.inq ++ [w] }

/-- The oldest response in `PORT_OUT[p]` as the host reads it: the `u4` code and the `u32` data (R20, R70, R135). -/
def State.responseBits (s : State) (p : Nat) : Option (BitVec 36) :=
  (s.ports[p]?.bind fun q => q.out.head?).map Response.bits

/-- The host takes the oldest response out of `PORT_OUT[p]` (R20). -/
def State.hostRead (s : State) (p : Nat) : State :=
  s.updPort p fun q => { q with out := q.out.tail }

/-- External reset: every piece of the block's state takes its reset value (R39, R150). The words already emitted, the
agenda and the free-turn counter are not the block's and stay (log entry 11). -/
def State.externalReset (s : State) : State :=
  { State.resetWith s.cfg with agenda := s.agenda, fresh := s.fresh, bus := s.bus }

/-- One turn (R17, R52). -/
def turnStep (t : Turn) (s : State) : Result :=
  match t with
  | .port p alt => portStep p alt s
  | .sequencer => sequencerStep s
  | .dma => dmaStep s
  | .hostWrite p w => .next (s.hostWrite p w)
  | .hostRead p => .next (s.hostRead p)
  | .reset => .next s.externalReset

/-- `s` with the words `ws` next in the FIFO of port 0, that port idle, and its step the next turn. -/
def State.offer (s : State) (ws : List Word) : State :=
  { s.updPort 0 fun q => { q with inq := ws ++ q.inq, st := .idle } with
    agenda := .port 0 false :: s.agenda }

/-- The turns by which the host writes the command `i` to port `p` (R61, R75). -/
def feed (p : Nat) (i : Instr) : List Turn := (encode i).map (.hostWrite p)

end Sys2Proof.Machine
end

