-- ==== Sys2Proof/Machine/Step.lean ====
section
/-! DEFINITION. One atomic step of the machine R52, and the placement of one command where the next step takes it. -/

namespace Sys2Proof.Machine

/-- One atomic step: the next turn is taken (R52). -/
def step (s : State) : Host.Outcome State Fault Refusal := turnStep s.nextTurn s.dropTurn

/-- `s` with the command given as the opcode table numbers it at the front of port 0's FIFO, and port 0's step next
(log entry 14). -/
def State.withFetchWord (s : State) (nbits w : Nat) : State := s.offer (tableCommand nbits w)

end Sys2Proof.Machine
end

