-- ==== Sys2Proof/Safety.lean ====
section
/-! DEFINITION. What the statements speak in: the invariant of the block's state R39, R40, R134, the checks R136 as a table over
commands, and the shape of a command's response. -/

namespace Sys2Proof

open Sys2Proof.Machine

/-! ### The invariant -/

/-- The layer of a bulk command (R54). -/
def bulkLayer : Instr → Option Nat
  | .setAll l _ => some l
  | .fadeOut l _ => some l
  | .shiftUp l _ => some l
  | _ => none

/-- What `PORT_STATE[p]` may be (R20, R103, R105, R126). -/
def PortOk (s : State) (p : Nat) : PortState → Prop
  | .idle => True
  | .exec cmd progress count =>
    s.initState = .ready ∧
      ((∃ l, bulkLayer cmd = some l ∧ l < s.cfg.N ∧ progress < s.cfg.pixels ∧ count ≤ progress) ∨
        (cmd = .updateFrame ∧ s.seqOwner = some p))
  | .held cmd cond =>
    (∃ l, cmd = .startDrawing l ∧ cond = .drawable l ∧ l < s.cfg.N) ∨
    (cmd = .waitDrawingDone ∧ cond = .allDone) ∨
    (cmd = .updateFrame ∧ cond = .seqFree ∧ s.initState = .ready) ∨
    (cmd = .updateFrame ∧ cond = .allDone ∧ s.seqOwner = some p ∧ s.seqPhase = .wait)

/-- `PORT_STATE` of the sequencer's owner in each phase (R30, R124). -/
def ownerState (s : State) : PortState :=
  match s.seqPhase with
  | .wait => .held .updateFrame .allDone
  | .encode => .exec .updateFrame (s.seqY * s.cfg.W + s.seqX) 0
  | .release => .exec .updateFrame s.cfg.planeWords 0

/-- The invariant of the block's state: the ranges of R23 to R30, memories that hold a value exactly from `INIT` on
(R39, R40), and ports and sequencer that agree (R20, R126). -/
structure BlockInv (s : State) : Prop where
  cfg_valid : s.cfg.Valid
  ports_length : s.ports.length = s.cfg.nports
  drawable_length : s.drawable.length = s.cfg.N
  done_length : s.done.length = s.cfg.N
  brightness_le : s.brightness.toNat ≤ s.cfg.W - 2
  cap_le : s.brightnessCap.toNat ≤ s.cfg.W - 2
  layer_wf : s.layer.wf
  plane_wf : s.plane.wf
  layer_bound : ∀ a, (s.layer.read a).isSome → a < s.cfg.N * s.cfg.pixels
  plane_bound : ∀ a, (s.plane.read a).isSome → a < s.cfg.K * s.cfg.planeWords
  no_value : s.initState ≠ .ready → s.layer = [] ∧ s.plane = [] ∧ s.sched = [] ∧ s.dmaRun = false
  layer_full : s.initState = .ready → ∀ l < s.cfg.N, ∀ i < s.cfg.pixels, (s.readLayer l i).isSome
  plane_full : s.initState = .ready → ∀ k < s.cfg.K, ∀ j < s.cfg.planeWords, (s.readPlane k j).isSome
  sched_built : s.initState = .ready → s.sched = buildSchedule s.cfg.K ∧ s.dmaRun = true
  slot_lt : s.dmaSlot < s.cfg.slots
  idx_lt : s.dmaIdx < s.cfg.planeWords
  seq_y_lt : s.seqY < s.cfg.half
  seq_x_lt : s.seqX < s.cfg.W
  seq_b_le : s.seqB ≤ s.cfg.W - 2
  owner_ok : ∀ p, s.seqOwner = some p →
    s.initState = .ready ∧ p < s.cfg.nports ∧ s.portState p = ownerState s
  ports_ok : ∀ p < s.cfg.nports, PortOk s p (s.portState p)

/-! ### The checks of R136 over commands -/

/-- The commands of R138. -/
def needsReady : Instr → Bool
  | .setPixel .. | .setPixelOver .. | .getPixel .. | .setAll .. | .fadeOut .. | .shiftUp .. | .composite ..
  | .updateFrame | .setBrightness _ | .setBrightnessCap _ => true
  | .startDrawing _ | .doneDrawing _ | .waitDrawingDone | .doneUpdating | .init _ | .readReg _ => false

/-- The layer a command names (R66). -/
def namedLayer : Instr → Option Nat
  | .setPixel l .. | .setPixelOver l .. | .getPixel l .. | .setAll l _ | .fadeOut l _ | .shiftUp l _
  | .startDrawing l | .doneDrawing l => some l
  | .composite .. | .waitDrawingDone | .doneUpdating | .init _ | .updateFrame | .setBrightness _
  | .setBrightnessCap _ | .readReg _ => none

/-- `READ_REG`, the one command that works in `FATAL` (R136). -/
def isReadReg : Instr → Bool
  | .readReg _ => true
  | _ => false

/-- `INIT`. -/
def isInit : Instr → Bool
  | .init _ => true
  | _ => false

/-- Check 4 of R136: an operand is out of range. -/
def operandBad (c : Config) (i : Instr) : Prop :=
  (∃ l, namedLayer i = some l ∧ c.N ≤ l) ∨ (∃ r, i = .readReg r ∧ 5 ≤ r)

/-! ### Shapes of statements -/

/-- `t` has the ports of `s`, but for the acting port's response (R70). -/
abbrev Responded (s t : State) (code : Code) (data : BitVec 32) : Prop :=
  t.ports = s.ports.modify s.actor fun q => q.respond code data

/-- `t` has the ports of `s`, but for the acting port's `PORT_STATE`. -/
abbrev PortStateSet (s t : State) (st : PortState) : Prop :=
  t.ports = s.ports.modify s.actor fun q => { q with st := st }

/-- How the acting port leaves one step of a bulk command that has treated element `i` (R54). -/
abbrev BulkLeft (s t : State) (cmd : Instr) (i count : Nat) (data : BitVec 32) : Prop :=
  if i + 1 < s.cfg.pixels then PortStateSet s t (.exec cmd (i + 1) count) else Responded s t .ok data

/-- The element and the count at which a bulk command's step on the acting port stands (R54). -/
def bulkAt (s : State) : Nat × Nat :=
  match s.actorState with
  | .exec _ i count => (i, count)
  | _ => (0, 0)

/-- Port `p` alone takes the next `n` steps, without open choices, and then the agenda goes on with `rest`. -/
def soloAgenda (p n : Nat) (rest : List Turn) : List Turn := List.replicate n (.port p false) ++ rest

/-- Port `p` is idle with `ws` in its FIFO and `out` in `PORT_OUT`. -/
abbrev PortAt (s : State) (p : Nat) (ws : List Word) (out : List Response) : Prop :=
  s.ports[p]? = some ⟨ws, .idle, out⟩

/-- How many words a decoding takes out of the FIFO; none while the command is incomplete (R68). -/
def wordsTaken : Decoded → Nat
  | .incomplete => 0
  | .illegal _ n => n
  | .instr _ n => n

/-- The command whose step the next turn is, if it is one. -/
def nextCommand (s : State) : Option Instr :=
  match s.nextTurn with
  | .port p _ =>
    match s.ports[p]? with
    | some ⟨_, .exec cmd _ _, _⟩ => some cmd
    | some ⟨_, .held cmd _, _⟩ => some cmd
    | some ⟨ws, .idle, _⟩ =>
      match decode ws with
      | .instr i _ => some i
      | _ => none
    | none => none
  | _ => none

/-- The colour operand of a command. -/
def colorOperand : Instr → Option Pixel
  | .setPixel _ _ _ color => some color
  | .setPixelOver _ _ _ color => some color
  | .setAll _ color => some color
  | _ => none

/-- The commands that write a layer (R22). -/
def writesLayer : Instr → Bool
  | .setPixel .. | .setPixelOver .. | .setAll .. | .fadeOut .. | .shiftUp .. | .init _ => true
  | _ => false

/-- The element of `LAYER` that a step of the command on the acting port writes, if it writes one: the pixel in bounds, or the
element at which a bulk command stands (R91, R92, R95, R96, R98). `INIT`, which writes every element, names none. -/
def namedElement (s : State) : Instr → Option Nat
  | .setPixel l x y _ | .setPixelOver l x y _ =>
    if inb s.cfg x y then some (layerAddr s.cfg l (idx s.cfg x y)) else none
  | .setAll l _ | .fadeOut l _ | .shiftUp l _ => some (layerAddr s.cfg l (bulkAt s).1)
  | .getPixel .. | .composite .. | .startDrawing _ | .doneDrawing _ | .waitDrawingDone | .doneUpdating | .init _
  | .updateFrame | .setBrightness _ | .setBrightnessCap _ | .readReg _ => none

/-- The element of `LAYER` that the next turn's step names, if it is a step of a command that writes one. -/
def writtenElement (s : State) : Option Nat :=
  match s.nextTurn with
  | .port p alt => (nextCommand s).bind (namedElement (s.actAs p alt))
  | _ => none

/-- Every pixel a layer holds is premultiplied (R22, R83). -/
def LayersPremultiplied (s : State) : Prop := ∀ a p, s.layer.read a = some p → Premultiplied p

end Sys2Proof
end

