-- ==== Sys2Proof/Certificates/Slice0/Obligations.lean ====
section
/-! DEFINITION. The statements about the model, one `def Obligations.<Name> : Prop` each; OBLIGATIONS.json lists them. -/

open Sys2Proof Sys2Proof.Machine

/-! ### Encoding -/

/-- R62, R63, R65, R66: a well-formed command, followed by any further words, decodes to itself at its own length. -/
def Obligations.EncodedCommandDecodesToItself : Prop :=
  ∀ (i : Instr) (rest : List Word), i.wf = true → decode (encode i ++ rest) = .instr i (encode i).length

/-- R62 to R67: a command that the decoder reads is well-formed, and its encoding is exactly the words taken. -/
def Obligations.DecodedCommandEncodesBackToItsWords : Prop :=
  ∀ (ws : List Word) (i : Instr) (n : Nat),
    decode ws = .instr i n → i.wf = true ∧ encode i = ws.take n ∧ (encode i).length = n

/-- R66, R67, R68, R69(a)(b): the reserved opcodes are one-word illegal commands, and a must-be-zero bit makes a
defined opcode illegal at its full length. -/
def Obligations.IllegalEncodingsAreRefusedAtTheirLength : Prop :=
  (∀ (w0 : Word) (args : List Word),
    (opcodeField w0 = 0x00#8 ∨ (0x08#8 ≤ opcodeField w0 ∧ opcodeField w0 ≤ 0x0F#8) ∨
      (0x14#8 ≤ opcodeField w0 ∧ opcodeField w0 ≤ 0x1F#8) ∨ 0x25#8 ≤ opcodeField w0) →
      decode (w0 :: args) = .illegal .reservedOpcode 1) ∧
  (∀ r ∈ opTable, ∀ (w0 : Word) (args : List Word),
    opcodeField w0 = opcodeField r.fixed → r.words ≤ args.length + 1 → w0 &&& r.mask ≠ r.fixed →
      decode (w0 :: args) = .illegal .mustBeZero r.words)

/-- R68, R76: how many words a command takes depends on its opcode byte alone. -/
def Obligations.CommandLengthDependsOnTheOpcodeByteAlone : Prop :=
  ∀ (w0 w0' : Word) (args args' : List Word),
    opcodeField w0 = opcodeField w0' → args.length = args'.length →
      wordsTaken (decode (w0 :: args)) = wordsTaken (decode (w0' :: args'))

/-- R20, R68: once a whole command has arrived, words that arrive after it do not change it. -/
def Obligations.LaterWordsDoNotChangeACommand : Prop :=
  ∀ ws rest : List Word, decode ws ≠ .incomplete → decode (ws ++ rest) = decode ws

/-- R67: no header word selects two rows of the opcode table. -/
def Obligations.OpcodeRowsAreDisjoint : Prop :=
  ∀ (w0 : Word), ∀ r ∈ opTable, ∀ r' ∈ opTable,
    w0 &&& r.mask = r.fixed → w0 &&& r'.mask = r'.fixed → r = r'

/-- Words written out in the spec's programs P1, P2, P5 and vectors V-X4, V-X7, V-X12 decode as they are labelled. -/
def Obligations.SpecProgramWordsDecodeAsLabelled : Prop :=
  decode [0x00000001#32, 0x00020003#32, 0xFF0000FF#32] = .instr (.setPixel 0 3 2 0xFF0000FF#32) 3 ∧
  decode [0x00000003#32, 0x0000FFFF#32] = .instr (.getPixel 0 (-1) 0) 2 ∧
  decode [0x00800105#32] = .instr (.fadeOut 1 128) 1 ∧
  decode [0x00000110#32] = .instr (.startDrawing 1) 1 ∧
  decode [0x012C0020#32] = .instr (.init 300) 1 ∧
  decode [0x00001001#32, 0#32, 0#32] = .illegal .mustBeZero 3 ∧
  decode [0x01000005#32] = .illegal .mustBeZero 1 ∧
  decode [0x00000112#32] = .illegal .mustBeZero 1

/-! ### Steps -/

/-- R20, R68, R136: when port `p` is idle and its FIFO begins with a whole command `i`, the port's step takes the
command's words out and runs `exec i`; nothing else changes around it. -/
def Obligations.IdlePortStepRunsTheDecodedCommand : Prop :=
  ∀ (s : State) (p n : Nat) (alt : Bool) (q : Port) (i : Instr),
    s.nextTurn = .port p alt → s.ports[p]? = some q → q.st = .idle → decode q.inq = .instr i n →
      step s = exec i { s.dropTurn with
        actor := p, alt := alt
        ports := s.ports.modify p fun q => { q with inq := q.inq.drop n } }

/-- R20, R54: a port in `EXEC` or `HELD` takes the next step of that command and reads nothing from its FIFO. A port's
turn during the sequencer's steps is a no-step of the model (log entry 8). -/
def Obligations.BusyPortStepContinuesItsCommand : Prop :=
  ∀ (s : State) (p : Nat) (alt : Bool) (q : Port) (cmd : Instr),
    s.nextTurn = .port p alt → s.ports[p]? = some q →
    ((∃ progress count, q.st = .exec cmd progress count) ∨ ∃ cond, q.st = .held cmd cond) →
      step s = exec cmd { s.dropTurn with actor := p, alt := alt }

/-- R20, R68, R137: an illegal encoding responds `ILLEGAL` with data 0 and its words are consumed; a partial command
waits. In both cases nothing else changes. -/
def Obligations.IllegalEncodingIsConsumedAndPartialCommandWaits : Prop :=
  ∀ (s : State) (p : Nat) (alt : Bool) (q : Port),
    s.nextTurn = .port p alt → s.ports[p]? = some q → q.st = .idle →
      (∀ why n, decode q.inq = .illegal why n →
        step s = .next { s.dropTurn with
          actor := p, alt := alt
          ports := s.ports.modify p fun q =>
            ⟨q.inq.drop n, .idle, q.out ++ [⟨.illegal, 0⟩]⟩ }) ∧
      (decode q.inq = .incomplete → step s = .next { s.dropTurn with actor := p, alt := alt })

/-- R17, R20: the turns of the sequencer, the DMA engine and the host. One word or one response a turn is the model's
choice (log entry 10). -/
def Obligations.OtherAgentsTurnsRunTheirSteps : Prop :=
  ∀ s : State,
    (s.nextTurn = .sequencer → step s = sequencerStep s.dropTurn) ∧
    (s.nextTurn = .dma → step s = dmaStep s.dropTurn) ∧
    (∀ p w, s.nextTurn = .hostWrite p w →
      step s = .next { s.dropTurn with
        ports := s.ports.modify p fun q => { q with inq := q.inq ++ [w] } }) ∧
    (∀ p, s.nextTurn = .hostRead p →
      step s = .next { s.dropTurn with
        ports := s.ports.modify p fun q => { q with out := q.out.tail } })

/-- R39, R150: an external reset gives every piece of state its reset value, keeps the configuration, and `LAYER`,
`SCHED` and `PLANE` hold no value. The values of the registers R39 calls unspecified are the model's (log entry 6) and
not stated. -/
def Obligations.ExternalResetGivesTheResetValues : Prop :=
  ∀ s : State, s.nextTurn = .reset →
    ∃ t, step s = .next t ∧ t.cfg = s.cfg ∧
      t.drawable = List.replicate s.cfg.N true ∧ t.done = List.replicate s.cfg.N false ∧
      t.initState = .uninit ∧ t.brightness = 0 ∧ t.brightnessCap = BitVec.ofNat 16 (s.cfg.W - 2) ∧
      (∀ a, t.layer.read a = none) ∧ (∀ a, t.plane.read a = none) ∧ t.sched = [] ∧
      t.dmaRun = false ∧ t.dmaSlot = 0 ∧ t.dmaIdx = 0 ∧ t.seqOwner = none ∧
      t.ports = List.replicate s.cfg.nports ⟨[], .idle, []⟩

/-- R39, R40: the reset state of every admitted configuration meets the invariant. -/
def Obligations.ResetStateMeetsTheInvariant : Prop :=
  ∀ c : Config, c.Valid → BlockInv (State.resetWith c)

/-- R40, R134, R141: from every state that meets the invariant, whatever the next turn is, the step answers a next
state (no read of "no value", no other stop), and that state meets the invariant. -/
def Obligations.StepNeverStopsAndKeepsTheInvariant : Prop :=
  ∀ s : State, BlockInv s → ∃ t, step s = .next t ∧ BlockInv t

/-- No step changes the configuration (the parameters of R4 to R13 do not change while the block runs). The
configuration is a field of the model's state (log entry 3). -/
def Obligations.NoStepChangesTheConfiguration : Prop :=
  ∀ s t : State, step s = .next t → t.cfg = s.cfg

/-- R53, R70: a step of port `p` leaves every other port alone and appends at most one response to port `p`. -/
def Obligations.PortStepLeavesOtherPortsAndRespondsAtMostOnce : Prop :=
  ∀ (s t : State) (p : Nat) (alt : Bool), s.nextTurn = .port p alt → step s = .next t →
    (∀ q, q ≠ p → t.ports[q]? = s.ports[q]?) ∧
    (∀ old, s.ports[p]? = some old → ∃ new, t.ports[p]? = some new ∧
      (new.out = old.out ∨ (new.st = .idle ∧ ∃ r, new.out = old.out ++ [r])))

/-- R135, R136, R138, R140: the checks of a command's first step in their order, for every command. A refused command
changes nothing but its port's response, with data 0. -/
def Obligations.ChecksAnswerInTheirOrder : Prop :=
  ∀ (i : Instr) (s : State), s.actorState = .idle →
    (s.initState = .fatal → isReadReg i = false → exec i s = .next (s.respond .fatal 0)) ∧
    ((s.initState ≠ .fatal ∨ isReadReg i = true) → operandBad s.cfg i →
      exec i s = .next (s.respond .illegal 0)) ∧
    (isInit i = true → s.initState = .ready → exec i s = .next (s.respond .illegal 0)) ∧
    (needsReady i = true → s.initState = .uninit → ¬operandBad s.cfg i →
      exec i s = .next (s.respond .notReady 0))

/-- R120, R121, R136, R140: `INIT_STATE` changes only by reset or by a step of `INIT` from `UNINIT`. -/
def Obligations.InitStateChangesOnlyByInitOrReset : Prop :=
  ∀ s t : State, step s = .next t → t.initState ≠ s.initState →
    s.nextTurn = .reset ∨ (s.initState = .uninit ∧ ∃ b, nextCommand s = some (.init b))

/-- R140: from `FATAL`, until reset, no step changes the layers, schedule, planes, brightness registers or
`INIT_STATE`, and the DMA engine and the sequencer stay stopped. -/
def Obligations.FatalBlockKeepsItsStorageUntilReset : Prop :=
  ∀ s t : State, BlockInv s → s.initState = .fatal → s.nextTurn ≠ .reset → step s = .next t →
    t.initState = .fatal ∧ t.layer = s.layer ∧ t.plane = s.plane ∧ t.sched = s.sched ∧
    t.brightness = s.brightness ∧ t.brightnessCap = s.brightnessCap ∧ t.bus = s.bus ∧
    t.dmaRun = false ∧ t.seqOwner = none

/-! ### Pixel arithmetic -/

/-- R80(a) to (e). -/
def Obligations.ScaleProperties : Prop :=
  (∀ p : Pixel, scale 255 p = p) ∧
  (∀ p : Pixel, scale 0 p = 0) ∧
  (∀ f v : Nat, f ≤ 255 → sc f v ≤ v) ∧
  (∀ (f : Nat) (p : Pixel) (c : Channel), f ≤ 255 → ch (scale f p) c ≤ ch p c) ∧
  (∀ f f' v v' : Nat, f ≤ f' → v ≤ v' → sc f v ≤ sc f' v') ∧
  (∀ (f : Nat) (p : Pixel), f ≤ 255 → Premultiplied p → Premultiplied (scale f p))

/-- R78, R79: the two-lane form gives the same value as the per-channel form for every factor and every pixel. -/
def Obligations.LaneFormOfScaleAgrees : Prop :=
  ∀ (f : Nat) (p : Pixel), f ≤ 255 → scaleLanes f p = scale f p

/-- R81, R82, R83: `over` never goes below zero, wraps each channel on its own, and keeps premultiplied pixels
premultiplied, with no wrap when the source is premultiplied. -/
def Obligations.OverWrapsPerChannelAndKeepsPremultiplied : Prop :=
  (∀ (dst src : Pixel) (c : Channel),
    (overChannel dst src c : Int) = ch dst c + ch src c - sc (ch src .A) (ch dst c) ∧
    ch src c ≤ overChannel dst src c ∧ overChannel dst src c ≤ 510 ∧
    ch (blendOver dst src) c = overChannel dst src c % 256) ∧
  (∀ (dst src : Pixel) (c : Channel), Premultiplied src → overChannel dst src c ≤ 255) ∧
  (∀ dst src : Pixel, Premultiplied dst → Premultiplied src → Premultiplied (blendOver dst src)) ∧
  blendOver 0xFFFFFFFF#32 0x00FF0000#32 = 0xFFFEFFFF#32

/-- R84(a) to (e): the identities of `over`, its failure to commute and its failure to associate. -/
def Obligations.OverIdentities : Prop :=
  (∀ dst src : Pixel, Premultiplied dst → Premultiplied src →
    (ch src .A = 255 → blendOver dst src = src) ∧
    blendOver dst 0 = dst ∧
    blendOver 0 src = src) ∧
  blendOver 0xFFFF0000#32 0xFF0000FF#32 = 0xFF0000FF#32 ∧
  blendOver 0xFF0000FF#32 0xFFFF0000#32 = 0xFFFF0000#32 ∧
  (let a := 0x34010114#32
   let b := 0x0D00080A#32
   let c := 0xC36C37AF#32
   Premultiplied a ∧ Premultiplied b ∧ Premultiplied c ∧
   blendOver (blendOver a b) c = 0xD26D3AB6#32 ∧ blendOver a (blendOver b c) = 0xD36D3AB7#32)

/-- R86: the display colour is the gamma table at the three colour channels, and the alpha is not read. -/
def Obligations.GammaMapsTheColorChannelsAndDropsAlpha : Prop :=
  (∀ (c : Config) (acc : Pixel),
    (gammaRGB c acc).extractLsb' 0 8 = gammaAt c (ch acc .R) ∧
    (gammaRGB c acc).extractLsb' 8 8 = gammaAt c (ch acc .G) ∧
    (gammaRGB c acc).extractLsb' 16 8 = gammaAt c (ch acc .B)) ∧
  (∀ (c : Config) (r g b a a' : Nat), gammaRGB c (pack r g b a) = gammaRGB c (pack r g b a'))

/-- R97: for a factor of at least 1 every non-zero channel drops with each call and 255 calls reach zero; opaque white
with factor 10 reaches zero at the 73rd call and not before. -/
def Obligations.FadingReachesZero : Prop :=
  (∀ (factor : Nat) (p : Pixel) (c : Channel), 1 ≤ factor → factor ≤ 255 → 0 < ch p c →
    ch (scale (255 - factor) p) c < ch p c) ∧
  (∀ (factor : Nat) (p : Pixel), 1 ≤ factor → factor ≤ 255 → (scale (255 - factor))^[255] p = 0) ∧
  (scale 245)^[72] 0xFFFFFFFF#32 ≠ 0 ∧ (scale 245)^[73] 0xFFFFFFFF#32 = 0

/-- R22, R83, R85: if the layers are premultiplied and the next command's colour is, the layers stay premultiplied. -/
def Obligations.PremultipliedLayersStayPremultiplied : Prop :=
  ∀ s t : State, BlockInv s → LayersPremultiplied s →
    (∀ i color, nextCommand s = some i → colorOperand i = some color → Premultiplied color) →
    step s = .next t → LayersPremultiplied t

/-! ### Layer storage -/

/-- R42, R43, R46: distinct pixels and distinct plane words are distinct elements, and the byte views are
little-endian. The element numbers are the model's (log entry 4). -/
def Obligations.ElementsAreDistinctAndBytesLittleEndian : Prop :=
  (∀ (c : Config) (l l' i i' : Nat), i < c.pixels → i' < c.pixels →
    layerAddr c l i = layerAddr c l' i' → l = l' ∧ i = i') ∧
  (∀ (c : Config) (k k' j j' : Nat), j < c.planeWords → j' < c.planeWords →
    planeAddr c k j = planeAddr c k' j' → k = k' ∧ j = j') ∧
  (∀ (s : State) (l i : Nat) (p : Pixel), s.readLayer l i = some p →
    s.layerByte l (4 * i) = some (BitVec.ofNat 8 (ch p .R)) ∧
    s.layerByte l (4 * i + 1) = some (BitVec.ofNat 8 (ch p .G)) ∧
    s.layerByte l (4 * i + 2) = some (BitVec.ofNat 8 (ch p .B)) ∧
    s.layerByte l (4 * i + 3) = some (BitVec.ofNat 8 (ch p .A))) ∧
  (∀ (s : State) (k j : Nat) (w : DmaWord), s.readPlane k j = some w →
    s.planeByte k (2 * j) = some (w.extractLsb' 0 8) ∧ s.planeByte k (2 * j + 1) = some (w.extractLsb' 8 8))

/-- R22, R47, R54, R91, R92, R95, R96, R98: a step changes the layers only where it is a step of a command that writes them, or
a reset. Every step but `INIT`'s and a reset's leaves every element as it was, but for the one its command names: the pixel in
bounds of `SET_PIXEL` and `SET_PIXEL_OVER`, the element at which `SET_ALL`, `FADE_OUT` or `SHIFT_UP` stands. -/
def Obligations.LayerStepsWriteAtMostOneElement : Prop :=
  ∀ s t : State, BlockInv s → step s = .next t →
    (t.layer ≠ s.layer →
      s.nextTurn = .reset ∨ ∃ i, nextCommand s = some i ∧ writesLayer i = true) ∧
    (s.nextTurn ≠ .reset → (∀ b, nextCommand s ≠ some (.init b)) →
      ∀ a, writtenElement s ≠ some a → t.layer.read a = s.layer.read a)

/-! ### Framebuffer commands -/

/-- R91: `SET_PIXEL` writes the one element in bounds, does nothing out of bounds, responds `OK`, and leaves all else.
-/
def Obligations.SetPixelWritesTheElementInBounds : Prop :=
  ∀ (s : State) (l : Nat) (x y : Int) (color : Pixel),
    s.initState = .ready → l < s.cfg.N → s.layer.wf →
    ∃ t, exec (.setPixel l x y color) s = .next t ∧
      t = { s with layer := t.layer, ports := t.ports } ∧ Responded s t .ok 0 ∧
      (inb s.cfg x y → ∀ a, t.layer.read a =
        if a = layerAddr s.cfg l (x.toNat + y.toNat * s.cfg.W) then some color else s.layer.read a) ∧
      (¬inb s.cfg x y → ∀ a, t.layer.read a = s.layer.read a)

/-- R92: `SET_PIXEL_OVER` blends the colour over the one element in bounds, does nothing out of bounds, responds `OK`,
and leaves all else. -/
def Obligations.SetPixelOverBlendsTheElementInBounds : Prop :=
  ∀ (s : State) (l : Nat) (x y : Int) (color : Pixel),
    s.initState = .ready → l < s.cfg.N → s.layer.wf →
    (∀ p, inb s.cfg x y → s.readLayer l (x.toNat + y.toNat * s.cfg.W) = some p →
      ∃ t, exec (.setPixelOver l x y color) s = .next t ∧
        t = { s with layer := t.layer, ports := t.ports } ∧ Responded s t .ok 0 ∧
        ∀ a, t.layer.read a =
          if a = layerAddr s.cfg l (x.toNat + y.toNat * s.cfg.W) then some (blendOver p color)
          else s.layer.read a) ∧
    (¬inb s.cfg x y →
      ∃ t, exec (.setPixelOver l x y color) s = .next t ∧
        t = { s with ports := t.ports } ∧ Responded s t .ok 0)

/-- R93, R94: `GET_PIXEL` responds with the stored pixel in bounds, and out of bounds with 0, the wrapped or the
clamped pixel as `GETPIXEL_OOB` says; it leaves all else. -/
def Obligations.GetPixelReadsByThePolicy : Prop :=
  ∀ (s : State) (l : Nat) (x y : Int), BlockInv s → s.initState = .ready → l < s.cfg.N →
    fitsCoord x → fitsCoord y →
    ∃ t v, exec (.getPixel l x y) s = .next t ∧
      t = { s with ports := t.ports } ∧ Responded s t .ok v ∧
      (inb s.cfg x y → s.readLayer l (x.toNat + y.toNat * s.cfg.W) = some v) ∧
      (¬inb s.cfg x y → s.cfg.oob = .zero → v = 0) ∧
      (¬inb s.cfg x y → s.cfg.oob = .wrap →
        s.readLayer l ((x % s.cfg.W).toNat + (y % s.cfg.H).toNat * s.cfg.W) = some v) ∧
      (¬inb s.cfg x y → s.cfg.oob = .clamp →
        s.readLayer l ((min (max x 0) ((s.cfg.W : Int) - 1)).toNat
          + (min (max y 0) ((s.cfg.H : Int) - 1)).toNat * s.cfg.W) = some v)

/-- R99, R100, R101: `COMPOSITE` completes at every coordinate, responds with the display colour of the position, bits
31:24 zero, and leaves all else; with every layer transparent it responds 0. -/
def Obligations.CompositeRespondsTheDisplayColor : Prop :=
  ∀ (s : State) (x y : Int), BlockInv s → s.initState = .ready → fitsCoord x → fitsCoord y →
    ∃ (t : State) (f : Nat → Pixel), exec (.composite x y) s = .next t ∧
      t = { s with ports := t.ports } ∧
      (∀ l < s.cfg.N, s.readPix l x y = some (f l)) ∧
      Responded s t .ok
        ((gammaRGB s.cfg ((List.range s.cfg.N).foldl (fun acc l => blendOver acc (f l)) 0)).setWidth 32) ∧
      ((∀ l < s.cfg.N, f l = 0) → Responded s t .ok 0)

/-- R54, R95: a step of `SET_ALL` writes the colour to the element its port stands at, and goes on or responds. The
response in the last element's step is the model's reading (log entry 7). -/
def Obligations.SetAllStepWritesOneElement : Prop :=
  ∀ (s : State) (l : Nat) (color : Pixel), s.initState = .ready → l < s.cfg.N → s.layer.wf →
    ∃ t, exec (.setAll l color) s = .next t ∧
      t = { s with layer := t.layer, ports := t.ports } ∧
      BulkLeft s t (.setAll l color) (bulkAt s).1 (bulkAt s).2 0 ∧
      ∀ a, t.layer.read a =
        if a = layerAddr s.cfg l (bulkAt s).1 then some color else s.layer.read a

/-- R54, R96: a step of `FADE_OUT` scales the element its port stands at when it is not zero, counts it before
scaling, and goes on or responds with the count. The response in the last element's step is the model's reading (log
entry 7). -/
def Obligations.FadeOutStepScalesAndCountsOneElement : Prop :=
  ∀ (s : State) (l factor : Nat) (p : Pixel), s.initState = .ready → l < s.cfg.N → s.layer.wf →
    s.readLayer l (bulkAt s).1 = some p →
    ∃ t, exec (.fadeOut l factor) s = .next t ∧
      t = { s with layer := t.layer, ports := t.ports } ∧
      (p ≠ 0 →
        BulkLeft s t (.fadeOut l factor) (bulkAt s).1 ((bulkAt s).2 + 1) (BitVec.ofNat 32 ((bulkAt s).2 + 1)) ∧
        ∀ a, t.layer.read a =
          if a = layerAddr s.cfg l (bulkAt s).1 then some (scale (255 - factor) p) else s.layer.read a) ∧
      (p = 0 →
        BulkLeft s t (.fadeOut l factor) (bulkAt s).1 (bulkAt s).2 (BitVec.ofNat 32 (bulkAt s).2) ∧
        ∀ a, t.layer.read a = s.layer.read a)

/-- R54, R98: a step of `SHIFT_UP` copies to the element its port stands at the element `n` rows below, or zero when
there is none, and goes on or responds. The response in the last element's step is the model's reading (log entry 7).
-/
def Obligations.ShiftUpStepMovesOneElement : Prop :=
  ∀ (s : State) (l n : Nat), s.initState = .ready → l < s.cfg.N → s.layer.wf →
    (∀ p, (bulkAt s).1 / s.cfg.W + n < s.cfg.H → s.readLayer l ((bulkAt s).1 + n * s.cfg.W) = some p →
      ∃ t, exec (.shiftUp l n) s = .next t ∧
        t = { s with layer := t.layer, ports := t.ports } ∧
        BulkLeft s t (.shiftUp l n) (bulkAt s).1 (bulkAt s).2 0 ∧
        ∀ a, t.layer.read a =
          if a = layerAddr s.cfg l (bulkAt s).1 then some p else s.layer.read a) ∧
    (¬((bulkAt s).1 / s.cfg.W + n < s.cfg.H) →
      ∃ t, exec (.shiftUp l n) s = .next t ∧
        t = { s with layer := t.layer, ports := t.ports } ∧
        BulkLeft s t (.shiftUp l n) (bulkAt s).1 (bulkAt s).2 0 ∧
        ∀ a, t.layer.read a =
          if a = layerAddr s.cfg l (bulkAt s).1 then some 0 else s.layer.read a)

/-- R54, R95: a whole `SET_ALL`, run by its port alone for `W*H` steps, fills its layer, leaves the other layers and
responds once. The turns are the model's agenda, and the response in the last element's step is its reading (log
entries 1, 7). -/
def Obligations.SetAllRunFillsTheLayer : Prop :=
  ∀ (s : State) (p l : Nat) (color : Pixel) (ws : List Word) (out : List Response) (rest : List Turn),
    BlockInv s → s.initState = .ready → l < s.cfg.N →
    s.agenda = soloAgenda p s.cfg.pixels rest →
    PortAt s p (encode (.setAll l color) ++ ws) out →
    ∃ t, core.run s.cfg.pixels s = .next t ∧
      PortAt t p ws (out ++ [⟨.ok, 0⟩]) ∧ (∀ q, q ≠ p → t.ports[q]? = s.ports[q]?) ∧
      t = { s with agenda := rest, actor := p, alt := false, ports := t.ports, layer := t.layer } ∧
      (∀ i < s.cfg.pixels, t.readLayer l i = some color) ∧
      (∀ l' i, l' ≠ l → i < s.cfg.pixels → t.readLayer l' i = s.readLayer l' i)

/-- R54, R96: a whole `FADE_OUT`, run by its port alone, scales every non-zero pixel of its layer, responds with how
many were non-zero before the call, and leaves the other layers. The turns are the model's agenda, and the response in
the last element's step is its reading (log entries 1, 7). -/
def Obligations.FadeOutRunScalesTheLayerAndCounts : Prop :=
  ∀ (s : State) (p l factor : Nat) (ws : List Word) (out : List Response) (rest : List Turn),
    BlockInv s → s.initState = .ready → l < s.cfg.N → factor ≤ 255 →
    s.agenda = soloAgenda p s.cfg.pixels rest →
    PortAt s p (encode (.fadeOut l factor) ++ ws) out →
    ∃ t, core.run s.cfg.pixels s = .next t ∧
      PortAt t p ws (out ++ [⟨.ok, BitVec.ofNat 32
        ((List.range s.cfg.pixels).countP fun i => decide (s.readLayer l i ≠ some 0))⟩]) ∧
      (∀ q, q ≠ p → t.ports[q]? = s.ports[q]?) ∧
      t = { s with agenda := rest, actor := p, alt := false, ports := t.ports, layer := t.layer } ∧
      (∀ i < s.cfg.pixels, t.readLayer l i =
        (s.readLayer l i).map fun p => if p = 0 then 0 else scale (255 - factor) p) ∧
      (∀ l' i, l' ≠ l → i < s.cfg.pixels → t.readLayer l' i = s.readLayer l' i)

/-- R54, R98: a whole `SHIFT_UP`, run by its port alone, moves the rows up by `n`, zero-fills the bottom rows (the
whole layer for `n >= H`), leaves the other layers and responds once. The turns are the model's agenda, and the
response in the last element's step is its reading (log entries 1, 7). -/
def Obligations.ShiftUpRunScrollsTheLayer : Prop :=
  ∀ (s : State) (p l n : Nat) (ws : List Word) (out : List Response) (rest : List Turn),
    BlockInv s → s.initState = .ready → l < s.cfg.N → fitsImm n →
    s.agenda = soloAgenda p s.cfg.pixels rest →
    PortAt s p (encode (.shiftUp l n) ++ ws) out →
    ∃ t, core.run s.cfg.pixels s = .next t ∧
      PortAt t p ws (out ++ [⟨.ok, 0⟩]) ∧ (∀ q, q ≠ p → t.ports[q]? = s.ports[q]?) ∧
      t = { s with agenda := rest, actor := p, alt := false, ports := t.ports, layer := t.layer } ∧
      (∀ i < s.cfg.pixels, t.readLayer l i =
        if i / s.cfg.W + n < s.cfg.H then s.readLayer l (i + n * s.cfg.W) else some 0) ∧
      (∀ l' i, l' ≠ l → i < s.cfg.pixels → t.readLayer l' i = s.readLayer l' i)

/-! ### Barrier commands -/

/-- R103, R111: `START_DRAWING` on a drawable layer clears `DRAWABLE[l]` and responds `OK`; otherwise it ends with
`TIMEOUT` or holds. First step and held step alike; nothing else changes. The choice between timeout and holding is
the model's `alt` (log entry 2). -/
def Obligations.StartDrawingTakesTheLayerOrWaits : Prop :=
  ∀ (s : State) (l : Nat), l < s.cfg.N →
    ((s.actorState = .idle ∧ s.initState ≠ .fatal) ∨ ∃ i c, s.actorState = .held i c) →
    (s.drawableAt l = true →
      ∃ t, exec (.startDrawing l) s = .next t ∧
        t = { s with drawable := t.drawable, ports := t.ports } ∧ Responded s t .ok 0 ∧
        ∀ l', t.drawableAt l' = if l' = l then false else s.drawableAt l') ∧
    (s.drawableAt l = false → s.alt = true →
      ∃ t, exec (.startDrawing l) s = .next t ∧ t = { s with ports := t.ports } ∧ Responded s t .timeout 0) ∧
    (s.drawableAt l = false → s.alt = false →
      ∃ t, exec (.startDrawing l) s = .next t ∧ t = { s with ports := t.ports } ∧
        PortStateSet s t (.held (.startDrawing l) (.drawable l)))

/-- R104: `DONE_DRAWING` sets `DONE[l]`, responds `OK`, never blocks, and leaves all else. -/
def Obligations.DoneDrawingSetsTheDoneFlag : Prop :=
  ∀ (s : State) (l : Nat), l < s.cfg.N → s.initState ≠ .fatal → s.done.length = s.cfg.N →
    ∃ t, exec (.doneDrawing l) s = .next t ∧
      t = { s with done := t.done, ports := t.ports } ∧ Responded s t .ok 0 ∧
      ∀ l', t.doneAt l' = if l' = l then true else s.doneAt l'

/-- R105, R106, R111: `WAIT_DRAWING_DONE` with every layer done clears every `DONE[l]` and responds `OK`; otherwise it
ends with `TIMEOUT`, clearing the flags when `WDD_CLEAR_ON_TIMEOUT`, or holds. Nothing else changes. The choice
between timeout and holding is the model's `alt` (log entry 2). -/
def Obligations.WaitDrawingDoneTestsAndClears : Prop :=
  ∀ s : State,
    ((s.actorState = .idle ∧ s.initState ≠ .fatal) ∨ ∃ i c, s.actorState = .held i c) →
    ((∀ l < s.cfg.N, s.doneAt l = true) →
      ∃ t, exec .waitDrawingDone s = .next t ∧
        t = { s with done := t.done, ports := t.ports } ∧ Responded s t .ok 0 ∧
        ∀ l < s.cfg.N, t.doneAt l = false) ∧
    ((∃ l < s.cfg.N, s.doneAt l = false) → s.alt = true →
      ∃ t, exec .waitDrawingDone s = .next t ∧
        t = { s with done := t.done, ports := t.ports } ∧ Responded s t .timeout 0 ∧
        (s.cfg.wddClear = true → ∀ l < s.cfg.N, t.doneAt l = false) ∧
        (s.cfg.wddClear = false → t.done = s.done)) ∧
    ((∃ l < s.cfg.N, s.doneAt l = false) → s.alt = false →
      ∃ t, exec .waitDrawingDone s = .next t ∧ t = { s with ports := t.ports } ∧
        PortStateSet s t (.held .waitDrawingDone .allDone))

/-- R107: `DONE_UPDATING` makes every layer drawable, responds `OK`, and leaves `DONE` and all else. -/
def Obligations.DoneUpdatingReleasesEveryLayer : Prop :=
  ∀ s : State, s.initState ≠ .fatal →
    ∃ t, exec .doneUpdating s = .next t ∧
      t = { s with drawable := t.drawable, ports := t.ports } ∧ Responded s t .ok 0 ∧
      ∀ l < s.cfg.N, t.drawableAt l = true

/-- R57, R103: of two idle ports that issue `START_DRAWING l` on a drawable layer, the first to step gets `OK` and the
other holds. The turns are the model's agenda (log entry 1). -/
def Obligations.RacingProducersGetTheLayerOnce : Prop :=
  ∀ (s : State) (p q l : Nat) (ws ws' : List Word) (out out' : List Response) (rest : List Turn),
    p ≠ q → BlockInv s → s.initState ≠ .fatal → l < s.cfg.N → s.drawableAt l = true →
    PortAt s p (encode (.startDrawing l) ++ ws) out →
    PortAt s q (encode (.startDrawing l) ++ ws') out' →
    s.agenda = .port p false :: .port q false :: rest →
    ∃ t, core.run 2 s = .next t ∧
      PortAt t p ws (out ++ [⟨.ok, 0⟩]) ∧
      t.ports[q]? = some ⟨ws', .held (.startDrawing l) (.drawable l), out'⟩ ∧
      t.drawableAt l = false

/-- R23, R103, R104, R105, R107, R124: which steps change the barrier flags. `DRAWABLE[l]` rises only by
`DONE_UPDATING`, the release of `UPDATE_FRAME` or a reset and falls only by `START_DRAWING l`; `DONE[l]` rises only by
`DONE_DRAWING l` and falls only by a compositor's wait or a reset. -/
def Obligations.BarrierFlagsChangeOnlyByTheirCommands : Prop :=
  ∀ (s t : State) (l : Nat), BlockInv s → step s = .next t →
    (s.drawableAt l = false → t.drawableAt l = true →
      nextCommand s = some .doneUpdating ∨ (s.nextTurn = .sequencer ∧ s.seqPhase = .release) ∨
        s.nextTurn = .reset) ∧
    (s.drawableAt l = true → t.drawableAt l = false → nextCommand s = some (.startDrawing l)) ∧
    (s.doneAt l = false → t.doneAt l = true → nextCommand s = some (.doneDrawing l)) ∧
    (s.doneAt l = true → t.doneAt l = false →
      nextCommand s = some .waitDrawingDone ∨ nextCommand s = some .updateFrame ∨ s.nextTurn = .reset)

/-- R56, R103, R126: while the sequencer encodes or is about to release and no layer is drawable, no step but the
release itself, a `DONE_UPDATING` or a reset makes a layer drawable, ends the frame, or lets a `START_DRAWING` respond
`OK`. -/
def Obligations.NoProducerStartsWhileAFrameIsEncoded : Prop :=
  ∀ s t : State, BlockInv s → s.seqOwner ≠ none → s.seqPhase ≠ .wait → (∀ l < s.cfg.N, s.drawableAt l = false) →
    step s = .next t → s.nextTurn ≠ .reset → nextCommand s ≠ some .doneUpdating →
    ¬(s.nextTurn = .sequencer ∧ s.seqPhase = .release) →
      t.seqOwner = s.seqOwner ∧ t.seqPhase ≠ .wait ∧ (∀ l < t.cfg.N, t.drawableAt l = false) ∧
      (∀ p alt l old new, s.nextTurn = .port p alt → nextCommand s = some (.startDrawing l) →
        s.ports[p]? = some old → t.ports[p]? = some new →
        new.out = old.out ∨ ∃ code, code ≠ .ok ∧ new.out = old.out ++ [⟨code, 0⟩])

/-- R57, R111: a port that holds on a barrier wait leaves `HELD` with its next step when that step's timeout is due.
That a timeout is due is the model's `alt` (log entry 2). -/
def Obligations.HeldBarrierWaitEndsWithItsTimeout : Prop :=
  ∀ (s : State) (p : Nat) (cmd : Instr) (cond : Cond),
    BlockInv s → s.nextTurn = .port p true → s.portState p = .held cmd cond → cond ≠ .seqFree →
    ∃ t, step s = .next t ∧
      (t.portState p = .idle ∨ (cmd = .updateFrame ∧ t.portState p = .exec .updateFrame 0 0))

/-! ### Panel driver -/

/-- R115: the schedules for `K` = 1 to 6, the recursion, and the properties (a) to (f). -/
def Obligations.ScheduleIsTheInterleavedOne : Prop :=
  buildSchedule 1 = [0] ∧ buildSchedule 2 = [0, 1, 1] ∧ buildSchedule 3 = [0, 1, 2, 2, 1, 2, 2] ∧
  buildSchedule 4 = [0, 1, 2, 3, 3, 2, 3, 3, 1, 2, 3, 3, 2, 3, 3] ∧
  buildSchedule 5 = [0, 1, 2, 3, 4, 4, 3, 4, 4, 2, 3, 4, 4, 3, 4, 4] ++ [1, 2, 3, 4, 4, 3, 4, 4, 2, 3, 4, 4, 3, 4, 4] ∧
  buildSchedule 6 =
    [0, 1, 2, 3, 4, 5, 5, 4, 5, 5, 3, 4, 5, 5, 4, 5, 5, 2, 3, 4, 5, 5, 4, 5, 5, 3, 4, 5, 5, 4, 5, 5]
      ++ [1, 2, 3, 4, 5, 5, 4, 5, 5, 3, 4, 5, 5, 4, 5, 5, 2, 3, 4, 5, 5, 4, 5, 5, 3, 4, 5, 5, 4, 5, 5] ∧
  (∀ K, 2 ≤ K → K ≤ 8 → buildSchedule K =
    0 :: (buildSchedule (K - 1)).map (· + 1) ++ (buildSchedule (K - 1)).map (· + 1)) ∧
  (∀ K, 1 ≤ K → K ≤ 8 →
    (buildSchedule K).length = 2 ^ K - 1 ∧
    (∀ k < K, (buildSchedule K).count k = 2 ^ k) ∧
    (buildSchedule K)[0]? = some 0 ∧
    (∀ i k, ¬((buildSchedule K)[i]? = some k ∧ (buildSchedule K)[i + 1]? = some k ∧
      (buildSchedule K)[i + 2]? = some k))) ∧
  (∀ K, 2 ≤ K → K ≤ 8 →
    (∀ i k, (buildSchedule K)[i]? = some k → (buildSchedule K)[i + 1]? = some k → k = K - 1) ∧
    (buildSchedule K)[2 ^ K - 2]? = some (K - 1) ∧ K - 1 ≠ 0)

/-- R116: the OE window of brightness `b` is `b` columns wide and centred, one column left of centre when `W - b` is
odd; for `b <= W-2` columns 0 and `W-1` are blanked, and `b = 0` blanks every column. -/
def Obligations.OeWindowIsCentredAndAsWideAsTheBrightness : Prop :=
  ∀ W b : Nat, b ≤ W →
    oeStart W b = (W - b) / 2 ∧ oeStop W b = oeStart W b + b ∧
    (∀ x, blanked W x b ↔ ¬(oeStart W b ≤ x ∧ x < oeStop W b)) ∧
    ((List.range W).filter fun x => decide (¬blanked W x b)).length = b ∧
    (W - oeStop W b = oeStart W b ∨ W - oeStop W b = oeStart W b + 1) ∧
    ((W - b) % 2 = 1 → W - oeStop W b = oeStart W b + 1) ∧
    (2 ≤ W → b ≤ W - 2 → 1 ≤ oeStart W b ∧ oeStop W b ≤ W - 1 ∧ blanked W 0 b ∧ blanked W (W - 1) b) ∧
    (b = 0 → ∀ x, blanked W x b)

/-- R71, R72, R117, R118: every bit of a DMA word. -/
def Obligations.EncodedDmaWordHasExactlyItsBits : Prop :=
  ∀ (c : Config) (y x k b : Nat) (c1 c2 : Color), c.Valid →
    let w := encodeWord c y x c1 c2 k b
    let q := 8 - c.K + k
    w.getLsbD c.bitR1 = c1.getLsbD q ∧ w.getLsbD c.bitG1 = c1.getLsbD (8 + q) ∧
    w.getLsbD c.bitB1 = c1.getLsbD (16 + q) ∧
    w.getLsbD c.bitR2 = c2.getLsbD q ∧ w.getLsbD c.bitG2 = c2.getLsbD (8 + q) ∧
    w.getLsbD c.bitB2 = c2.getLsbD (16 + q) ∧
    (∀ j < c.L, w.getLsbD (c.bitAddr0 + j) = y.testBit j) ∧
    w.getLsbD c.bitLat = decide (x = c.W - 1) ∧
    w.getLsbD c.bitOe = decide (blanked c.W x b) ∧
    (∀ i, i ∉ c.bitPositions → w.getLsbD i = false)

/-- R114, R118, R120, R140: a successful `INIT` zero-fills the layers, builds the schedule, clamps the brightness,
sets the cap, writes blank planes and starts the DMA engine; a failing one only sets `FATAL`. The barrier flags and
all else stay. Which outcome is taken is the model's `alt` (log entry 2). -/
def Obligations.InitBuildsTheBlockOrFails : Prop :=
  ∀ (s : State) (b : Nat), s.cfg.Valid → s.initState = .uninit →
    (¬(s.cfg.allocCanFail = true ∧ s.alt = true) →
      ∃ t, exec (.init b) s = .next t ∧
        t = { s with
          layer := t.layer, sched := buildSchedule s.cfg.K, plane := t.plane
          brightness := t.brightness, brightnessCap := t.brightnessCap
          dmaRun := true, dmaSlot := 0, dmaIdx := 0, initState := .ready, ports := t.ports } ∧
        t.brightness.toNat = min b (s.cfg.W - 2) ∧ t.brightnessCap.toNat = s.cfg.W - 2 ∧
        (∀ l < s.cfg.N, ∀ i < s.cfg.pixels, t.readLayer l i = some 0) ∧
        (∀ k < s.cfg.K, ∀ j < s.cfg.planeWords, t.readPlane k j =
          some (encodeWord s.cfg (j / s.cfg.W) (j % s.cfg.W) 0 0 k (min b (s.cfg.W - 2)))) ∧
        Responded s t .ok 0) ∧
    (s.cfg.allocCanFail = true → s.alt = true →
      ∃ t, exec (.init b) s = .next t ∧
        t = { s with initState := .fatal, ports := t.ports } ∧ Responded s t .fatal 0)

/-- R25, R26, R122, R123: `SET_BRIGHTNESS` and `SET_BRIGHTNESS_CAP` store their operand clamped to `W-2`, respond with
the stored value, and leave all else, the planes among it. -/
def Obligations.BrightnessCommandsClampAndReport : Prop :=
  ∀ (s : State) (v : Nat), s.cfg.Valid → s.initState = .ready →
    (∃ t, exec (.setBrightness v) s = .next t ∧
      t = { s with brightness := t.brightness, ports := t.ports } ∧
      t.brightness.toNat = min v (s.cfg.W - 2) ∧ Responded s t .ok (BitVec.ofNat 32 (min v (s.cfg.W - 2)))) ∧
    (∃ t, exec (.setBrightnessCap v) s = .next t ∧
      t = { s with brightnessCap := t.brightnessCap, ports := t.ports } ∧
      t.brightnessCap.toNat = min v (s.cfg.W - 2) ∧ Responded s t .ok (BitVec.ofNat 32 (min v (s.cfg.W - 2))))

/-- R124, R126, R132: the port's steps of `UPDATE_FRAME`. It takes a free sequencer or holds without touching
anything; then it waits for every layer, and the completing step clears the done flags, samples the effective
brightness and starts the encode at row pair 0, column 0, which is this model's start position (log entry 16).
The choice between timeout and holding is the model's `alt` (log entry 2). -/
def Obligations.UpdateFrameAcquiresThenWaits : Prop :=
  ∀ s : State,
    (((s.actorState = .idle ∧ s.initState = .ready) ∨ ∃ i, s.actorState = .held i .seqFree) →
      (s.seqOwner = none →
        ∃ t, exec .updateFrame s = .next t ∧
          t = { s with seqOwner := some s.actor, seqPhase := .wait, ports := t.ports } ∧
          PortStateSet s t (.held .updateFrame .allDone)) ∧
      (s.seqOwner ≠ none →
        ∃ t, exec .updateFrame s = .next t ∧ t = { s with ports := t.ports } ∧
          PortStateSet s t (.held .updateFrame .seqFree))) ∧
    ((∃ i, s.actorState = .held i .allDone) →
      ((∀ l < s.cfg.N, s.doneAt l = true) →
        ∃ t, exec .updateFrame s = .next t ∧
          t = { s with
            done := t.done, ports := t.ports, seqTo := false, seqPhase := .encode, seqY := 0, seqX := 0
            seqB := min s.brightness.toNat s.brightnessCap.toNat } ∧
          (∀ l < s.cfg.N, t.doneAt l = false) ∧ PortStateSet s t (.exec .updateFrame 0 0)) ∧
      ((∃ l < s.cfg.N, s.doneAt l = false) → s.alt = true →
        ∃ t, exec .updateFrame s = .next t ∧
          t = { s with
            done := t.done, ports := t.ports, seqTo := true, seqPhase := .encode, seqY := 0, seqX := 0
            seqB := min s.brightness.toNat s.brightnessCap.toNat } ∧
          (s.cfg.wddClear = true → ∀ l < s.cfg.N, t.doneAt l = false) ∧
          (s.cfg.wddClear = false → t.done = s.done) ∧ PortStateSet s t (.exec .updateFrame 0 0)) ∧
      ((∃ l < s.cfg.N, s.doneAt l = false) → s.alt = false →
        ∃ t, exec .updateFrame s = .next t ∧ t = { s with ports := t.ports } ∧
          PortStateSet s t (.held .updateFrame .allDone)))

/-- R118, R119, R124, R125: an encode step writes the `K` words of its position from the display colours of the two
rows, changes no other plane word, and moves to the next column, the next row pair or the release phase; the release
step makes every layer drawable, frees the sequencer and responds `OK` or, after a timed-out wait, `TIMEOUT`. The
owner's `EXEC` progress is the model's (log entry 16). -/
def Obligations.SequencerEncodesOnePositionAndReleases : Prop :=
  ∀ (s : State) (p : Nat), BlockInv s → s.seqOwner = some p →
    (s.seqPhase = .encode →
      ∃ t c1 c2, sequencerStep s = .next t ∧
        s.compositeAt s.seqX s.seqY = some c1 ∧
        s.compositeAt s.seqX ((s.seqY : Int) + (s.cfg.H / 2 : Nat)) = some c2 ∧
        t = { s with
          plane := t.plane, ports := t.ports, seqX := t.seqX, seqY := t.seqY, seqPhase := t.seqPhase } ∧
        (∀ k < s.cfg.K, t.readPlane k (s.seqY * s.cfg.W + s.seqX) =
          some (encodeWord s.cfg s.seqY s.seqX c1 c2 k s.seqB)) ∧
        (∀ a, (∀ k < s.cfg.K, a ≠ planeAddr s.cfg k (s.seqY * s.cfg.W + s.seqX)) →
          t.plane.read a = s.plane.read a) ∧
        t.ports = s.ports.modify p (fun q =>
          { q with st := .exec .updateFrame (s.seqY * s.cfg.W + s.seqX + 1) 0 }) ∧
        (s.seqX + 1 < s.cfg.W → t.seqX = s.seqX + 1 ∧ t.seqY = s.seqY ∧ t.seqPhase = .encode) ∧
        (s.seqX + 1 = s.cfg.W → s.seqY + 1 < s.cfg.H / 2 →
          t.seqX = 0 ∧ t.seqY = s.seqY + 1 ∧ t.seqPhase = .encode) ∧
        (s.seqX + 1 = s.cfg.W → s.seqY + 1 = s.cfg.H / 2 → t.seqPhase = .release)) ∧
    (s.seqPhase = .release →
      ∃ t, sequencerStep s = .next t ∧
        t = { s with drawable := t.drawable, seqOwner := none, ports := t.ports } ∧
        (∀ l < s.cfg.N, t.drawableAt l = true) ∧
        t.ports = s.ports.modify p fun q => q.respond (if s.seqTo = true then .timeout else .ok) 0)

/-- R119, R124, R132, R139: a whole `UPDATE_FRAME` with no other agent stepping: `W*H/2 + 3` steps after it arrives,
every plane word is the encoding of the composited layers at the effective brightness, every layer is drawable, the
response is `OK` when every layer was done and `TIMEOUT` when the wait timed out, and the layers and all else stay.
The turns, and which agent takes which step, are the model's (log entries 1, 2, 8). -/
def Obligations.UpdateFrameRunEncodesTheWholeFrame : Prop :=
  ∀ (s : State) (p : Nat) (late : Bool) (ws : List Word) (out : List Response) (rest : List Turn),
    BlockInv s → s.initState = .ready → s.seqOwner = none →
    ((∀ l < s.cfg.N, s.doneAt l = true) ∨ late = true) →
    PortAt s p (encode .updateFrame ++ ws) out →
    s.agenda = .port p false :: .port p late :: (List.replicate (s.cfg.planeWords + 1) Turn.sequencer ++ rest) →
    ∃ t code, core.run (s.cfg.planeWords + 3) s = .next t ∧
      ((∀ l < s.cfg.N, s.doneAt l = true) → code = .ok ∧ ∀ l < s.cfg.N, t.doneAt l = false) ∧
      ((∃ l < s.cfg.N, s.doneAt l = false) → code = .timeout) ∧
      PortAt t p ws (out ++ [⟨code, 0⟩]) ∧ (∀ q, q ≠ p → t.ports[q]? = s.ports[q]?) ∧
      t = { s with
        agenda := rest, actor := p, alt := late, ports := t.ports, plane := t.plane
        drawable := t.drawable, done := t.done, seqPhase := t.seqPhase
        seqY := t.seqY, seqX := t.seqX, seqB := t.seqB, seqTo := t.seqTo } ∧
      (∀ l < s.cfg.N, t.drawableAt l = true) ∧
      (∀ y < s.cfg.H / 2, ∀ x < s.cfg.W, ∃ c1 c2,
        s.compositeAt x y = some c1 ∧ s.compositeAt x ((y : Int) + (s.cfg.H / 2 : Nat)) = some c2 ∧
        ∀ k < s.cfg.K, t.readPlane k (y * s.cfg.W + x) =
          some (encodeWord s.cfg y x c1 c2 k (min s.brightness.toNat s.brightnessCap.toNat)))

/-- R33, R127: `READ_REG` of a defined register responds with its value in every `INIT_STATE` and leaves all else. -/
def Obligations.ReadRegRespondsTheRegister : Prop :=
  ∀ (s : State) (r : Nat), r < 5 →
    ∃ t v, exec (.readReg r) s = .next t ∧ t = { s with ports := t.ports } ∧ Responded s t .ok v ∧
      (r = 0 → v = s.status) ∧ (r = 1 → v = BitVec.ofNat 32 s.brightness.toNat) ∧
      (r = 2 → v = BitVec.ofNat 32 s.brightnessCap.toNat) ∧
      (r = 3 → v = config0 s.cfg) ∧ (r = 4 → v = config1 s.cfg)

/-- R34, R35, R36: every bit of `STATUS`, and the values of `CONFIG0` and `CONFIG1`. -/
def Obligations.StatusAndConfigurationFields : Prop :=
  (∀ s : State,
    s.status.getLsbD 0 = decide (s.initState = .ready) ∧
    s.status.getLsbD 1 = decide (s.initState = .fatal) ∧
    s.status.getLsbD 2 = s.dmaRun ∧
    (∀ i, 3 ≤ i → i ≤ 7 → s.status.getLsbD i = false) ∧
    (∀ l, l < 8 → s.status.getLsbD (8 + l) = (decide (l < s.cfg.N) && s.drawableAt l)) ∧
    (∀ l, l < 8 → s.status.getLsbD (16 + l) = (decide (l < s.cfg.N) && s.doneAt l)) ∧
    (∀ i, 24 ≤ i → s.status.getLsbD i = false)) ∧
  (∀ c : Config, c.Valid →
    (config0 c).toNat = c.W + 2 ^ 16 * c.H ∧ (config1 c).toNat = c.N + 2 ^ 4 * c.K + 2 ^ 8 * c.L)

/-- R128, R129: the DMA engine is stopped while `DMA_RUN = 0`; otherwise its step emits the word at its position and
advances index, slot and wrap; nothing else changes. -/
def Obligations.DmaStepEmitsAndAdvances : Prop :=
  ∀ s : State, BlockInv s →
    (s.dmaRun = false → dmaStep s = .next s) ∧
    (s.dmaRun = true →
      ∃ k w, s.sched[s.dmaSlot]? = some k ∧ s.readPlane k s.dmaIdx = some w ∧
        dmaStep s = .next { s with
          bus := s.bus ++ [w]
          dmaIdx := if s.dmaIdx = s.cfg.W * s.cfg.H / 2 - 1 then 0 else s.dmaIdx + 1
          dmaSlot := if s.dmaIdx = s.cfg.W * s.cfg.H / 2 - 1 then (s.dmaSlot + 1) % (2 ^ s.cfg.K - 1)
            else s.dmaSlot })

/-- R114, R128: from slot 0, index 0 one schedule period of DMA steps emits, slot by slot, every word of the slot's
plane in index order, and returns to slot 0, index 0 with nothing else changed: the bus is periodic while the planes
are. The turns are the model's agenda (log entry 1). -/
def Obligations.DmaPeriodPlaysTheWholeSchedule : Prop :=
  ∀ (s : State) (rest : List Turn),
    BlockInv s → s.dmaRun = true → s.dmaSlot = 0 → s.dmaIdx = 0 →
    s.agenda = List.replicate ((2 ^ s.cfg.K - 1) * s.cfg.planeWords) Turn.dma ++ rest →
    ∃ words : List DmaWord,
      core.run ((2 ^ s.cfg.K - 1) * s.cfg.planeWords) s =
        .next { s with agenda := rest, bus := s.bus ++ words } ∧
      words.length = (2 ^ s.cfg.K - 1) * s.cfg.planeWords ∧
      ∀ slot < 2 ^ s.cfg.K - 1, ∀ j < s.cfg.planeWords, ∃ k,
        (buildSchedule s.cfg.K)[slot]? = some k ∧
          words[slot * s.cfg.planeWords + j]? = s.readPlane k j

/-- R115(b), R118, R130: in one schedule period a channel value `v` is lit in `v >> (8-K)` of the slots: its bit of
the slot's plane is set in exactly so many. -/
def Obligations.ScheduleLightsEachChannelByItsValue : Prop :=
  ∀ K v : Nat, 1 ≤ K → K ≤ 8 → v < 256 →
    (buildSchedule K).countP (fun k => v.testBit (8 - K + k)) = v >>> (8 - K)

/-- R25, R26, R27, R28, R30, R129, R132, R133: which steps other than a reset change the planes, the schedule, the
brightness registers, the frame's sampled brightness, `DMA_RUN` and the panel bus. -/
def Obligations.PanelStateChangesOnlyByItsWriters : Prop :=
  ∀ s t : State, BlockInv s → s.nextTurn ≠ .reset → step s = .next t →
    (t.plane ≠ s.plane →
      (s.nextTurn = .sequencer ∧ s.seqPhase = .encode) ∨ ∃ b, nextCommand s = some (.init b)) ∧
    (t.sched ≠ s.sched → ∃ b, nextCommand s = some (.init b)) ∧
    (t.brightness ≠ s.brightness →
      ∃ b, nextCommand s = some (.init b) ∨ nextCommand s = some (.setBrightness b)) ∧
    (t.brightnessCap ≠ s.brightnessCap →
      ∃ b, nextCommand s = some (.init b) ∨ nextCommand s = some (.setBrightnessCap b)) ∧
    (t.seqB ≠ s.seqB → nextCommand s = some .updateFrame ∧ s.seqPhase = .wait) ∧
    (s.dmaRun = true → t.dmaRun = true) ∧
    (s.dmaRun = false → t.dmaRun = true → ∃ b, nextCommand s = some (.init b)) ∧
    (t.bus ≠ s.bus → s.nextTurn = .dma)
end

