-- ==== Sys2Proof/Laws/State.lean ====
section
/-! SUPPORT. One lemma per field that an update of the state leaves or sets, and what the port operations do to the ports. -/

namespace Sys2Proof.Machine

variable (s : State)

/-! ### Element writes -/

@[simp] theorem writeLayer_cfg (l i v) : (s.writeLayer l i v).cfg = s.cfg := rfl
@[simp] theorem writeLayer_ports (l i v) : (s.writeLayer l i v).ports = s.ports := rfl
@[simp] theorem writeLayer_actor (l i v) : (s.writeLayer l i v).actor = s.actor := rfl
@[simp] theorem writeLayer_layer (l i v) :
    (s.writeLayer l i v).layer = s.layer.write (layerAddr s.cfg l i) v := rfl
@[simp] theorem writePlane_cfg (k j v) : (s.writePlane k j v).cfg = s.cfg := rfl
@[simp] theorem writePlane_ports (k j v) : (s.writePlane k j v).ports = s.ports := rfl
@[simp] theorem writePlane_plane (k j v) :
    (s.writePlane k j v).plane = s.plane.write (planeAddr s.cfg k j) v := rfl

/-! ### Ports -/

@[simp] theorem updPort_cfg (p f) : (s.updPort p f).cfg = s.cfg := rfl
@[simp] theorem updPort_agenda (p f) : (s.updPort p f).agenda = s.agenda := rfl
@[simp] theorem updPort_fresh (p f) : (s.updPort p f).fresh = s.fresh := rfl
@[simp] theorem updPort_actor (p f) : (s.updPort p f).actor = s.actor := rfl
@[simp] theorem updPort_alt (p f) : (s.updPort p f).alt = s.alt := rfl
@[simp] theorem updPort_ports (p f) : (s.updPort p f).ports = s.ports.modify p f := rfl
@[simp] theorem updPort_layer (p f) : (s.updPort p f).layer = s.layer := rfl
@[simp] theorem updPort_plane (p f) : (s.updPort p f).plane = s.plane := rfl
@[simp] theorem updPort_sched (p f) : (s.updPort p f).sched = s.sched := rfl
@[simp] theorem updPort_drawable (p f) : (s.updPort p f).drawable = s.drawable := rfl
@[simp] theorem updPort_done (p f) : (s.updPort p f).done = s.done := rfl
@[simp] theorem updPort_initState (p f) : (s.updPort p f).initState = s.initState := rfl
@[simp] theorem updPort_brightness (p f) : (s.updPort p f).brightness = s.brightness := rfl
@[simp] theorem updPort_brightnessCap (p f) : (s.updPort p f).brightnessCap = s.brightnessCap := rfl
@[simp] theorem updPort_dmaRun (p f) : (s.updPort p f).dmaRun = s.dmaRun := rfl
@[simp] theorem updPort_dmaSlot (p f) : (s.updPort p f).dmaSlot = s.dmaSlot := rfl
@[simp] theorem updPort_dmaIdx (p f) : (s.updPort p f).dmaIdx = s.dmaIdx := rfl
@[simp] theorem updPort_seqOwner (p f) : (s.updPort p f).seqOwner = s.seqOwner := rfl
@[simp] theorem updPort_seqPhase (p f) : (s.updPort p f).seqPhase = s.seqPhase := rfl
@[simp] theorem updPort_seqY (p f) : (s.updPort p f).seqY = s.seqY := rfl
@[simp] theorem updPort_seqX (p f) : (s.updPort p f).seqX = s.seqX := rfl
@[simp] theorem updPort_seqB (p f) : (s.updPort p f).seqB = s.seqB := rfl
@[simp] theorem updPort_seqTo (p f) : (s.updPort p f).seqTo = s.seqTo := rfl
@[simp] theorem updPort_bus (p f) : (s.updPort p f).bus = s.bus := rfl

theorem respond_eq (code data) :
    s.respond code data = s.updPort s.actor fun q => q.respond code data := rfl
theorem respondOn_eq (p code data) :
    s.respondOn p code data = s.updPort p fun q => q.respond code data := rfl
theorem hold_eq (cmd cond) :
    s.hold cmd cond = s.updPort s.actor fun q => { q with st := .held cmd cond } := rfl
theorem execOn_eq (p cmd n count) :
    s.execOn p cmd n count = s.updPort p fun q => { q with st := .exec cmd n count } := rfl

/-- `PORT_STATE` of a port after an update of any port. -/
theorem portState_updPort (p q : Nat) (f : Port → Port) :
    (s.updPort p f).portState q =
      if p = q then (match s.ports[q]? with | some r => (f r).st | none => .idle) else s.portState q := by
  unfold State.portState
  rw [updPort_ports, List.getElem?_modify]
  by_cases h : p = q <;> cases s.ports[q]? <;> simp [h]

@[simp] theorem actAs_cfg (p alt) : (s.actAs p alt).cfg = s.cfg := rfl
@[simp] theorem actAs_ports (p alt) : (s.actAs p alt).ports = s.ports := rfl
@[simp] theorem actAs_actor (p alt) : (s.actAs p alt).actor = p := rfl
@[simp] theorem actAs_alt (p alt) : (s.actAs p alt).alt = alt := rfl
@[simp] theorem actAs_agenda (p alt) : (s.actAs p alt).agenda = s.agenda := rfl

/-! ### Flags -/

@[simp] theorem setDrawable_drawable (l v) : (s.setDrawable l v).drawable = s.drawable.set l v := rfl
@[simp] theorem setDrawable_done (l v) : (s.setDrawable l v).done = s.done := rfl
@[simp] theorem setDone_done (l v) : (s.setDone l v).done = s.done.set l v := rfl
@[simp] theorem setDone_drawable (l v) : (s.setDone l v).drawable = s.drawable := rfl
@[simp] theorem releaseAll_drawable : s.releaseAll.drawable = List.replicate s.cfg.N true := rfl
@[simp] theorem releaseAll_done : s.releaseAll.done = s.done := rfl
@[simp] theorem clearDone_done : s.clearDone.done = List.replicate s.cfg.N false := rfl
@[simp] theorem clearDone_drawable : s.clearDone.drawable = s.drawable := rfl

/-! ### Turns -/

theorem nextTurn_cons {t : Turn} {rest : List Turn} (h : s.agenda = t :: rest) : s.nextTurn = t := by
  unfold State.nextTurn; rw [h]

theorem dropTurn_cons {t : Turn} {rest : List Turn} (h : s.agenda = t :: rest) :
    s.dropTurn = { s with agenda := rest } := by
  unfold State.dropTurn; rw [h]; rfl

@[simp] theorem dropTurn_cfg : s.dropTurn.cfg = s.cfg := rfl
@[simp] theorem dropTurn_ports : s.dropTurn.ports = s.ports := rfl
@[simp] theorem dropTurn_layer : s.dropTurn.layer = s.layer := rfl
@[simp] theorem dropTurn_plane : s.dropTurn.plane = s.plane := rfl
@[simp] theorem dropTurn_sched : s.dropTurn.sched = s.sched := rfl
@[simp] theorem dropTurn_drawable : s.dropTurn.drawable = s.drawable := rfl
@[simp] theorem dropTurn_done : s.dropTurn.done = s.done := rfl
@[simp] theorem dropTurn_initState : s.dropTurn.initState = s.initState := rfl
@[simp] theorem dropTurn_seqOwner : s.dropTurn.seqOwner = s.seqOwner := rfl
@[simp] theorem dropTurn_seqPhase : s.dropTurn.seqPhase = s.seqPhase := rfl
@[simp] theorem dropTurn_bus : s.dropTurn.bus = s.bus := rfl

end Sys2Proof.Machine
end

