-- ==== Sys2Proof/Laws/Commands.lean ====
section
/-! SUPPORT. What the shared operations of the commands can do, said once: the checks R136, the bulk steps R54, the barrier flags,
and the inversion of one step of a command. -/

namespace Sys2Proof.Machine

variable {s t : State}

/-! ### Checks -/

/-- A command that passes its checks runs (R136). -/
theorem checked_pass {needs ok run} (h : s.refusalCode needs ok = none) : s.checked needs ok run = run s := by
  simp [State.checked, h]

theorem refusalCode_ready (h : s.initState = .ready) : s.refusalCode .ready true = none := by
  simp [State.refusalCode, h]

theorem refusalCode_uninit (h : s.initState = .uninit) : s.refusalCode .uninit true = none := by
  simp [State.refusalCode, h]

theorem refusalCode_notFatal (h : s.initState ≠ .fatal) : s.refusalCode .notFatal true = none := by
  simp [State.refusalCode, h]

theorem layerOk_of_lt {l : Nat} (h : l < s.cfg.N) : s.layerOk l = true := by simp [State.layerOk, h]

/-- What passed checks say (R136). -/
theorem refusalCode_none {needs ok} (h : s.refusalCode needs ok = none) :
    (needs ≠ .nothing → s.initState ≠ .fatal) ∧ ok = true ∧ (needs = .ready → s.initState = .ready) ∧
      (needs = .uninit → s.initState = .uninit) := by
  unfold State.refusalCode at h
  split_ifs at h with a b c d
  cases hs : s.initState <;> cases needs <;> simp_all

/-- The first step of a command refuses with an error response or runs (R136). -/
theorem checked_next {needs ok run} (h : s.checked needs ok run = .next t) :
    (∃ code, t = s.respond code 0) ∨ (s.refusalCode needs ok = none ∧ run s = .next t) := by
  unfold State.checked at h
  cases e : s.refusalCode needs ok with
  | some c =>
    rw [e] at h
    exact .inl ⟨c, by simpa [State.errorResponse] using h.symm⟩
  | none =>
    rw [e] at h
    exact .inr ⟨rfl, h⟩

/-- A read of an element that answers. -/
theorem orNoValue_next {α : Type} {space : Space} {o : Option α} {k : α → Result} (h : orNoValue space o k = .next t) :
    ∃ v, o = some v ∧ k v = .next t := by
  cases o with
  | none => cases h
  | some v => exact ⟨v, rfl, h⟩

/-! ### Bulk steps -/

/-- One step of a bulk command treats the element it stands at, or refuses (R54). -/
theorem bulk_next {ok elem} (h : s.bulk ok elem = .next t) :
    (∃ code, t = s.respond code 0) ∨
      ((s.initState = .ready ∨ ∃ c n k, s.actorState = .exec c n k) ∧
        elem (bulkAt s).1 (bulkAt s).2 s = .next t) := by
  have first (h : s.checked .ready ok (elem 0 0) = .next t) :
      (∃ code, t = s.respond code 0) ∨ (s.initState = .ready ∧ elem 0 0 s = .next t) :=
    (checked_next h).imp_right fun h => ⟨(refusalCode_none h.1).2.2.1 rfl, h.2⟩
  cases hs : s.actorState with
  | exec c i count =>
    simp only [State.bulk, hs] at h
    exact .inr ⟨.inr ⟨c, i, count, rfl⟩, by simpa only [bulkAt, hs] using h⟩
  | idle =>
    simp only [State.bulk, hs] at h
    exact (first h).imp_right fun h => ⟨.inl h.1, by simpa only [bulkAt, hs] using h.2⟩
  | held c d =>
    simp only [State.bulk, hs] at h
    exact (first h).imp_right fun h => ⟨.inl h.1, by simpa only [bulkAt, hs] using h.2⟩

/-! ### What a step does to its own port -/

/-- A change of a port that a step of its command can make: the FIFO stays, and either nothing enters `PORT_OUT` or one
response does and the port is idle (R70). -/
def PortMove (f : Port → Port) : Prop :=
  ∀ q, (f q).inq = q.inq ∧ ((f q).out = q.out ∨ ((f q).st = .idle ∧ ∃ r, (f q).out = q.out ++ [r]))

/-- `t` is `u` with its acting port changed by a step of its command. -/
def Moved (u t : State) : Prop := t = u ∨ ∃ f, PortMove f ∧ t = u.updPort u.actor f

theorem moved_respond (code data) : Moved s (s.respond code data) :=
  .inr ⟨fun q => q.respond code data, fun _ => ⟨rfl, .inr ⟨rfl, _, rfl⟩⟩, rfl⟩

theorem moved_hold (cmd cond) : Moved s (s.hold cmd cond) :=
  .inr ⟨fun q => { q with st := .held cmd cond }, fun _ => ⟨rfl, .inl rfl⟩, rfl⟩

theorem moved_execOn (cmd n count) : Moved s (s.execOn s.actor cmd n count) :=
  .inr ⟨fun q => { q with st := .exec cmd n count }, fun _ => ⟨rfl, .inl rfl⟩, rfl⟩

theorem moved_advance (cmd i count data) : Moved s (s.advance cmd i count data) := by
  unfold State.advance
  split_ifs
  · exact moved_execOn _ _ _
  · exact moved_respond _ _

/-! ### What a step does beside its port -/

/-- The state a step of a command leaves, but for the acting port: every change the rules of the commands give. -/
inductive Effect (s : State) : Instr → State → Prop
  | none (i) : Effect s i s
  | setPixel (l x y c) (hr : s.initState = .ready) (hb : inb s.cfg x y) :
      Effect s (.setPixel l x y c) (s.writeLayer l (idx s.cfg x y) c)
  | setPixelOver (l x y c p) (hr : s.initState = .ready) (hb : inb s.cfg x y) (hp : s.readLayer l (idx s.cfg x y) = some p) :
      Effect s (.setPixelOver l x y c) (s.writeLayer l (idx s.cfg x y) (blendOver p c))
  | setAll (l c) (hr : s.initState = .ready ∨ ∃ c n k, s.actorState = .exec c n k) :
      Effect s (.setAll l c) (s.writeLayer l (bulkAt s).1 c)
  | fadeOut (l f p) (hr : s.initState = .ready ∨ ∃ c n k, s.actorState = .exec c n k)
      (hp : s.readLayer l (bulkAt s).1 = some p) :
      Effect s (.fadeOut l f) (s.writeLayer l (bulkAt s).1 (scale (255 - f) p))
  | shiftUp (l k v) (hr : s.initState = .ready ∨ ∃ c n k, s.actorState = .exec c n k)
      (hv : v = 0 ∨ ∃ m, s.readLayer l m = some v) : Effect s (.shiftUp l k) (s.writeLayer l (bulkAt s).1 v)
  | startDrawing (l) (hd : s.drawableAt l = true) : Effect s (.startDrawing l) (s.setDrawable l false)
  | doneDrawing (l) : Effect s (.doneDrawing l) (s.setDone l true)
  | waitDrawingDone : Effect s .waitDrawingDone s.clearDone
  | doneUpdating : Effect s .doneUpdating s.releaseAll
  | initOk (b) (hu : s.initState = .uninit) : Effect s (.init b) (s.initialised b)
  | initFail (b) (hu : s.initState = .uninit) : Effect s (.init b) { s with initState := .fatal }
  | acquire (hr : s.initState = .ready ∨ ∃ c, s.actorState = .held c .seqFree) (ho : s.seqOwner = .none) :
      Effect s .updateFrame { s with seqOwner := some s.actor, seqPhase := .wait }
  | frame (b) (hs : ∃ c d, s.actorState = .held c d ∧ d ≠ .seqFree) :
      Effect s .updateFrame
        { s.endWait b with
          seqTo := b, seqB := s.effectiveBrightness, seqPhase := .encode, seqY := 0, seqX := 0 }
  | setBrightness (v) (hr : s.initState = .ready) :
      Effect s (.setBrightness v) { s with brightness := clampBrightness s.cfg v }
  | setBrightnessCap (v) (hr : s.initState = .ready) :
      Effect s (.setBrightnessCap v) { s with brightnessCap := clampBrightness s.cfg v }

theorem tryStartDrawing_next {l} (h : tryStartDrawing l s = .next t) :
    ∃ u, Effect s (.startDrawing l) u ∧ Moved u t := by
  unfold tryStartDrawing at h
  split_ifs at h with a b <;> cases h
  · exact ⟨_, .startDrawing l a, moved_respond _ _⟩
  · exact ⟨_, .none _, moved_respond _ _⟩
  · exact ⟨_, .none _, moved_hold _ _⟩

theorem endWait_effect (b : Bool) : Effect s .waitDrawingDone (s.endWait b) := by
  unfold State.endWait
  split_ifs
  · exact .waitDrawingDone
  · exact .none _

theorem tryWaitDrawingDone_next (h : tryWaitDrawingDone s = .next t) :
    ∃ u, Effect s .waitDrawingDone u ∧ Moved u t := by
  unfold tryWaitDrawingDone at h
  split_ifs at h <;> cases h
  · exact ⟨_, endWait_effect _, moved_respond _ _⟩
  · exact ⟨_, endWait_effect _, moved_respond _ _⟩
  · exact ⟨_, .none _, moved_hold _ _⟩

theorem tryAcquire_next (hr : s.initState = .ready ∨ ∃ c, s.actorState = .held c .seqFree)
    (h : tryAcquire s = .next t) : ∃ u, Effect s .updateFrame u ∧ Moved u t := by
  unfold tryAcquire at h
  split_ifs at h with e <;> cases h
  · exact ⟨_, .acquire hr e, moved_hold _ _⟩
  · exact ⟨_, .none _, moved_hold _ _⟩

theorem endWait_actor (b : Bool) : (s.endWait b).actor = s.actor := by
  unfold State.endWait
  split_ifs <;> rfl

theorem frameWaitDone_moved (b : Bool) :
    Moved { s.endWait b with
      seqTo := b, seqB := s.effectiveBrightness, seqPhase := .encode, seqY := 0, seqX := 0 }
      (s.frameWaitDone b) :=
  .inr ⟨fun q => { q with st := .exec .updateFrame 0 0 }, fun _ => ⟨rfl, .inl rfl⟩,
    by rw [endWait_actor]; rfl⟩

theorem tryFrameWait_next (hs : ∃ c d, s.actorState = .held c d ∧ d ≠ .seqFree) (h : tryFrameWait s = .next t) :
    ∃ u, Effect s .updateFrame u ∧ Moved u t := by
  unfold tryFrameWait at h
  split_ifs at h <;> cases h
  · exact ⟨_, .frame false hs, frameWaitDone_moved _⟩
  · exact ⟨_, .frame true hs, frameWaitDone_moved _⟩
  · exact ⟨_, .none _, moved_hold _ _⟩

theorem checked_effect {needs ok run} {i : Instr} (h : s.checked needs ok run = .next t)
    (hrun : s.refusalCode needs ok = none → run s = .next t → ∃ u, Effect s i u ∧ Moved u t) :
    ∃ u, Effect s i u ∧ Moved u t := by
  rcases checked_next h with ⟨c, rfl⟩ | ⟨h1, h2⟩
  · exact ⟨_, .none _, moved_respond _ _⟩
  · exact hrun h1 h2

theorem bulk_effect {ok elem} {i : Instr} (h : s.bulk ok elem = .next t)
    (helem : (s.initState = .ready ∨ ∃ c n k, s.actorState = .exec c n k) →
      elem (bulkAt s).1 (bulkAt s).2 s = .next t → ∃ u, Effect s i u ∧ Moved u t) :
    ∃ u, Effect s i u ∧ Moved u t := by
  rcases bulk_next h with ⟨c, rfl⟩ | ⟨h1, h2⟩
  · exact ⟨_, .none _, moved_respond _ _⟩
  · exact helem h1 h2

/-- Everything one step of a command can do: one of the effects of its rule, and a move of its own port. -/
theorem exec_next {i : Instr} (h : exec i s = .next t) : ∃ u, Effect s i u ∧ Moved u t := by
  cases i with
  | setPixel l x y c =>
    simp only [exec, execSetPixel] at h
    refine checked_effect h fun h1 h2 => ?_
    split_ifs at h2 with hb <;> cases h2
    · exact ⟨_, .setPixel l x y c ((refusalCode_none h1).2.2.1 rfl) hb, moved_respond _ _⟩
    · exact ⟨_, .none _, moved_respond _ _⟩
  | setPixelOver l x y c =>
    simp only [exec, execSetPixelOver] at h
    refine checked_effect h fun h1 h2 => ?_
    split_ifs at h2 with hb
    · obtain ⟨p, hp, h2⟩ := orNoValue_next h2
      cases h2
      exact ⟨_, .setPixelOver l x y c p ((refusalCode_none h1).2.2.1 rfl) hb hp, moved_respond _ _⟩
    · cases h2
      exact ⟨_, .none _, moved_respond _ _⟩
  | getPixel l x y =>
    simp only [exec, execGetPixel] at h
    refine checked_effect h fun h1 h2 => ?_
    obtain ⟨p, hp, h2⟩ := orNoValue_next h2
    cases h2
    exact ⟨_, .none _, moved_respond _ _⟩
  | setAll l c =>
    simp only [exec, execSetAll] at h
    refine bulk_effect h fun hr h2 => ?_
    cases h2
    exact ⟨_, .setAll l c hr, moved_advance _ _ _ _⟩
  | fadeOut l f =>
    simp only [exec, execFadeOut] at h
    refine bulk_effect h fun hr h2 => ?_
    obtain ⟨p, hp, h2⟩ := orNoValue_next h2
    split_ifs at h2 <;> cases h2
    · exact ⟨_, .none _, moved_advance _ _ _ _⟩
    · exact ⟨_, .fadeOut l f p hr hp, moved_advance _ _ _ _⟩
  | shiftUp l k =>
    simp only [exec, execShiftUp] at h
    refine bulk_effect h fun hr h2 => ?_
    split_ifs at h2
    · obtain ⟨p, hp, h2⟩ := orNoValue_next h2
      cases h2
      exact ⟨_, .shiftUp l k p hr (.inr ⟨_, hp⟩), moved_advance _ _ _ _⟩
    · cases h2
      exact ⟨_, .shiftUp l k 0 hr (.inl rfl), moved_advance _ _ _ _⟩
  | composite x y =>
    simp only [exec, execComposite] at h
    refine checked_effect h fun h1 h2 => ?_
    obtain ⟨p, hp, h2⟩ := orNoValue_next h2
    cases h2
    exact ⟨_, .none _, moved_respond _ _⟩
  | startDrawing l =>
    simp only [exec, execStartDrawing] at h
    split at h
    · exact tryStartDrawing_next h
    · exact checked_effect h fun _ h2 => tryStartDrawing_next h2
  | doneDrawing l =>
    simp only [exec, execDoneDrawing] at h
    refine checked_effect h fun _ h2 => ?_
    cases h2
    exact ⟨_, .doneDrawing l, moved_respond _ _⟩
  | waitDrawingDone =>
    simp only [exec, execWaitDrawingDone] at h
    split at h
    · exact tryWaitDrawingDone_next h
    · exact checked_effect h fun _ h2 => tryWaitDrawingDone_next h2
  | doneUpdating =>
    simp only [exec, execDoneUpdating] at h
    refine checked_effect h fun _ h2 => ?_
    cases h2
    exact ⟨_, .doneUpdating, moved_respond _ _⟩
  | init b =>
    simp only [exec, execInit] at h
    refine checked_effect h fun h1 h2 => ?_
    have hu := (refusalCode_none h1).2.2.2 rfl
    split_ifs at h2 <;> cases h2
    · exact ⟨_, .initFail b hu, moved_respond _ _⟩
    · exact ⟨_, .initOk b hu, moved_respond _ _⟩
  | updateFrame =>
    simp only [exec, execUpdateFrame] at h
    split at h
    · exact checked_effect h fun h1 h2 => tryAcquire_next (.inl ((refusalCode_none h1).2.2.1 rfl)) h2
    · rename_i c hs
      exact tryAcquire_next (.inr ⟨c, hs⟩) h
    · rename_i c d hn hs
      exact tryFrameWait_next ⟨c, d, hs, hn⟩ h
    · cases h
      exact ⟨_, .none _, .inl rfl⟩
  | setBrightness v =>
    simp only [exec, execSetBrightness] at h
    refine checked_effect h fun h1 h2 => ?_
    cases h2
    exact ⟨_, .setBrightness v ((refusalCode_none h1).2.2.1 rfl), moved_respond _ _⟩
  | setBrightnessCap v =>
    simp only [exec, execSetBrightnessCap] at h
    refine checked_effect h fun h1 h2 => ?_
    cases h2
    exact ⟨_, .setBrightnessCap v ((refusalCode_none h1).2.2.1 rfl), moved_respond _ _⟩
  | readReg r =>
    simp only [exec, execReadReg] at h
    refine checked_effect h fun _ h2 => ?_
    cases h2
    exact ⟨_, .none _, moved_respond _ _⟩

/-! ### Flags -/

/-- A flag after a change of one flag of its row. -/
theorem flagAt_set (flags : List Bool) (l l' : Nat) (v : Bool) (h : l < flags.length ∨ v = false) :
    flagAt (flags.set l v) l' = if l' = l then v else flagAt flags l' := by
  unfold flagAt
  rw [List.getD_eq_getElem?_getD, List.getD_eq_getElem?_getD, List.getElem?_set]
  by_cases e : l = l'
  · subst e
    rcases h with h | h
    · simp [h]
    · simp only [if_true]
      split_ifs <;> simp [h]
  · simp [e, Ne.symm e]

theorem flagAt_replicate {n l : Nat} (v : Bool) (h : l < n) : flagAt (List.replicate n v) l = v := by
  simp [flagAt, h]

/-- A flag above a row reads 0. -/
theorem flagAt_ge {flags : List Bool} {l : Nat} (h : flags.length ≤ l) : flagAt flags l = false := by
  simp [flagAt, h]

theorem allDone_iff : s.allDone = true ↔ ∀ l < s.cfg.N, s.doneAt l = true := by simp [State.allDone]

end Sys2Proof.Machine
end

