-- ==== Sys2Proof/Laws/Encoding.lean ====
section
/-! SUPPORT. The fields and masks of the words the encoder writes, and the rows the decoder finds (R62, R63, R65 to R67). -/

namespace Sys2Proof

/-- Every bit of a header word (R62). -/
theorem headerWord_getLsbD (opc : BitVec 8) (l imm i : Nat) :
    (headerWord opc l imm).getLsbD i =
      if i < 8 then opc.getLsbD i
      else if i < 12 then (BitVec.ofNat 4 l).getLsbD (i - 8)
      else if i < 16 then false
      else (BitVec.ofNat 16 imm).getLsbD (i - 16) := by
  unfold headerWord
  simp only [BitVec.getLsbD_append]
  split_ifs <;> first | rfl | omega | simp

/-- Every bit of a coordinate word (R63). -/
theorem xyWord_getLsbD (x y : Int) (i : Nat) :
    (xyWord x y).getLsbD i =
      if i < 16 then (BitVec.ofInt 16 x).getLsbD i else (BitVec.ofInt 16 y).getLsbD (i - 16) := by
  unfold xyWord
  simp only [BitVec.getLsbD_append]

theorem toNat_ofNat_of_lt {w n : Nat} (h : n < 2 ^ w) : (BitVec.ofNat w n).toNat = n := by
  simp [Nat.mod_eq_of_lt h]

theorem opcodeField_headerWord (opc : BitVec 8) (l imm : Nat) : opcodeField (headerWord opc l imm) = opc := by
  unfold opcodeField
  ext i hi
  rw [BitVec.getElem_extractLsb', headerWord_getLsbD, if_pos (by omega)]
  simp [BitVec.getLsbD_eq_getElem, hi]

theorem layerField_headerWord (opc : BitVec 8) {l : Nat} (imm : Nat) (h : fitsLayer l) :
    layerField (headerWord opc l imm) = l := by
  unfold layerField
  have : BitVec.extractLsb' 8 4 (headerWord opc l imm) = BitVec.ofNat 4 l := by
    ext i hi
    rw [BitVec.getElem_extractLsb', headerWord_getLsbD, if_neg (by omega), if_pos (by omega)]
    simp [BitVec.getLsbD_eq_getElem, hi]
  rw [this, toNat_ofNat_of_lt (by omega)]

theorem immField_headerWord (opc : BitVec 8) (l : Nat) {imm : Nat} (h : fitsImm imm) :
    immField (headerWord opc l imm) = imm := by
  unfold immField
  have : BitVec.extractLsb' 16 16 (headerWord opc l imm) = BitVec.ofNat 16 imm := by
    ext i hi
    rw [BitVec.getElem_extractLsb', headerWord_getLsbD, if_neg (by omega), if_neg (by omega), if_neg (by omega)]
    simp [BitVec.getLsbD_eq_getElem, hi]
  rw [this, toNat_ofNat_of_lt (by omega)]

theorem factorField_headerWord (opc : BitVec 8) (l : Nat) {factor : Nat} (h : fitsFactor factor) :
    factorField (headerWord opc l factor) = factor := by
  unfold factorField
  have : BitVec.extractLsb' 16 8 (headerWord opc l factor) = BitVec.ofNat 8 factor := by
    ext i hi
    rw [BitVec.getElem_extractLsb', headerWord_getLsbD, if_neg (by omega), if_neg (by omega), if_neg (by omega),
      ← BitVec.getLsbD_eq_getElem, BitVec.getLsbD_ofNat, BitVec.getLsbD_ofNat]
    simp [hi]
    omega
  rw [this, toNat_ofNat_of_lt (by omega)]

theorem xField_xyWord {x : Int} (y : Int) (h : fitsCoord x) : xField (xyWord x y) = x := by
  unfold xField
  have : BitVec.extractLsb' 0 16 (xyWord x y) = BitVec.ofInt 16 x := by
    ext i hi
    rw [BitVec.getElem_extractLsb', xyWord_getLsbD, if_pos (by omega)]
    simp [BitVec.getLsbD_eq_getElem, hi]
  rw [this, BitVec.toInt_ofInt, Int.bmod_def]
  omega

theorem yField_xyWord (x : Int) {y : Int} (h : fitsCoord y) : yField (xyWord x y) = y := by
  unfold yField
  have : BitVec.extractLsb' 16 16 (xyWord x y) = BitVec.ofInt 16 y := by
    ext i hi
    rw [BitVec.getElem_extractLsb', xyWord_getLsbD, if_neg (by omega)]
    simp [BitVec.getLsbD_eq_getElem, hi]
  rw [this, BitVec.toInt_ofInt, Int.bmod_def]
  omega

/-- The row an opcode byte finds is a row of the table with that opcode. -/
theorem mem_of_lookupRow {opc : BitVec 8} {r : OpRow} (h : lookupRow opc = some r) :
    r ∈ opTable ∧ opcodeField r.fixed = opc := by
  unfold lookupRow at h
  exact ⟨List.mem_of_find?_eq_some h, by simpa using List.find?_some h⟩

/-- Every row is found at its own opcode (R66). -/
theorem lookupRow_fixed : ∀ r ∈ opTable, lookupRow (opcodeField r.fixed) = some r := by decide

/-- The mask of every row covers the opcode byte and its fixed bits (R67). -/
theorem row_mask : ∀ r ∈ opTable, r.fixed &&& r.mask = r.fixed ∧ r.mask.extractLsb' 0 8 = 0xFF#8 := by decide

end Sys2Proof
end

