-- ==== Sys2Proof/Laws/Steps.lean ====
section
/-! SUPPORT. The inversion of a whole step of the machine: what each turn can do (R17, R52). -/

namespace Sys2Proof.Machine

variable {s t : State}

/-- The state in which port `p`'s step runs, before the port takes words out of its FIFO. -/
def State.acting (s : State) (p : Nat) (alt : Bool) : State := s.dropTurn.actAs p alt

/-- Words taken out of the FIFO do not move the element at which a port's bulk command stands (R54). -/
theorem bulkAt_takeWords (p : Nat) (alt : Bool) (n : Nat) :
    bulkAt ((s.acting p alt).takeWords n) = bulkAt (s.acting p alt) := by
  have h : ((s.acting p alt).takeWords n).actorState = (s.acting p alt).actorState := by
    show ((s.acting p alt).updPort p _).portState p = (s.acting p alt).portState p
    rw [portState_updPort, if_pos rfl]
    rfl
  unfold bulkAt
  rw [h]

/-- Everything a port's turn can do: nothing, an illegal encoding refused, or one step of the command at its port. -/
theorem port_next {p : Nat} {alt : Bool} (hn : s.nextTurn = .port p alt) (h : step s = .next t) :
    t = s.dropTurn ∨ t = s.acting p alt ∨
      (∃ n, t = ((s.acting p alt).takeWords n).respond .illegal 0) ∨
      ∃ i v u, nextCommand s = some i ∧ (v = s.acting p alt ∨ ∃ n, v = (s.acting p alt).takeWords n) ∧
        Effect v i u ∧ Moved u t := by
  simp only [step, hn, turnStep, portStep, dropTurn_ports] at h
  cases hq : s.ports[p]? with
  | none =>
    rw [hq] at h
    cases h
    exact .inl rfl
  | some q =>
    rw [hq] at h
    obtain ⟨ws, st, out⟩ := q
    cases st with
    | idle =>
      simp only [fetchStep] at h
      cases hd : decode ws with
      | incomplete =>
        rw [hd] at h
        cases h
        exact .inr (.inl rfl)
      | illegal why n =>
        rw [hd] at h
        cases h
        exact .inr (.inr (.inl ⟨n, rfl⟩))
      | instr i n =>
        rw [hd] at h
        obtain ⟨u, h1, h2⟩ := exec_next h
        exact .inr (.inr (.inr ⟨i, _, u, by simp only [nextCommand, hn, hq, hd], .inr ⟨n, rfl⟩, h1, h2⟩))
    | exec i n count =>
      obtain ⟨u, h1, h2⟩ := exec_next h
      exact .inr (.inr (.inr ⟨i, _, u, by simp only [nextCommand, hn, hq], .inl rfl, h1, h2⟩))
    | held i c =>
      obtain ⟨u, h1, h2⟩ := exec_next h
      exact .inr (.inr (.inr ⟨i, _, u, by simp only [nextCommand, hn, hq], .inl rfl, h1, h2⟩))

/-- Everything a sequencer's turn can do: nothing, one encode step, or the release. -/
theorem sequencer_next (h : sequencerStep s = .next t) :
    t = s ∨
      (∃ p c1 c2, s.seqOwner = some p ∧ s.seqPhase = .encode ∧ s.compositeAt s.seqX s.seqY = some c1 ∧
        s.compositeAt s.seqX (s.seqY + s.cfg.half : Nat) = some c2 ∧
        t = (s.writePlanes s.seqY s.seqX c1 c2 s.cfg.K).nextPosition.execOn p .updateFrame
          (s.seqY * s.cfg.W + s.seqX + 1) 0) ∨
      ∃ p code, s.seqOwner = some p ∧ s.seqPhase = .release ∧
        t = ({ s.releaseAll with seqOwner := none } : State).respondOn p code 0 := by
  unfold sequencerStep at h
  split at h
  · rename_i p ho hp
    obtain ⟨c1, h1, h⟩ := orNoValue_next h
    obtain ⟨c2, h2, h⟩ := orNoValue_next h
    cases h
    exact .inr (.inl ⟨p, c1, c2, ho, hp, h1, h2, rfl⟩)
  · rename_i p ho hp
    cases h
    exact .inr (.inr ⟨p, _, ho, hp, rfl⟩)
  · cases h
    exact .inl rfl

/-- Everything a turn of the DMA engine can do: nothing, or one word (R128). -/
theorem dma_next (h : dmaStep s = .next t) :
    t = s ∨ (s.dmaRun = true ∧ ∃ w, t = (s.emit w).advanceDma) := by
  unfold dmaStep at h
  split_ifs at h with hr
  · obtain ⟨k, _, h⟩ := orNoValue_next h
    obtain ⟨w, _, h⟩ := orNoValue_next h
    cases h
    exact .inr ⟨hr, w, rfl⟩
  · cases h
    exact .inl rfl

/-- The words of a position are the only change of an encode step's plane writes. -/
theorem writePlanes_eq (s : State) (y x : Nat) (c1 c2 : Color) (n : Nat) :
    s.writePlanes y x c1 c2 n = { s with plane := (s.writePlanes y x c1 c2 n).plane } := by
  induction n with
  | zero => rfl
  | succ n ih =>
    rw [State.writePlanes, ih]
    rfl

/-- The next position changes nothing but the position and the phase. -/
theorem nextPosition_eq (s : State) :
    s.nextPosition = { s with
      seqX := s.nextPosition.seqX, seqY := s.nextPosition.seqY, seqPhase := s.nextPosition.seqPhase } := by
  unfold State.nextPosition
  split_ifs <;> rfl

/-- One word emitted and the engine's position advanced (R128). -/
theorem advanceDma_emit (s : State) (w : DmaWord) :
    (s.emit w).advanceDma = { s with
      bus := s.bus ++ [w]
      dmaIdx := if s.dmaIdx + 1 = s.cfg.planeWords then 0 else s.dmaIdx + 1
      dmaSlot := if s.dmaIdx + 1 = s.cfg.planeWords then (s.dmaSlot + 1) % s.cfg.slots else s.dmaSlot } := by
  have e1 : (s.emit w).dmaIdx = s.dmaIdx := rfl
  have e2 : (s.emit w).cfg = s.cfg := rfl
  unfold State.advanceDma
  rw [e1, e2]
  split_ifs <;> rfl

end Sys2Proof.Machine
end

