-- ==== Sys2Proof/Machine/Fairness.lean ====
section
/-! DEFINITION. Weak fairness of the agents R111, R126, R129: which agent has a step, which turn is one, and the runs in which no
agent with a step waits for ever. A claim that something happens takes a fair run as its premise (log entry 12). -/

namespace Sys2Proof.Machine

/-- The agents that step (R17). The timeout of a held wait is a step of the holding port (R111). -/
inductive Agent where
  | port (p : Nat)
  | sequencer
  | dma
deriving DecidableEq, Repr

/-- The condition of a held command holds (R20, R103, R105, R126). -/
def State.condHolds (s : State) : Cond → Bool
  | .drawable l => s.drawableAt l
  | .allDone => s.allDone
  | .seqFree => decide (s.seqOwner = none)

/-- A port in this state has a step: an idle one when a whole command or an illegal encoding has arrived, a held barrier wait
always (it succeeds or times out), a wait for the sequencer when that is free; the steps of `UPDATE_FRAME` from its encode
phase on are the sequencer's (R20, R111, R124, R126). -/
def State.portReady (s : State) (q : Port) : Bool :=
  match q.st with
  | .idle => decide (decode q.inq ≠ .incomplete)
  | .exec cmd _ _ => decide (cmd ≠ .updateFrame)
  | .held _ .seqFree => s.condHolds .seqFree
  | .held _ _ => true

/-- The agent has a step (R20, R124, R128). -/
def State.enabled (s : State) : Agent → Bool
  | .port p => s.ports[p]?.any s.portReady
  | .sequencer => s.seqOwner.isSome && decide (s.seqPhase ≠ .wait)
  | .dma => s.dmaRun

/-- A turn of port `p` that resolves its open choice by `alt` is a step and not a further holding: a held barrier wait ends by
success or by timeout, a wait for the sequencer only by success (R111, R126). -/
def State.portMoves (s : State) (p : Nat) (alt : Bool) : Bool :=
  match s.portState p with
  | .held _ .seqFree => s.condHolds .seqFree
  | .held _ c => alt || s.condHolds c
  | _ => true

/-- The turn is a step of the agent. -/
def State.takes (s : State) (t : Turn) : Agent → Bool
  | .port p =>
    match t with
    | .port p' alt => decide (p' = p) && s.portMoves p alt
    | _ => false
  | .sequencer => decide (t = .sequencer)
  | .dma => decide (t = .dma)

/-- The states `r` are a run under the turns `turns`, and the run is weakly fair: an agent that has a step from some point on takes
one after it (R111, R126, R129). -/
structure FairRun (turns : Nat → Turn) (r : Nat → State) : Prop where
  run : ∀ n, turnStep (turns n) (r n) = .next (r (n + 1))
  fair : ∀ (a : Agent) (n : Nat), (∀ m, n ≤ m → (r m).enabled a = true) →
    ∃ m, n ≤ m ∧ (r m).takes (turns m) a = true

end Sys2Proof.Machine
end

