-- ==== Sys2Proof/Laws/Fairness.lean ====
section
/-! SUPPORT. Runs by turns are runs of the step, and what weak fairness gives the DMA engine (R129). -/

namespace Sys2Proof.Machine

variable {s t : State}

/-- A turn at the head of the agenda is the next step: a run by turns is a run of `step` whose agenda is fed. -/
theorem step_of_turn (u : Turn) (s : State) : step { s with agenda := u :: s.agenda } = turnStep u s := rfl

/-- No step of a command stops the DMA engine (R129). -/
theorem effect_dmaRun {i : Instr} {u : State} (h : Effect s i u) (hd : s.dmaRun = true) : u.dmaRun = true := by
  cases h with
  | frame b hs =>
    show (s.endWait b).dmaRun = true
    unfold State.endWait
    split_ifs <;> exact hd
  | initOk b hu => rfl
  | _ => exact hd

theorem moved_dmaRun (h : Moved s t) : t.dmaRun = s.dmaRun := by
  rcases h with rfl | ⟨f, _, rfl⟩ <;> rfl

/-- Once it runs, the DMA engine runs until reset: no command stops it (R129). -/
theorem step_dmaRun (hr : s.nextTurn ≠ .reset) (h : step s = .next t) (hd : s.dmaRun = true) : t.dmaRun = true := by
  cases hn : s.nextTurn with
  | port p alt =>
    rcases port_next hn h with rfl | rfl | ⟨n, rfl⟩ | ⟨i, v, u, _, hv, he, hm⟩
    · exact hd
    · exact hd
    · exact hd
    · rw [moved_dmaRun hm]
      refine effect_dmaRun he ?_
      rcases hv with rfl | ⟨n, rfl⟩ <;> exact hd
  | sequencer =>
    simp only [step, hn, turnStep] at h
    rcases sequencer_next h with rfl | ⟨p, c1, c2, _, _, _, _, rfl⟩ | ⟨p, c, _, _, rfl⟩
    · exact hd
    · rw [execOn_eq, nextPosition_eq, writePlanes_eq]
      exact hd
    · exact hd
  | dma =>
    simp only [step, hn, turnStep] at h
    rcases dma_next h with rfl | ⟨_, w, rfl⟩
    · exact hd
    · rw [advanceDma_emit]
      exact hd
  | hostWrite p w =>
    simp only [step, hn, turnStep] at h
    cases h
    exact hd
  | hostRead p =>
    simp only [step, hn, turnStep] at h
    cases h
    exact hd
  | reset => exact absurd hn hr

/-- In a fair run without a further reset, a running DMA engine keeps taking steps (R129). -/
theorem fairRun_dma_recurs {turns : Nat → Turn} {r : Nat → State} (h : FairRun turns r) {n : Nat}
    (hd : (r n).dmaRun = true) (hr : ∀ m, n ≤ m → turns m ≠ .reset) (k : Nat) (hk : n ≤ k) :
    ∃ m, k ≤ m ∧ turns m = .dma := by
  have run : ∀ m, n ≤ m → (r m).dmaRun = true := fun m hm =>
    Nat.le_induction hd (fun m hm ih =>
      step_dmaRun (s := { r m with agenda := turns m :: (r m).agenda }) (hr m hm) (h.run m) ih) m hm
  obtain ⟨m, hm, ht⟩ := h.fair .dma k fun m hm => run m (hk.trans hm)
  exact ⟨m, hm, by simpa [State.takes] using ht⟩

end Sys2Proof.Machine
end

