-- ==== Sys2Proof/Laws/Memory.lean ====
section
/-! SUPPORT. The laws of the storage spaces: what a read sees after a write or a fill, and that every operation keeps the
canonical form. -/

namespace Sys2Proof.Machine

variable {w : Nat}

/-- The first entry of a space, and the others. -/
theorem read_cons (k : Nat) (u : BitVec w) (m : Memory w) (a : Nat) :
    Memory.read ((k, u) :: m) a = if k = a then some u else Memory.read m a := rfl

/-- A read after a write gives the value written at its element and the old value elsewhere. -/
theorem read_write (m : Memory w) (hm : m.wf) (a b : Nat) (v : BitVec w) :
    (m.write a v).read b = if b = a then some v else m.read b := by
  induction m with
  | nil => simp [Memory.write, read_cons, eq_comm]
  | cons p m ih =>
    obtain ⟨k, u⟩ := p
    have hm' := List.pairwise_cons.1 hm
    simp only [Memory.write]
    split
    · simp [read_cons, eq_comm]
    · split
      · rename_i h
        rw [read_cons, read_cons]
        by_cases hb : b = a
        · simp [hb]
        · rw [if_neg (Ne.symm hb), if_neg hb, if_neg (by omega)]
      · rename_i h
        rw [read_cons, read_cons, ih hm'.2]
        by_cases hk : k = b
        · rw [if_pos hk, if_pos hk, if_neg (by omega)]
        · rw [if_neg hk, if_neg hk]

/-- Every element listed after a write is the one written or was listed before. -/
theorem mem_write {m : Memory w} {a : Nat} {v : BitVec w} {p : Nat × BitVec w} (h : p ∈ m.write a v) :
    p.1 = a ∨ p ∈ m := by
  induction m with
  | nil => simp [Memory.write] at h; simp [h]
  | cons q m ih =>
    obtain ⟨k, u⟩ := q
    simp only [Memory.write] at h
    split at h
    · rcases List.mem_cons.1 h with h | h
      · simp [h]
      · exact .inr h
    · split at h
      · rcases List.mem_cons.1 h with h | h
        · simp [h]
        · exact .inr (List.mem_cons_of_mem _ h)
      · rcases List.mem_cons.1 h with h | h
        · simp [h]
        · rcases ih h with h | h
          · exact .inl h
          · exact .inr (List.mem_cons_of_mem _ h)

/-- A write keeps the canonical form. -/
theorem wf_write {m : Memory w} (hm : m.wf) (a : Nat) (v : BitVec w) : (m.write a v).wf := by
  induction m with
  | nil => exact List.pairwise_singleton _ _
  | cons p m ih =>
    obtain ⟨k, u⟩ := p
    have hm' := List.pairwise_cons.1 hm
    simp only [Memory.write]
    split
    · rename_i h
      refine List.pairwise_cons.2 ⟨fun q hq => ?_, hm⟩
      rcases List.mem_cons.1 hq with rfl | hq
      · exact h
      · exact lt_trans h (hm'.1 q hq)
    · split
      · subst_vars
        exact List.pairwise_cons.2 ⟨hm'.1, hm'.2⟩
      · refine List.pairwise_cons.2 ⟨fun q hq => ?_, ih hm'.2⟩
        rcases mem_write hq with h | h
        · show k < q.1
          omega
        · exact hm'.1 q h

/-- A filled space is in canonical form. -/
theorem wf_filled (n : Nat) (f : Nat → BitVec w) : (Memory.filled n f).wf :=
  List.pairwise_map.2 (List.pairwise_lt_range.imp fun h => h)

/-- What a list of elements with their values reads as. -/
theorem read_map (l : List Nat) (f : Nat → BitVec w) (a : Nat) :
    Memory.read (l.map fun k => (k, f k)) a = if a ∈ l then some (f a) else none := by
  induction l with
  | nil => rfl
  | cons k l ih =>
    rw [List.map_cons, read_cons, ih]
    by_cases h : k = a
    · simp [h]
    · simp [h, Ne.symm h]

/-- A filled space holds its values below `n` and none above. -/
theorem read_filled (n : Nat) (f : Nat → BitVec w) (a : Nat) :
    (Memory.filled n f).read a = if a < n then some (f a) else none := by
  unfold Memory.filled
  rw [read_map]
  simp

/-- The empty space is in canonical form. -/
theorem wf_nil : Memory.wf ([] : Memory w) := List.Pairwise.nil

/-- Both spaces of the reset state are in canonical form (R39). -/
theorem wf_reset : State.reset.layer.wf ∧ State.reset.plane.wf := ⟨wf_nil, wf_nil⟩

/-- Two pixels of one configuration never share an element number. -/
theorem layerAddr_inj {c : Config} {l l' i i' : Nat} (hi : i < c.pixels) (hi' : i' < c.pixels)
    (h : layerAddr c l i = layerAddr c l' i') : l = l' ∧ i = i' := by
  unfold layerAddr at h
  have hl : l = l' := by
    rcases Nat.lt_trichotomy l l' with g | g | g
    · have := Nat.mul_le_mul_right c.pixels (Nat.succ_le_of_lt g); rw [Nat.succ_mul] at this; omega
    · exact g
    · have := Nat.mul_le_mul_right c.pixels (Nat.succ_le_of_lt g); rw [Nat.succ_mul] at this; omega
  subst hl
  exact ⟨rfl, by omega⟩

/-- Two plane words of one configuration never share an element number. -/
theorem planeAddr_inj {c : Config} {k k' j j' : Nat} (hj : j < c.planeWords) (hj' : j' < c.planeWords)
    (h : planeAddr c k j = planeAddr c k' j') : k = k' ∧ j = j' := by
  unfold planeAddr at h
  have hk : k = k' := by
    rcases Nat.lt_trichotomy k k' with g | g | g
    · have := Nat.mul_le_mul_right c.planeWords (Nat.succ_le_of_lt g); rw [Nat.succ_mul] at this; omega
    · exact g
    · have := Nat.mul_le_mul_right c.planeWords (Nat.succ_le_of_lt g); rw [Nat.succ_mul] at this; omega
  subst hk
  exact ⟨rfl, by omega⟩

/-- A pixel of a layer is an element of the layer space. -/
theorem layerAddr_lt {c : Config} {l i : Nat} (hl : l < c.N) (hi : i < c.pixels) :
    layerAddr c l i < c.N * c.pixels := by
  unfold layerAddr
  have := Nat.mul_le_mul_right c.pixels (Nat.succ_le_of_lt hl)
  rw [Nat.succ_mul] at this; omega

/-- A word of a bitplane is an element of the plane space. -/
theorem planeAddr_lt {c : Config} {k j : Nat} (hk : k < c.K) (hj : j < c.planeWords) :
    planeAddr c k j < c.K * c.planeWords := by
  unfold planeAddr
  have := Nat.mul_le_mul_right c.planeWords (Nat.succ_le_of_lt hk)
  rw [Nat.succ_mul] at this; omega

end Sys2Proof.Machine
end

