-- ==== Sys2Proof/Laws/Invariant.lean ====
section
/-! SUPPORT. Facts about every admitted configuration, what the invariant gives a reader of the layers, planes and schedule, and which
single updates keep it. -/

namespace Sys2Proof.Machine

variable {s : State} {c : Config}

/-! ### Configurations -/

theorem slots_pos (h : c.Valid) : 0 < c.slots := by
  unfold Config.slots
  have := Nat.pow_le_pow_right (n := 2) (by norm_num) h.k_pos
  omega

theorem rowPairs_pos (h : c.Valid) : 0 < c.half := by
  unfold Config.half
  have := h.h_ge
  omega

/-- A plane is `H/2` row pairs of `W` words (R119). -/
theorem planeWords_eq (h : c.Valid) : c.planeWords = c.half * c.W := by
  unfold Config.planeWords Config.half
  obtain ⟨k, hk⟩ : 2 ∣ c.H := Nat.dvd_of_mod_eq_zero h.h_even
  rw [hk, show c.W * (2 * k) = 2 * (k * c.W) by ring]
  simp

theorem planeWords_pos (h : c.Valid) : 0 < c.planeWords := by
  rw [planeWords_eq h]
  exact Nat.mul_pos (rowPairs_pos h) (by have := h.w_ge; omega)

theorem pixels_pos (h : c.Valid) : 0 < c.pixels :=
  Nat.mul_pos (by have := h.w_ge; omega) (by have := h.h_ge; omega)

/-- A coordinate in bounds reaches a pixel of the layer (R16). -/
theorem idx_lt {x y : Int} (h : inb c x y) : idx c x y < c.pixels := by
  obtain ⟨hx, hx', hy, hy'⟩ := h
  unfold idx Config.pixels
  have h2 : y.toNat + 1 ≤ c.H := by omega
  have := Nat.mul_le_mul_right c.W h2
  rw [Nat.mul_comm c.W c.H]
  rw [Nat.succ_mul] at this
  omega

/-- A row pair and a column reach a word of the plane (R119). -/
theorem position_lt (h : c.Valid) {y x : Nat} (hy : y < c.half) (hx : x < c.W) : y * c.W + x < c.planeWords := by
  rw [planeWords_eq h]
  have := Nat.mul_le_mul_right c.W (Nat.succ_le_of_lt hy)
  rw [Nat.succ_mul] at this
  omega

/-! ### The schedule -/

theorem leastMin_lt : ∀ ws : List Nat, ws ≠ [] → leastMin ws < ws.length
  | [], h => absurd rfl h
  | [_], _ => by simp [leastMin]
  | a :: b :: r, _ => by
    have := leastMin_lt (b :: r) (by simp)
    simp only [leastMin]
    split_ifs
    · simp
    · simpa using this

theorem scheduleFrom_length (K n : Nat) (ws : List Nat) : (scheduleFrom K n ws).length = n := by
  induction n generalizing ws with
  | zero => rfl
  | succ n ih => simp [scheduleFrom, ih]

theorem scheduleFrom_lt {K : Nat} (hK : 0 < K) (n : Nat) (ws : List Nat) (hw : ws.length = K) :
    ∀ k ∈ scheduleFrom K n ws, k < K := by
  induction n generalizing ws with
  | zero => simp [scheduleFrom]
  | succ n ih =>
    intro k hk
    simp only [scheduleFrom, List.mem_cons] at hk
    rcases hk with rfl | hk
    · rw [← hw]
      exact leastMin_lt ws (by rintro rfl; simp at hw; omega)
    · exact ih _ (by simp [hw]) k hk

/-- Every slot of the schedule names a plane (R134). -/
theorem buildSchedule_lt {K : Nat} (hK : 0 < K) : ∀ k ∈ buildSchedule K, k < K :=
  scheduleFrom_lt hK _ _ (by simp)

/-! ### `PORT_STATE` after an update -/

theorem portState_updPort_set {p : Nat} (q : Nat) {f : Port → Port} {st : PortState} (hf : ∀ r, (f r).st = st)
    (hp : p < s.ports.length) : (s.updPort p f).portState q = if p = q then st else s.portState q := by
  rw [portState_updPort]
  by_cases e : p = q
  · subst e
    simp [List.getElem?_eq_getElem hp, hf]
  · simp [e]

theorem portState_updPort_keep (p q : Nat) {f : Port → Port} (hf : ∀ r, (f r).st = r.st) :
    (s.updPort p f).portState q = s.portState q := by
  rw [portState_updPort]
  by_cases e : p = q
  · subst e
    simp only [if_true, State.portState]
    cases s.ports[p]? <;> simp [hf]
  · simp [e]

/-! ### Updates that keep the invariant -/

theorem blockInv_dropTurn (h : BlockInv s) : BlockInv s.dropTurn := { h with }

theorem blockInv_actAs (h : BlockInv s) (p : Nat) (alt : Bool) : BlockInv (s.actAs p alt) := { h with }

/-- A change of a port that leaves its `PORT_STATE` keeps the invariant. -/
theorem blockInv_updPort_keep (h : BlockInv s) (p : Nat) {f : Port → Port} (hf : ∀ r, (f r).st = r.st) :
    BlockInv (s.updPort p f) :=
  { h with
    ports_length := by simp [h.ports_length]
    owner_ok := fun q hq => by
      rw [portState_updPort_keep _ _ hf]
      exact h.owner_ok q hq
    ports_ok := fun q hq => by
      rw [portState_updPort_keep _ _ hf]
      exact h.ports_ok q hq }

/-- A change of `PORT_STATE` to one that the port may have keeps the invariant. -/
theorem blockInv_updPort_set (h : BlockInv s) {p : Nat} {f : Port → Port} {st : PortState} (hf : ∀ r, (f r).st = st)
    (hp : p < s.cfg.nports) (hok : PortOk s p st) (ho : s.seqOwner = some p → st = ownerState s) :
    BlockInv (s.updPort p f) := by
  have hl : p < s.ports.length := by rw [h.ports_length]; exact hp
  exact
    { h with
      ports_length := by simp [h.ports_length]
      owner_ok := fun q hq => by
        have := h.owner_ok q hq
        rw [portState_updPort_set _ hf hl]
        refine ⟨this.1, this.2.1, ?_⟩
        split_ifs with e
        · subst e
          exact ho hq
        · exact this.2.2
      ports_ok := fun q hq => by
        rw [portState_updPort_set _ hf hl]
        split_ifs with e
        · subst e
          exact hok
        · exact h.ports_ok q hq }

/-- A response on a port that does not own the sequencer keeps the invariant. -/
theorem blockInv_respondOn (h : BlockInv s) {p : Nat} (hp : p < s.cfg.nports) (ho : s.seqOwner ≠ some p) (code data) :
    BlockInv (s.respondOn p code data) :=
  blockInv_updPort_set h (st := .idle) (fun _ => rfl) hp trivial fun e => absurd e ho

/-- A pixel write of a ready block keeps the invariant (R47). -/
theorem blockInv_writeLayer (h : BlockInv s) (hr : s.initState = .ready) {l i : Nat} (hl : l < s.cfg.N)
    (hi : i < s.cfg.pixels) (v : Pixel) : BlockInv (s.writeLayer l i v) :=
  { h with
    layer_wf := wf_write h.layer_wf _ _
    layer_bound := fun a ha => by
      rw [writeLayer_layer, read_write _ h.layer_wf] at ha
      split_ifs at ha with e
      · subst e
        exact layerAddr_lt hl hi
      · exact h.layer_bound a ha
    no_value := fun hn => absurd hr hn
    layer_full := fun _ l' hl' i' hi' => by
      show ((s.layer.write _ v).read (layerAddr s.cfg l' i')).isSome
      rw [read_write _ h.layer_wf]
      split_ifs
      · rfl
      · exact h.layer_full hr l' hl' i' hi'
    ports_ok := h.ports_ok }

/-- A plane-word write of a ready block keeps the invariant (R47). -/
theorem blockInv_writePlane (h : BlockInv s) (hr : s.initState = .ready) {k j : Nat} (hk : k < s.cfg.K)
    (hj : j < s.cfg.planeWords) (v : DmaWord) : BlockInv (s.writePlane k j v) :=
  { h with
    plane_wf := wf_write h.plane_wf _ _
    plane_bound := fun a ha => by
      rw [writePlane_plane, read_write _ h.plane_wf] at ha
      split_ifs at ha with e
      · subst e
        exact planeAddr_lt hk hj
      · exact h.plane_bound a ha
    no_value := fun hn => absurd hr hn
    plane_full := fun _ k' hk' j' hj' => by
      show ((s.plane.write _ v).read (planeAddr s.cfg k' j')).isSome
      rw [read_write _ h.plane_wf]
      split_ifs
      · rfl
      · exact h.plane_full hr k' hk' j' hj'
    ports_ok := h.ports_ok }

/-! ### What the invariant gives a reader -/

/-- A ready block's pixels have values (R40). -/
theorem readLayer_some (h : BlockInv s) (hr : s.initState = .ready) {l i : Nat} (hl : l < s.cfg.N)
    (hi : i < s.cfg.pixels) : ∃ v, s.readLayer l i = some v :=
  Option.isSome_iff_exists.1 (h.layer_full hr l hl i hi)

/-- A running DMA engine belongs to a ready block (R129). -/
theorem ready_of_dmaRun (h : BlockInv s) (hr : s.dmaRun = true) : s.initState = .ready := by
  by_contra hn
  have := (h.no_value hn).2.2.2
  simp [hr] at this

end Sys2Proof.Machine
end

