-- ==== Sys2Proof/Laws/PerInstr.lean ====
section
/-! SUPPORT. The per-instruction family `EncodedRow`: the header word of every command selects the row of the opcode table whose
length is the command's (R66, R68). -/

namespace Sys2Proof.Laws.EncodedRow

/-- The command's header word finds a row, and the row's length is the command's. -/
def Statement (i : Instr) : Prop :=
  ∃ w0 args, encode i = w0 :: args ∧ (lookupRow (opcodeField w0)).map OpRow.words = some (args.length + 1)

/-- The statement for a command whose first word is a header with opcode `opc`. -/
theorem of_header {i : Instr} {opc : BitVec 8} {l imm : Nat} {args : List Word}
    (he : encode i = headerWord opc l imm :: args)
    (hw : (lookupRow opc).map OpRow.words = some (args.length + 1)) : Statement i :=
  ⟨_, args, he, by rw [opcodeField_headerWord]; exact hw⟩

theorem setPixel (l : Nat) (x y : Int) (color : Pixel) : Statement (.setPixel l x y color) :=
  of_header rfl rfl
theorem setPixelOver (l : Nat) (x y : Int) (color : Pixel) : Statement (.setPixelOver l x y color) :=
  of_header rfl rfl
theorem getPixel (l : Nat) (x y : Int) : Statement (.getPixel l x y) :=
  of_header rfl rfl
theorem setAll (l : Nat) (color : Pixel) : Statement (.setAll l color) :=
  of_header rfl rfl
theorem fadeOut (l factor : Nat) : Statement (.fadeOut l factor) :=
  of_header rfl rfl
theorem shiftUp (l n : Nat) : Statement (.shiftUp l n) :=
  of_header rfl rfl
theorem composite (x y : Int) : Statement (.composite x y) :=
  of_header rfl rfl
theorem startDrawing (l : Nat) : Statement (.startDrawing l) :=
  of_header rfl rfl
theorem doneDrawing (l : Nat) : Statement (.doneDrawing l) :=
  of_header rfl rfl
theorem waitDrawingDone : Statement .waitDrawingDone :=
  of_header rfl rfl
theorem doneUpdating : Statement .doneUpdating :=
  of_header rfl rfl
theorem init (brightness : Nat) : Statement (.init brightness) :=
  of_header rfl rfl
theorem updateFrame : Statement .updateFrame :=
  of_header rfl rfl
theorem setBrightness (level : Nat) : Statement (.setBrightness level) :=
  of_header rfl rfl
theorem setBrightnessCap (cap : Nat) : Statement (.setBrightnessCap cap) :=
  of_header rfl rfl
theorem readReg (r : Nat) : Statement (.readReg r) :=
  of_header rfl rfl

end Sys2Proof.Laws.EncodedRow
end

