-- ==== Sys2Proof/Laws/Pixel.lean ====
section
/-! SUPPORT. Channels of packed, scaled and blended pixels (R14, R78, R81). -/

namespace Sys2Proof.Machine

/-- A channel of a packed pixel (R14). -/
theorem ch_pack (r g b a : Nat) (c : Channel) :
    ch (pack r g b a) c = (match c with | .R => r | .G => g | .B => b | .A => a) % 256 := by
  cases c <;> simp only [ch, pack, Channel.lo]
  all_goals
    apply Eq.trans (b := BitVec.toNat (BitVec.ofNat 8 _)) (congrArg BitVec.toNat ?_) (BitVec.toNat_ofNat ..)
    apply BitVec.eq_of_getLsbD_eq
    intro i hi
    rw [BitVec.getLsbD_extractLsb']
    simp only [BitVec.getLsbD_append, hi]
    simp
    try (intros; omega)
    try (split_ifs <;> first | omega | rfl | (congr 1; omega))

theorem ch_lt (p : Pixel) (c : Channel) : ch p c < 256 := (p.extractLsb' c.lo 8).isLt

theorem ch_zero (c : Channel) : ch 0 c = 0 := by cases c <;> rfl

/-- Pixels with the same four channels are the same. -/
theorem pixel_ext {p q : Pixel} (h : ∀ c, ch p c = ch q c) : p = q := by
  apply BitVec.eq_of_getLsbD_eq
  intro i hi
  have key (c : Channel) (j : Nat) (hj : j < 8) : p.getLsbD (c.lo + j) = q.getLsbD (c.lo + j) := by
    have e : p.extractLsb' c.lo 8 = q.extractLsb' c.lo 8 := BitVec.eq_of_toNat_eq (h c)
    simpa [hj] using congrArg (fun v => v.getLsbD j) e
  by_cases h1 : i < 8
  · simpa [Channel.lo] using key .R i h1
  by_cases h2 : i < 16
  · simpa [Channel.lo, show 8 + (i - 8) = i by omega] using key .G (i - 8) (by omega)
  by_cases h3 : i < 24
  · simpa [Channel.lo, show 16 + (i - 16) = i by omega] using key .B (i - 16) (by omega)
  · simpa [Channel.lo, show 24 + (i - 24) = i by omega] using key .A (i - 24) (by omega)

theorem sc_eq (f v : Nat) : sc f v = (f + 1) * v / 256 := by simp [sc, Nat.shiftRight_eq_div_pow]

/-- Every channel of `over` (R81, R82). -/
theorem ch_blendOver (dst src : Pixel) (c : Channel) : ch (blendOver dst src) c = overChannel dst src c % 256 := by
  unfold blendOver
  rw [ch_pack]
  cases c <;> rfl

/-- Every channel of `scale` before its reduction (R78). -/
theorem ch_scale_mod (f : Nat) (p : Pixel) (c : Channel) : ch (scale f p) c = sc f (ch p c) % 256 := by
  unfold scale
  rw [ch_pack]
  cases c <;> rfl

end Sys2Proof.Machine
end

