-- ==== Sys2Proof/Machine/Assembler.lean ====
section
/-! DEFINITION. The assembly language of the command set: one command per line R73, the pseudo-instructions R74, and programs for
several ports R75. -/

namespace Sys2Proof.Machine.Asm

/-- The mnemonics of R73 with their operand shapes. -/
def mnemonics : List (String × Shape) :=
  [("SET_PIXEL", .setPixel), ("SET_PIXEL_OVER", .setPixelOver), ("GET_PIXEL", .getPixel), ("SET_ALL", .setAll),
   ("FADE_OUT", .fadeOut), ("SHIFT_UP", .shiftUp), ("COMPOSITE", .composite), ("START_DRAWING", .startDrawing)]
  ++ [("DONE_DRAWING", .doneDrawing), ("WAIT_DRAWING_DONE", .waitDrawingDone), ("DONE_UPDATING", .doneUpdating),
   ("INIT", .init), ("UPDATE_FRAME", .updateFrame), ("SET_BRIGHTNESS", .setBrightness),
   ("SET_BRIGHTNESS_CAP", .setBrightnessCap), ("READ_REG", .readReg)]

/-- `CLEAR L<l>` (R74). -/
def clear (l : Nat) : List Instr := [.setAll l 0x00000000#32]

/-- `BLACK L<l>` (R74). -/
def black (l : Nat) : List Instr := [.setAll l 0xFF000000#32]

/-- `DRAW L<l>` with its body (R74). -/
def draw (l : Nat) (body : List Instr) : List Instr := .startDrawing l :: body ++ [.doneDrawing l]

/-- `FRAME` (R74); not the same as `UPDATE_FRAME`. -/
def frame : List Instr := [.waitDrawingDone, .doneUpdating]

/-- The words of commands whose operands fit; none is the assembler error of R73. -/
def assemble (is : List Instr) : Option (List Word) :=
  if is.all Instr.wf then some (is.flatMap encode) else none

/-! ### Text -/

/-- The value of a digit of base 10 or 16. -/
def digit (base : Nat) (c : Char) : Option Nat :=
  let v := if '0' ≤ c ∧ c ≤ '9' then some (c.toNat - 48)
    else if 'a' ≤ c ∧ c ≤ 'f' then some (c.toNat - 87)
    else if 'A' ≤ c ∧ c ≤ 'F' then some (c.toNat - 55)
    else none
  v.filter (· < base)

/-- The digits of a number after those of value `acc`. -/
def digits (base : Nat) : Nat → List Char → Option Nat
  | acc, [] => some acc
  | acc, c :: cs =>
    match digit base c with
    | some d => digits base (acc * base + d) cs
    | none => none

/-- A decimal or `0x` number (R73). -/
def natLit : List Char → Option Nat
  | [] => none
  | '0' :: 'x' :: c :: cs => digits 16 0 (c :: cs)
  | cs => digits 10 0 cs

/-- A coordinate, which may be negative (R73). -/
def intLit : List Char → Option Int
  | '-' :: cs => (natLit cs).map fun n => -(n : Int)
  | cs => (natLit cs).map fun n => (n : Int)

/-- A layer operand `L<l>` (R73). -/
def layerLit : List Char → Option Nat
  | 'L' :: cs => natLit cs
  | _ => none

/-- A `u32` operand: a colour or a raw word (R73). -/
def wordLit (cs : List Char) : Option Word :=
  (natLit cs).bind fun n => if n < 2 ^ 32 then some (BitVec.ofNat 32 n) else none

/-- Split at every `sep`. -/
def splitAt (sep : Char) : List Char → List (List Char)
  | [] => [[]]
  | c :: cs =>
    if c = sep then [] :: splitAt sep cs
    else match splitAt sep cs with
      | [] => [[c]]
      | t :: ts => (c :: t) :: ts

/-- The operands of a command: separated by commas, spaces dropped (R73). -/
def operands (cs : List Char) : List (List Char) :=
  match cs.filter (· ≠ ' ') with
  | [] => []
  | c :: rest => splitAt ',' (c :: rest)

/-- The command with these operand texts, in the forms of R73. -/
def command (shape : Shape) (ops : List (List Char)) : Option Instr :=
  match shape, ops with
  | .setPixel, [l, x, y, c] => do return .setPixel (← layerLit l) (← intLit x) (← intLit y) (← wordLit c)
  | .setPixelOver, [l, x, y, c] => do return .setPixelOver (← layerLit l) (← intLit x) (← intLit y) (← wordLit c)
  | .getPixel, [l, x, y] => do return .getPixel (← layerLit l) (← intLit x) (← intLit y)
  | .setAll, [l, c] => do return .setAll (← layerLit l) (← wordLit c)
  | .fadeOut, [l, f] => do return .fadeOut (← layerLit l) (← natLit f)
  | .shiftUp, [l, n] => do return .shiftUp (← layerLit l) (← natLit n)
  | .composite, [x, y] => do return .composite (← intLit x) (← intLit y)
  | .startDrawing, [l] => do return .startDrawing (← layerLit l)
  | .doneDrawing, [l] => do return .doneDrawing (← layerLit l)
  | .waitDrawingDone, [] => some .waitDrawingDone
  | .doneUpdating, [] => some .doneUpdating
  | .init, [b] => do return .init (← natLit b)
  | .updateFrame, [] => some .updateFrame
  | .setBrightness, [v] => do return .setBrightness (← natLit v)
  | .setBrightnessCap, [v] => do return .setBrightnessCap (← natLit v)
  | .readReg, [r] => do return .readReg (← natLit r)
  | _, _ => none

/-- The words of a line without port and comment: a command, a pseudo-instruction or `.word` (R73, R74). -/
def statement (cs : List Char) : Option (List Word) :=
  let cs := cs.dropWhile (· = ' ')
  let name := cs.takeWhile (· ≠ ' ')
  let ops := operands (cs.drop name.length)
  match mnemonics.find? fun m => m.1.toList == name with
  | some m => (command m.2 ops).bind fun i => assemble [i]
  | none =>
    if name = "CLEAR".toList then (ops.head?.bind layerLit).bind fun l => if ops.length = 1 then assemble (clear l) else none
    else if name = "BLACK".toList then
      (ops.head?.bind layerLit).bind fun l => if ops.length = 1 then assemble (black l) else none
    else if name = "FRAME".toList then (if ops = [] then assemble frame else none)
    else if name = ".word".toList then
      (ops.head?.bind wordLit).bind fun w => if ops.length = 1 then some [w] else none
    else none

/-- The text of a line without its comment and the spaces before it (R73). -/
def stripLine (text : String) : List Char := (text.toList.takeWhile (· ≠ ';')).dropWhile (· = ' ')

/-- The port of a line and the text after its `P<p>:` prefix (R75). A line without a prefix goes to port 0, DESIGN CHOICE
(log entry 22): R75 does not say which port it goes to. -/
def portPrefix (cs : List Char) : Option (Nat × List Char) :=
  match splitAt ':' cs with
  | [t] => some (0, t)
  | ['P' :: n, t] => (natLit n).map fun p => (p, t)
  | _ => none

/-- One line: its port and its words; nothing for a line that holds only a comment (R73, R75). None is an assembler
error. -/
def line (text : String) : Option (Nat × List Word) :=
  if stripLine text = [] then some (0, [])
  else (portPrefix (stripLine text)).bind fun pt => (statement pt.2).map fun ws => (pt.1, ws)

/-- The brace that opens a `DRAW` block. -/
def openBrace : Char := Char.ofNat 0x7B

/-- The brace that closes a `DRAW` block. -/
def closeBrace : Char := Char.ofNat 0x7D

/-- A line that opens a `DRAW` block: its port and layer (R74). -/
def drawOpen (text : String) : Option (Nat × Nat) :=
  (portPrefix (stripLine text)).bind fun pt =>
    let cs := pt.2.filter (· ≠ ' ')
    if cs.take 4 = "DRAW".toList ∧ cs.getLast? = some openBrace then
      (layerLit (cs.drop 4).dropLast).map fun l => (pt.1, l)
    else none

/-- A line that closes a `DRAW` block, on any port's prefix. -/
def drawClose (text : String) : Bool :=
  match portPrefix (stripLine text) with
  | some pt => decide (pt.2.filter (· ≠ ' ') = [closeBrace])
  | none => false

/-- The words of a program, line by line; `opened` holds the port and layer of each `DRAW` block still open, innermost first. A
block begins and ends on lines of its own (R74, log entry 19). -/
def program (opened : List (Nat × Nat)) : List String → Option (List (Nat × List Word))
  | [] => if opened = [] then some [] else none
  | text :: rest =>
    match drawOpen text with
    | some (p, l) =>
      (assemble [.startDrawing l]).bind fun ws => (program ((p, l) :: opened) rest).map ((p, ws) :: ·)
    | none =>
      if drawClose text then
        match opened with
        | [] => none
        | (p, l) :: outer =>
          (assemble [.doneDrawing l]).bind fun ws => (program outer rest).map ((p, ws) :: ·)
      else (line text).bind fun l => (program opened rest).map (l :: ·)

/-- The host's turns that write one line's words to its port (R75). -/
def lineTurns (l : Nat × List Word) : List Turn := l.2.map (.hostWrite l.1)

end Sys2Proof.Machine.Asm
end

