-- ==== Sys2Proof/Tests/Slice0.lean ====
section
/-! SUPPORT. Tests with expected values from the spec's test vectors (95_test_vectors.md), the smoke test of WellFormed, and for every
statement with hypotheses a witness that meets them. -/

namespace Sys2Proof.Tests

open Sys2Proof.Machine

/-! ### States to test on -/

/-- The configuration of the spec's vectors: `N = 2, W = 4, H = 4, L = 1, K = 2`. -/
def cfg2 : Config := { Config.reference with N := 2 }

/-- A block of configuration `c` after `INIT b`. -/
def ready (c : Config) (b : Nat) : State := (State.resetWith c).initialised b

/-- The state a result goes on with. -/
def nextOf : Result → Option State
  | .next t => some t
  | _ => none

/-- The last response of port 0 in the state a result goes on with. -/
def answer (r : Result) : Option Response := (nextOf r).bind fun t => (t.ports.head?).bind fun q => q.out.getLast?

/-- Pixel `i` of layer `l` in the state a result goes on with. -/
def pixelAfter (r : Result) (l i : Nat) : Option Pixel := (nextOf r).bind fun t => t.readLayer l i

/-- Port 0 has state `st`. -/
def withPort (s : State) (st : PortState) : State := s.updPort 0 fun q => { q with st := st }

/-- The words `ws` wait in port `p`'s FIFO. -/
def withWords (s : State) (p : Nat) (ws : List Word) : State := s.updPort p fun q => { q with inq := ws }

/-- The next turns are `ts`. -/
def withTurns (s : State) (ts : List Turn) : State := { s with agenda := ts }

/-! ### WellFormed -/

theorem test_wf_refuses_layer_16 :
    (Instr.setPixel 16 0 0 0).wf = false ∧ (Instr.setPixelOver 16 0 0 0).wf = false ∧
    (Instr.getPixel 16 0 0).wf = false ∧ (Instr.setAll 16 0).wf = false ∧ (Instr.fadeOut 16 0).wf = false ∧
    (Instr.shiftUp 16 0).wf = false ∧ (Instr.startDrawing 16).wf = false ∧ (Instr.doneDrawing 16).wf = false := by
  decide

theorem test_wf_refuses_coordinates_outside_i16 :
    (Instr.setPixel 0 (-32769) 0 0).wf = false ∧ (Instr.setPixel 0 0 32768 0).wf = false ∧
    (Instr.setPixelOver 0 32768 0 0).wf = false ∧ (Instr.getPixel 0 0 (-32769)).wf = false ∧
    (Instr.composite 32768 0).wf = false ∧ (Instr.composite 0 (-32769)).wf = false := by decide

theorem test_wf_refuses_wide_immediates :
    (Instr.fadeOut 0 256).wf = false ∧ (Instr.shiftUp 0 65536).wf = false ∧ (Instr.init 65536).wf = false ∧
    (Instr.setBrightness 65536).wf = false ∧ (Instr.setBrightnessCap 65536).wf = false ∧
    (Instr.readReg 65536).wf = false := by decide

/-! ### Decoding: words of the spec's programs and vectors -/

/-- P1 lines 5, 9 and P2 line 3, with a negative coordinate of P2 line 7. -/
theorem test_decode_pixel_commands :
    decode [0x00000001#32, 0x00020003#32, 0xFF0000FF#32] = .instr (.setPixel 0 3 2 0xFF0000FF#32) 3 ∧
    decode [0x00000101#32, 0x00010001#32, 0xC000C000#32] = .instr (.setPixel 1 1 1 0xC000C000#32) 3 ∧
    decode [0x00000001#32, 0x0000FFFF#32, 0xFFFFFFFF#32] = .instr (.setPixel 0 (-1) 0 0xFFFFFFFF#32) 3 ∧
    decode [0x00000002#32, 0x00010001#32, 0x80000080#32] = .instr (.setPixelOver 0 1 1 0x80000080#32) 3 ∧
    decode [0x00000003#32, 0x0000FFFF#32] = .instr (.getPixel 0 (-1) 0) 2 := by decide

/-- P1 line 3, P2 lines 12, 13 and P4 line 12. -/
theorem test_decode_layer_commands :
    decode [0x00000004#32, 0xFF000000#32] = .instr (.setAll 0 0xFF000000#32) 2 ∧
    decode [0x00800105#32] = .instr (.fadeOut 1 128) 1 ∧
    decode [0x00090006#32] = .instr (.shiftUp 0 9) 1 ∧
    decode [0x00000007#32, 0x00010001#32] = .instr (.composite 1 1) 2 := by decide

/-- P1 lines 6, 7, 10 and the opcodes of R66. -/
theorem test_decode_barrier_commands :
    decode [0x00000110#32] = .instr (.startDrawing 1) 1 ∧ decode [0x00000011#32] = .instr (.doneDrawing 0) 1 ∧
    decode [0x00000012#32] = .instr .waitDrawingDone 1 ∧ decode [0x00000013#32] = .instr .doneUpdating 1 := by decide

/-- P5 lines 4, 7, 8, 11 and P1 line 11. -/
theorem test_decode_panel_commands :
    decode [0x012C0020#32] = .instr (.init 300) 1 ∧ decode [0x00000021#32] = .instr .updateFrame 1 ∧
    decode [0x00070022#32] = .instr (.setBrightness 7) 1 ∧ decode [0x00010023#32] = .instr (.setBrightnessCap 1) 1 ∧
    decode [0x00040024#32] = .instr (.readReg 4) 1 := by decide

/-- V-X3, V-X4, V-X7, V-X12, and a command whose words have not all arrived. -/
theorem test_decode_refuses :
    decode [0x00000008#32, 0x00000001#32] = .illegal .reservedOpcode 1 ∧
    decode [0x00001001#32, 0#32, 0#32] = .illegal .mustBeZero 3 ∧
    decode [0x01000005#32] = .illegal .mustBeZero 1 ∧ decode [0x00000112#32] = .illegal .mustBeZero 1 ∧
    decode [0x00000001#32, 0x00020003#32] = .incomplete := by decide

/-- The table's numbering: bit 32 is bit 0 of the first argument word. -/
theorem test_decodeTableWord :
    decodeTableWord 96 0xFF0000FF_0002FFFF_00000001 = some (.setPixel 0 (-1) 2 0xFF0000FF#32) ∧
    decodeTableWord 32 0x00000001 = some (.setPixel 0 0 0 0#32) ∧ decodeTableWord 32 0x00000008 = none := by decide

theorem test_encode_words :
    encode (.setPixel 0 3 2 0xFF0000FF#32) = [0x00000001#32, 0x00020003#32, 0xFF0000FF#32] ∧
    encode (.getPixel 0 (-1) 0) = [0x00000003#32, 0x0000FFFF#32] ∧ encode (.fadeOut 1 128) = [0x00800105#32] := by
  decide

/-! ### The assembler: R73 to R75 -/

theorem test_assembler_line :
    Asm.line "P1: SET_PIXEL L0, -1, 2, 0xFF0000FF ; clipped" =
      some (1, [0x00000001#32, 0x0002FFFF#32, 0xFF0000FF#32]) ∧
    Asm.line "FRAME" = some (0, [0x00000012#32, 0x00000013#32]) ∧
    Asm.line ".word 0x00001001" = some (0, [0x00001001#32]) ∧
    Asm.line "SET_PIXEL L16, 0, 0, 0" = none ∧ Asm.line "FADE_OUT L0, 256" = none := by decide

theorem test_assembler_draw_block :
    Asm.program []
      ["P1: DRAW L1 " ++ String.singleton Asm.openBrace, "P1: CLEAR L1", "P1: " ++ String.singleton Asm.closeBrace] =
      some [(1, [0x00000110#32]), (1, [0x00000104#32, 0#32]), (1, [0x00000111#32])] := by decide

/-! ### Pixel arithmetic: V-S, V-O and gamma vectors -/

theorem test_scale :
    scale 255 0x80402010#32 = 0x80402010#32 ∧ scale 0 0xFFFFFFFF#32 = 0#32 ∧
    scale 128 0x80808080#32 = 0x40404040#32 ∧ scale 1 0xFF0000FF#32 = 0x01000001#32 ∧
    scale 254 0x01010101#32 = 0#32 ∧ scale 200 0x12345678#32 = 0x0E28435E#32 ∧
    scaleLanes 200 0x12345678#32 = 0x0E28435E#32 := by decide

theorem test_over :
    blendOver 0xFFFF0000#32 0xFF0000FF#32 = 0xFF0000FF#32 ∧ blendOver 0xFFFFFFFF#32 0x80000080#32 = 0xFF7F7FFF#32 ∧
    blendOver 0xFF000000#32 0xC000C000#32 = 0xFF00C000#32 ∧ blendOver 0x40302010#32 0x04030201#32 = 0x43332211#32 ∧
    blendOver 0xFFFFFFFF#32 0x00FF0000#32 = 0xFFFEFFFF#32 ∧
    blendOver 0x00C8C8C8#32 0x00808080#32 = 0x00484848#32 := by decide

theorem test_gamma_ref :
    ([0, 6, 7, 17, 18, 64, 127, 128, 192, 254, 255].map fun i => (gammaRef.getD i 0).toNat) =
      [0, 0, 1, 1, 2, 13, 54, 55, 134, 253, 255] := by decide

theorem test_lane_and_gamma_bits : gammaRGB Config.reference 0xFF4040D0#32 = 0x0D0DA1#24 := by decide

/-! ### Framebuffer commands: V-F vectors -/

/-- V-F1, V-F2. -/
theorem test_setPixel :
    pixelAfter (exec (.setPixel 0 3 2 0xFF0000FF#32) (ready cfg2 2)) 0 11 = some 0xFF0000FF#32 ∧
    pixelAfter (exec (.setPixel 0 (-1) 0 0xFFFFFFFF#32) (ready cfg2 2)) 0 0 = some 0#32 ∧
    answer (exec (.setPixel 0 4 0 0xFFFFFFFF#32) (ready cfg2 2)) = some ⟨.ok, 0⟩ := by decide

/-- V-F4. -/
theorem test_setPixelOver :
    pixelAfter (exec (.setPixelOver 0 1 1 0x80000080#32) ((ready cfg2 2).writeLayer 0 5 0xFF000000#32)) 0 5 =
      some 0xFF000080#32 ∧
    pixelAfter (exec (.setPixelOver 0 1 1 0x80000080#32) ((ready cfg2 2).writeLayer 0 5 0xFF000080#32)) 0 5 =
      some 0xFF0000C0#32 := by decide

/-- V-F3: column 0 holds 1 and column 3 holds 4. -/
theorem test_getPixel :
    answer (exec (.getPixel 0 (-1) 0) (((ready cfg2 2).writeLayer 0 0 1).writeLayer 0 3 4)) = some ⟨.ok, 0⟩ ∧
    answer (exec (.getPixel 0 (-1) 0)
      (((ready { cfg2 with oob := .wrap } 2).writeLayer 0 0 1).writeLayer 0 3 4)) = some ⟨.ok, 4⟩ ∧
    answer (exec (.getPixel 0 (-1) 0)
      (((ready { cfg2 with oob := .clamp } 2).writeLayer 0 0 1).writeLayer 0 3 4)) = some ⟨.ok, 1⟩ := by decide

/-- The first and the last step of R95. -/
theorem test_setAll :
    pixelAfter (exec (.setAll 1 0xFF000000#32) (ready cfg2 2)) 1 0 = some 0xFF000000#32 ∧
    (nextOf (exec (.setAll 1 0xFF000000#32) (ready cfg2 2))).map (·.portState 0) =
      some (.exec (.setAll 1 0xFF000000#32) 1 0) ∧
    answer (exec (.setAll 1 0xFF000000#32) (withPort (ready cfg2 2) (.exec (.setAll 1 0xFF000000#32) 15 0))) =
      some ⟨.ok, 0⟩ := by decide

/-- V-F6: the channels `0xFF` and `0x80` at factor 10, and the count of a pixel that was not zero. -/
theorem test_fadeOut :
    pixelAfter (exec (.fadeOut 0 10) ((ready cfg2 2).writeLayer 0 0 0xFFFFFFFF#32)) 0 0 = some 0xF5F5F5F5#32 ∧
    answer (exec (.fadeOut 0 10)
      (withPort ((ready cfg2 2).writeLayer 0 15 0x01000001#32) (.exec (.fadeOut 0 10) 15 2))) = some ⟨.ok, 3⟩ := by
  decide

/-- P4: a row moves up, and the bottom row is zero-filled. -/
theorem test_shiftUp :
    pixelAfter (exec (.shiftUp 0 1) ((ready cfg2 2).writeLayer 0 4 0xFF000002#32)) 0 0 = some 0xFF000002#32 ∧
    pixelAfter (exec (.shiftUp 0 1)
      (withPort ((ready cfg2 2).writeLayer 0 12 0xFF000004#32) (.exec (.shiftUp 0 1) 12 0))) 0 12 = some 0#32 := by
  decide

/-- V-F12, V-F14. -/
theorem test_composite :
    answer (exec (.composite 1 1)
      (((ready cfg2 2).writeLayer 0 5 0xFF0000C0#32).writeLayer 1 5 0x40404040#32)) = some ⟨.ok, 0x000D0DA1#32⟩ ∧
    answer (exec (.composite (-5) 100) (ready cfg2 2)) = some ⟨.ok, 0⟩ := by decide

/-! ### Barrier commands: V-B vectors -/

/-- V-B1, V-B2. -/
theorem test_startDrawing :
    (nextOf (exec (.startDrawing 0) (State.resetWith cfg2))).map (·.drawable) = some [false, true] ∧
    (nextOf (exec (.startDrawing 0) { State.resetWith cfg2 with drawable := [false, true] })).map (·.portState 0) =
      some (.held (.startDrawing 0) (.drawable 0)) ∧
    answer (exec (.startDrawing 0) { State.resetWith cfg2 with drawable := [false, true], alt := true }) =
      some ⟨.timeout, 0⟩ := by decide

/-- V-B3. -/
theorem test_doneDrawing :
    (nextOf (exec (.doneDrawing 1) (State.resetWith cfg2))).map (·.done) = some [false, true] := by decide

/-- V-B4, V-B5. -/
theorem test_waitDrawingDone :
    (nextOf (exec .waitDrawingDone { State.resetWith cfg2 with done := [true, true] })).map (·.done) =
      some [false, false] ∧
    answer (exec .waitDrawingDone { State.resetWith cfg2 with done := [true, false], alt := true }) =
      some ⟨.timeout, 0⟩ ∧
    (nextOf (exec .waitDrawingDone
      { State.resetWith { cfg2 with wddClear := false } with done := [true, false], alt := true })).map (·.done) =
      some [true, false] := by decide

/-- V-B6. -/
theorem test_doneUpdating :
    (nextOf (exec .doneUpdating { State.resetWith cfg2 with drawable := [false, false] })).map (·.drawable) =
      some [true, true] := by decide

/-! ### Panel: V-E, V-P and the schedule vectors -/

theorem test_schedule : buildSchedule 1 = [0] ∧ buildSchedule 3 = [0, 1, 2, 2, 1, 2, 2] := by decide

theorem test_oe_window :
    (oeStart 4 2, oeStop 4 2) = (1, 3) ∧ (oeStart 5 2, oeStop 5 2) = (1, 3) ∧ (oeStart 64 31, oeStop 64 31) = (16, 47) ∧
    (oeStart 128 126, oeStop 128 126) = (1, 127) := by decide

/-- V-E1 to V-E3, V-E5 and V-E4 at `k = 0, 2`. -/
theorem test_encodeWord :
    encodeWord cfg2 1 3 0x0000FF#24 0xFF0000#24 0 2 = 0x6121#16 ∧ encodeWord cfg2 0 1 0x000040#24 0 0 2 = 0x0001#16 ∧
    encodeWord cfg2 0 1 0x000040#24 0 1 2 = 0x0000#16 ∧ encodeWord cfg2 0 0 0 0 1 2 = 0x4000#16 ∧
    encodeWord { cfg2 with W := 64, H := 32, L := 4, K := 8 } 5 20 0x003CA5#24 0xFF0000#24 0 32 = 0x0521#16 ∧
    encodeWord { cfg2 with W := 64, H := 32, L := 4, K := 8 } 5 20 0x003CA5#24 0xFF0000#24 2 32 = 0x0523#16 := by decide

/-- V-P1, V-P2, and V-X8. -/
theorem test_init :
    (nextOf (exec (.init 2) (State.resetWith cfg2))).map (fun t => (List.range 8).map (t.readPlane 1)) =
      some ([0x4000#16, 0x0000#16, 0x0000#16, 0x6000#16, 0x4100#16, 0x0100#16, 0x0100#16, 0x6100#16].map some) ∧
    (nextOf (exec (.init 300) (State.resetWith cfg2))).map (fun t => (t.brightness, t.sched, t.status)) =
      some (2#16, [0, 1, 1], 0x00000305#32) ∧
    answer (exec (.init 2) { State.resetWith cfg2 with alt := true }) = some ⟨.fatal, 0⟩ := by decide

/-- V-P3, V-P5. -/
theorem test_brightness :
    answer (exec (.setBrightness 7) (ready cfg2 2)) = some ⟨.ok, 2⟩ ∧
    answer (exec (.setBrightnessCap 1) (ready cfg2 2)) = some ⟨.ok, 1⟩ := by decide

/-- The completing step of the wait samples `min(2, 1) = 1` (P5), and a second port holds (R126). -/
theorem test_updateFrame :
    (nextOf (exec .updateFrame
      { withPort (ready cfg2 2) (.held .updateFrame .allDone) with
        done := [true, true], brightnessCap := 1 })).map (fun t => (t.seqB, t.done, t.seqPhase)) =
      some (1, [false, false], .encode) ∧
    (nextOf (exec .updateFrame { ready cfg2 2 with seqOwner := some 1 })).map (·.portState 0) =
      some (.held .updateFrame .seqFree) := by decide

/-- P1: word 5 of plane 1 is `0x0102` and word 5 of plane 0 is `0x0100`, from green `0xC0` at `(1, 1)`. -/
theorem test_sequencer_encode :
    (nextOf (sequencerStep
      { (((ready cfg2 2).writeLayer 0 5 0xFF000000#32).writeLayer 1 5 0xC000C000#32) with
        seqOwner := some 0, seqPhase := .encode, seqY := 1, seqX := 1, seqB := 2 })).map
      (fun t => (t.readPlane 0 5, t.readPlane 1 5)) = some (some 0x0100#16, some 0x0102#16) := by decide

/-- P3: the release after a timed-out wait. -/
theorem test_sequencer_release :
    (nextOf (sequencerStep
      { ready cfg2 2 with
        drawable := [false, true], seqOwner := some 0, seqPhase := .release, seqTo := true })).map
      (fun t => (t.drawable, t.seqOwner)) = some ([true, true], none) ∧
    answer (sequencerStep { ready cfg2 2 with seqOwner := some 0, seqPhase := .release, seqTo := true }) =
      some ⟨.timeout, 0⟩ := by decide

/-- V-P7, V-P8, V-P9, V-X6. -/
theorem test_readReg :
    answer (exec (.readReg 3) (State.resetWith cfg2)) = some ⟨.ok, 0x00040004#32⟩ ∧
    answer (exec (.readReg 4) (State.resetWith cfg2)) = some ⟨.ok, 0x00000122#32⟩ ∧
    answer (exec (.readReg 0) (State.resetWith cfg2)) = some ⟨.ok, 0x00000300#32⟩ ∧
    answer (exec (.readReg 5) (State.resetWith cfg2)) = some ⟨.illegal, 0⟩ := by decide

/-- V-P6: the word of slot 0 at index 7, and the move to slot 1; from slot 2 the move is to slot 0. -/
theorem test_dma :
    (nextOf (dmaStep { ready cfg2 2 with dmaIdx := 7 })).map (fun t => (t.bus, t.dmaIdx, t.dmaSlot)) =
      some ([0x6100#16], 0, 1) ∧
    (nextOf (dmaStep { ready cfg2 2 with dmaIdx := 7, dmaSlot := 2 })).map (fun t => (t.dmaIdx, t.dmaSlot)) =
      some (0, 0) := by decide

/-! ### Checks and steps: V-X vectors -/

/-- V-X1, V-X2, V-X5, V-X9. -/
theorem test_checks :
    answer (exec (.setPixel 0 0 0 0) (State.resetWith cfg2)) = some ⟨.notReady, 0⟩ ∧
    answer (exec (.setPixel 9 0 0 0) (State.resetWith cfg2)) = some ⟨.illegal, 0⟩ ∧
    answer (exec (.init 1) (ready cfg2 2)) = some ⟨.illegal, 0⟩ ∧
    answer (exec (.startDrawing 0) { State.resetWith cfg2 with initState := .fatal }) = some ⟨.fatal, 0⟩ := by decide

/-- V-X3 and V-X4: one word and three words consumed. -/
theorem test_illegal_words_are_consumed :
    (nextOf (portStep 0 false (withWords (State.resetWith cfg2) 0 [0x00000008#32, 0x00000024#32]))).map
      (fun t => t.ports.map (·.inq.length)) = some [1, 0, 0, 0] ∧
    (nextOf (portStep 0 false (withWords (State.resetWith cfg2) 0 [0x00001001#32, 0#32, 0#32]))).map
      (fun t => t.ports.map (·.inq.length)) = some [0, 0, 0, 0] := by decide

/-- `withFetchWord` places one command, and the next step runs it: `READ_REG 3` from reset. -/
theorem test_withFetchWord :
    answer (step (State.reset.withFetchWord 32 0x00030024)) = some ⟨.ok, 0x00040004#32⟩ ∧
    answer (step (State.reset.withFetchWord 32 0x00000010)) = some ⟨.ok, 0⟩ := by decide

/-! ### Witnesses: concrete states and operands that meet every hypothesis of a statement -/

theorem gammaRef_valid :
    gammaRef.length = 256 ∧ (∀ i < 255, gammaRef.getD i 0 ≤ gammaRef.getD (i + 1) 0) ∧ gammaRef.getD 0 0 = 0 ∧
      gammaRef.getD 255 0 = 255 := by decide +kernel

/-- The vectors' configuration is admitted with every out-of-bounds policy and every choice of clearing. -/
theorem cfg2_valid (oob : OobPolicy) (clear alloc : Bool) :
    ({ cfg2 with oob := oob, wddClear := clear, allocCanFail := alloc } : Config).Valid where
  n_pos := by show 1 ≤ 2; decide
  n_le := by show 2 ≤ 8; decide
  w_ge := by show 2 ≤ 4; decide
  w_le := by show 4 ≤ 32767; decide
  h_ge := by show 2 ≤ 4; decide
  h_le := by show 4 ≤ 32767; decide
  h_even := by show 4 % 2 = 0; decide
  l_le := by show 1 ≤ 5; decide
  rows_fit := by show 4 / 2 ≤ 2 ^ 1; decide
  k_pos := by show 1 ≤ 2; decide
  k_le := by show 2 ≤ 8; decide
  gamma_length := gammaRef_valid.1
  gamma_mono := gammaRef_valid.2.1
  gamma_zero := gammaRef_valid.2.2.1
  gamma_full := gammaRef_valid.2.2.2
  nports_pos := by show 1 ≤ 4; decide
  named_distinct := by show cfg2.namedPositions.Nodup; decide
  named_le := by show ∀ b ∈ cfg2.namedPositions, b ≤ 15; decide
  bits_distinct := by show cfg2.bitPositions.Nodup; decide
  bits_le := by show ∀ b ∈ cfg2.bitPositions, b ≤ 15; decide
  wrap_pow2 := fun _ => ⟨⟨2, rfl⟩, ⟨2, rfl⟩⟩

theorem reset_portState (c : Config) (p : Nat) : (State.resetWith c).portState p = .idle := by
  simp only [State.portState, State.resetWith, List.getElem?_replicate]
  split_ifs <;> rfl

/-- A block after a successful `INIT` meets the invariant. -/
theorem ready_inv {c : Config} (h : c.Valid) (b : Nat) : BlockInv (ready c b) := by
  have hw := h.w_le
  have hw2 := h.w_ge
  have hb : (clampBrightness c b).toNat ≤ c.W - 2 := by
    unfold clampBrightness
    rw [BitVec.toNat_ofNat, Nat.mod_eq_of_lt] <;> omega
  have hcap : (BitVec.ofNat 16 (c.W - 2)).toNat ≤ c.W - 2 := by
    rw [BitVec.toNat_ofNat, Nat.mod_eq_of_lt]
    omega
  exact
    { cfg_valid := h
      ports_length := by simp [ready, State.initialised, State.resetWith]
      drawable_length := by simp [ready, State.initialised, State.resetWith]
      done_length := by simp [ready, State.initialised, State.resetWith]
      brightness_le := hb
      cap_le := hcap
      layer_wf := wf_filled _ _
      plane_wf := wf_filled _ _
      layer_bound := fun a ha => by
        have ha : ((Memory.filled (c.N * c.pixels) fun _ => (0 : Pixel)).read a).isSome := ha
        rw [read_filled] at ha
        split_ifs at ha with e
        · exact e
        · exact absurd ha (by simp)
      plane_bound := fun a ha => by
        have ha : ((Memory.filled (c.K * c.planeWords) (blankWord c (clampBrightness c b).toNat)).read a).isSome := ha
        rw [read_filled] at ha
        split_ifs at ha with e
        · exact e
        · exact absurd ha (by simp)
      no_value := fun hn => absurd rfl hn
      layer_full := fun _ l hl i hi => by
        show ((Memory.filled (c.N * c.pixels) fun _ => (0 : Pixel)).read (layerAddr c l i)).isSome
        rw [read_filled, if_pos (layerAddr_lt (c := c) hl hi)]
        rfl
      plane_full := fun _ k hk j hj => by
        show ((Memory.filled (c.K * c.planeWords) (blankWord c (clampBrightness c b).toNat)).read
          (planeAddr c k j)).isSome
        rw [read_filled, if_pos (planeAddr_lt (c := c) hk hj)]
        rfl
      sched_built := fun _ => ⟨rfl, rfl⟩
      slot_lt := slots_pos h
      idx_lt := planeWords_pos h
      seq_y_lt := rowPairs_pos h
      seq_x_lt := by show 0 < c.W; omega
      seq_b_le := Nat.zero_le _
      owner_ok := fun p hp => nomatch hp
      ports_ok := fun p _ => by
        show PortOk _ p ((State.resetWith c).portState p)
        rw [reset_portState]
        trivial }

theorem ready2_inv : BlockInv (ready cfg2 2) := ready_inv (cfg2_valid .zero true true) 2

/-- A block before `INIT` or after a failed one meets the invariant. -/
theorem unready2_inv {st : InitState} (h : st ≠ .ready) : BlockInv { State.resetWith cfg2 with initState := st } :=
  { cfg_valid := cfg2_valid .zero true true
    ports_length := rfl
    drawable_length := rfl
    done_length := rfl
    brightness_le := Nat.zero_le _
    cap_le := by show 2 ≤ 4 - 2; decide
    layer_wf := wf_nil
    plane_wf := wf_nil
    layer_bound := fun a ha => nomatch ha
    plane_bound := fun a ha => nomatch ha
    no_value := fun _ => ⟨rfl, rfl, rfl, rfl⟩
    layer_full := fun hr => absurd hr h
    plane_full := fun hr => absurd hr h
    sched_built := fun hr => absurd hr h
    slot_lt := by show 0 < 2 ^ 2 - 1; decide
    idx_lt := by show 0 < 4 * 4 / 2; decide
    seq_y_lt := by show 0 < 4 / 2; decide
    seq_x_lt := by show 0 < 4; decide
    seq_b_le := Nat.zero_le _
    owner_ok := fun p hp => nomatch hp
    ports_ok := fun p _ => by
      show PortOk _ p ((State.resetWith cfg2).portState p)
      rw [reset_portState]
      trivial }

/-- A block whose `INIT` failed. -/
def fatal : State := { State.resetWith cfg2 with initState := .fatal }

theorem fatal_inv : BlockInv fatal := unready2_inv (by decide)

theorem reset2_inv : BlockInv (State.resetWith cfg2) := unready2_inv (st := .uninit) (by decide)

theorem withTurns_inv {s : State} (h : BlockInv s) (ts : List Turn) : BlockInv (withTurns s ts) := { h with }

theorem withWords_inv {s : State} (h : BlockInv s) (p : Nat) (ws : List Word) : BlockInv (withWords s p ws) :=
  blockInv_updPort_keep h p fun _ => rfl

theorem withFlags_inv {s : State} (h : BlockInv s) {drawable done : List Bool} (h1 : drawable.length = s.cfg.N)
    (h2 : done.length = s.cfg.N) : BlockInv { s with drawable := drawable, done := done } :=
  { h with
    drawable_length := h1
    done_length := h2 }

/-- `UPDATE_FRAME` of port 0 in the phase `ph` at row pair `y`, column `x`. -/
def framing (ph : SeqPhase) (y x : Nat) : State :=
  { ready cfg2 2 with
    seqOwner := some 0
    seqPhase := ph
    seqY := y
    seqX := x
    drawable := [false, false]
    ports := (List.replicate 4 Port.reset).set 0
      ⟨[], match ph with
        | .wait => .held .updateFrame .allDone
        | .encode => .exec .updateFrame (y * 4 + x) 0
        | .release => .exec .updateFrame 8 0, []⟩ }

theorem framing_inv (ph : SeqPhase) {y x : Nat} (hy : y < 2) (hx : x < 4) : BlockInv (framing ph y x) :=
  { ready2_inv with
    drawable_length := rfl
    ports_length := rfl
    seq_y_lt := by show y < 4 / 2; omega
    seq_x_lt := hx
    owner_ok := fun p hp => by
      cases hp
      refine ⟨rfl, by show 0 < 4; decide, ?_⟩
      cases ph
      · rfl
      · rfl
      · show PortState.exec .updateFrame 8 0 = .exec .updateFrame (4 * 4 / 2) 0
        rfl
    ports_ok := fun p hp => by
      match p, hp with
      | 0, _ =>
        cases ph
        · exact .inr (.inr (.inr ⟨rfl, rfl, rfl, rfl⟩))
        · exact ⟨rfl, .inr ⟨rfl, rfl⟩⟩
        · exact ⟨rfl, .inr ⟨rfl, rfl⟩⟩
      | 1, _ => trivial
      | 2, _ => trivial
      | 3, _ => trivial }

/-- A ready block whose port 0 holds on a `START_DRAWING L0` of a layer that is not drawable. -/
def holding : State :=
  withPort { ready cfg2 2 with drawable := [false, true], done := [false, false] } (.held (.startDrawing 0) (.drawable 0))

theorem holding_inv : BlockInv holding :=
  blockInv_updPort_set (withFlags_inv ready2_inv rfl rfl) (fun _ => rfl) (by decide) (.inl ⟨0, rfl, rfl, by decide⟩)
    fun e => nomatch e

/-! #### Encoding -/

theorem witness_EncodedCommandDecodesToItself :
    (Instr.setPixel 15 (-32768) 32767 0xFFFFFFFF#32).wf = true ∧ (Instr.fadeOut 15 255).wf = true ∧
    (Instr.shiftUp 0 65535).wf = true := by decide

theorem witness_DecodedCommandEncodesBackToItsWords :
    decode [0x00000F01#32, 0x7FFF8000#32, 0xFFFFFFFF#32] = .instr (.setPixel 15 (-32768) 32767 0xFFFFFFFF#32) 3 := by
  decide

/-- Each range of reserved opcodes at its ends, and a must-be-zero bit of a three-word row. -/
theorem witness_IllegalEncodingsAreRefusedAtTheirLength :
    (∀ o ∈ [0x00#8, 0x08#8, 0x0F#8, 0x14#8, 0x1F#8, 0x25#8, 0xFF#8],
      o = 0x00#8 ∨ (0x08#8 ≤ o ∧ o ≤ 0x0F#8) ∨ (0x14#8 ≤ o ∧ o ≤ 0x1F#8) ∨ 0x25#8 ≤ o) ∧
    (∃ r ∈ opTable, opcodeField 0x00001001#32 = opcodeField r.fixed ∧ r.words ≤ [0#32, 0#32].length + 1 ∧
      0x00001001#32 &&& r.mask ≠ r.fixed) := by decide

theorem witness_CommandLengthDependsOnTheOpcodeByteAlone :
    opcodeField 0x00000001#32 = opcodeField 0xFFFFFF01#32 ∧ [0#32, 0#32].length = [1#32, 2#32].length := by decide

theorem witness_LaterWordsDoNotChangeACommand : decode [0x00000012#32] ≠ .incomplete := by decide

theorem witness_OpcodeRowsAreDisjoint :
    ∃ r ∈ opTable, (0x00000F01#32 : Word) &&& r.mask = r.fixed := by decide

/-! #### Steps -/

theorem witness_IdlePortStepRunsTheDecodedCommand :
    let s := withWords (withTurns (ready cfg2 2) [.port 0 false]) 0 [0x00000110#32]
    s.nextTurn = .port 0 false ∧ ∃ q, s.ports[0]? = some q ∧ q.st = .idle ∧ decode q.inq = .instr (.startDrawing 1) 1 :=
  ⟨rfl, _, rfl, rfl, by decide⟩

theorem witness_BusyPortStepContinuesItsCommand :
    (∃ q, (withTurns holding [.port 0 true]).ports[0]? = some q ∧ q.st = .held (.startDrawing 0) (.drawable 0)) ∧
    ∃ q, (withPort (ready cfg2 2) (.exec (.setAll 0 0) 15 0)).ports[0]? = some q ∧ q.st = .exec (.setAll 0 0) 15 0 :=
  ⟨⟨_, rfl, rfl⟩, _, rfl, rfl⟩

theorem witness_IllegalEncodingIsConsumedAndPartialCommandWaits :
    (∃ q, (withWords (ready cfg2 2) 0 [0x00001001#32, 0#32, 0#32]).ports[0]? = some q ∧ q.st = .idle ∧
      decode q.inq = .illegal .mustBeZero 3) ∧
    ∃ q, (withWords (ready cfg2 2) 0 [0x00000001#32]).ports[0]? = some q ∧ q.st = .idle ∧ decode q.inq = .incomplete :=
  ⟨⟨_, rfl, rfl, by decide⟩, _, rfl, rfl, by decide⟩

theorem witness_OtherAgentsTurnsRunTheirSteps :
    ∀ turn ∈ [Turn.sequencer, .dma, .hostWrite 0 1, .hostRead 3], (withTurns State.reset [turn]).nextTurn = turn := by
  intro turn _
  rfl

theorem witness_ExternalResetGivesTheResetValues : (withTurns (ready cfg2 2) [.reset]).nextTurn = .reset := rfl

theorem witness_ResetStateMeetsTheInvariant : cfg2.Valid := cfg2_valid .zero true true

theorem witness_StepNeverStopsAndKeepsTheInvariant : BlockInv holding ∧ BlockInv (framing .encode 1 3) :=
  ⟨holding_inv, framing_inv .encode (by decide) (by decide)⟩

theorem witness_NoStepChangesTheConfiguration : ∃ t, step (withTurns State.reset [.hostWrite 0 0]) = .next t :=
  ⟨_, rfl⟩

theorem witness_PortStepLeavesOtherPortsAndRespondsAtMostOnce :
    let s := withWords (withTurns (ready cfg2 2) [.port 1 false]) 1 [0x00000024#32]
    s.nextTurn = .port 1 false ∧ (∃ t, step s = .next t) ∧ (0 : Nat) ≠ 1 ∧ ∃ old, s.ports[1]? = some old :=
  ⟨rfl, ⟨_, rfl⟩, by decide, _, rfl⟩

theorem witness_ChecksAnswerInTheirOrder :
    (State.resetWith cfg2).actorState = .idle ∧
    (fatal.actorState = .idle ∧ fatal.initState = .fatal ∧ isReadReg (.startDrawing 9) = false ∧
      isReadReg (.readReg 5) = true ∧ operandBad fatal.cfg (.readReg 5)) ∧
    operandBad cfg2 (.setPixel 2 0 0 0) ∧
    (isInit (.init 1) = true ∧ (ready cfg2 2).initState = .ready ∧ (ready cfg2 2).actorState = .idle) ∧
    needsReady (.setPixel 1 0 0 0) = true ∧ (State.resetWith cfg2).initState = .uninit ∧
    ¬operandBad cfg2 (.setPixel 1 0 0 0) := by
  refine ⟨rfl, ⟨rfl, rfl, rfl, rfl, .inr ⟨5, rfl, le_rfl⟩⟩, .inl ⟨2, rfl, le_rfl⟩, ⟨rfl, rfl, rfl⟩, rfl, rfl, ?_⟩
  rintro (⟨l, h, h'⟩ | ⟨r, h, _⟩)
  · cases h
    exact absurd h' (by decide)
  · cases h

theorem witness_InitStateChangesOnlyByInitOrReset :
    let s := withWords (withTurns (State.resetWith cfg2) [.port 0 false]) 0 [0x00020020#32]
    ∃ t, step s = .next t ∧ t.initState ≠ s.initState :=
  ⟨_, rfl, by decide⟩

theorem witness_FatalBlockKeepsItsStorageUntilReset :
    let s := withWords (withTurns fatal [.port 0 false]) 0 [0x00000004#32, 0]
    BlockInv s ∧ s.initState = .fatal ∧ s.nextTurn ≠ .reset ∧ ∃ t, step s = .next t :=
  ⟨withWords_inv (withTurns_inv fatal_inv _) _ _, rfl, by decide, _, rfl⟩

/-! #### Pixel arithmetic -/

theorem witness_ScaleProperties :
    (0 : Nat) ≤ 255 ∧ (254 : Nat) ≤ 255 ∧ (3 : Nat) ≤ 7 ∧ Premultiplied 0x80402010#32 := by decide

theorem witness_LaneFormOfScaleAgrees : (255 : Nat) ≤ 255 := by decide

theorem witness_OverWrapsPerChannelAndKeepsPremultiplied :
    Premultiplied 0xFFFFFFFF#32 ∧ Premultiplied 0x80000080#32 := by decide

theorem witness_OverIdentities :
    Premultiplied 0xFFFF0000#32 ∧ Premultiplied 0xFF0000FF#32 ∧ ch 0xFF0000FF#32 .A = 255 := by decide

theorem witness_FadingReachesZero :
    (1 : Nat) ≤ 1 ∧ (1 : Nat) ≤ 255 ∧ 0 < ch 0x01000000#32 .A ∧ (255 : Nat) ≤ 255 := by decide

theorem witness_PremultipliedLayersStayPremultiplied :
    let s := withWords (withTurns (ready cfg2 2) [.port 0 false]) 0 [0x00000001#32, 0x00020003#32, 0xFF0000FF#32]
    BlockInv s ∧ LayersPremultiplied s ∧
      (∀ i color, nextCommand s = some i → colorOperand i = some color → Premultiplied color) ∧
      ∃ t, step s = .next t := by
  refine ⟨withWords_inv (withTurns_inv ready2_inv _) _ _, fun a p hp => ?_, fun i color hi hc => ?_, _, rfl⟩
  · have hp : (Memory.filled (cfg2.N * cfg2.pixels) fun _ => (0 : Pixel)).read a = some p := hp
    rw [read_filled] at hp
    split_ifs at hp
    cases hp
    decide
  · have e : i = .setPixel 0 3 2 0xFF0000FF#32 := by
      have : some (Instr.setPixel 0 3 2 0xFF0000FF#32) = some i := Eq.trans (by decide) hi
      exact (Option.some.inj this).symm
    subst e
    cases hc
    decide

/-! #### Layer storage -/

theorem witness_ElementsAreDistinctAndBytesLittleEndian :
    15 < cfg2.pixels ∧ 7 < cfg2.planeWords ∧ layerAddr cfg2 1 15 = layerAddr cfg2 1 15 ∧
    planeAddr cfg2 1 7 = planeAddr cfg2 1 7 ∧
    ((ready cfg2 2).writeLayer 1 15 0x80402010#32).readLayer 1 15 = some 0x80402010#32 ∧
    (ready cfg2 2).readPlane 1 7 = some 0x6100#16 := by decide

/-- A pixel in bounds, with a neighbour that stays; and the first element of layer 1 by `SET_ALL`. -/
theorem witness_LayerStepsWriteAtMostOneElement :
    (let s := withWords (withTurns (ready cfg2 2) [.port 0 false]) 0 [0x00000001#32, 0x00020003#32, 0xFF0000FF#32]
     BlockInv s ∧ s.nextTurn ≠ .reset ∧ (∀ b, nextCommand s ≠ some (.init b)) ∧ writtenElement s = some 11 ∧
      ∃ t, step s = .next t ∧ t.layer ≠ s.layer) ∧
    (let s := withWords (withTurns (ready cfg2 2) [.port 0 false]) 0 [0x00000104#32, 0xFF0000FF#32]
     BlockInv s ∧ s.nextTurn ≠ .reset ∧ (∀ b, nextCommand s ≠ some (.init b)) ∧ writtenElement s = some 16 ∧
      ∃ t, step s = .next t ∧ t.layer ≠ s.layer) :=
  ⟨⟨withWords_inv (withTurns_inv ready2_inv _) _ _, by decide, fun _ => (nomatch ·), by decide, _, rfl, by decide⟩,
    withWords_inv (withTurns_inv ready2_inv _) _ _, by decide, fun _ => (nomatch ·), by decide, _, rfl, by decide⟩

/-! #### Framebuffer commands -/

/-- In bounds at the last pixel, and out of bounds on each side. -/
theorem witness_SetPixelWritesTheElementInBounds :
    (ready cfg2 2).initState = .ready ∧ 1 < (ready cfg2 2).cfg.N ∧ (ready cfg2 2).layer.wf ∧ inb cfg2 3 3 ∧
      ¬inb cfg2 4 0 ∧ ¬inb cfg2 (-1) 0 ∧ ¬inb cfg2 0 4 ∧ ¬inb cfg2 0 (-1) :=
  ⟨rfl, by decide, ready2_inv.layer_wf, by decide, by decide, by decide, by decide, by decide⟩

theorem witness_SetPixelOverBlendsTheElementInBounds :
    (ready cfg2 2).initState = .ready ∧ 1 < (ready cfg2 2).cfg.N ∧ (ready cfg2 2).layer.wf ∧ inb cfg2 3 3 ∧
      (ready cfg2 2).readLayer 1 (Int.toNat 3 + Int.toNat 3 * cfg2.W) = some 0#32 ∧ ¬inb cfg2 (-1) 3 :=
  ⟨rfl, by decide, ready2_inv.layer_wf, by decide, by decide, by decide⟩

theorem witness_GetPixelReadsByThePolicy (oob : OobPolicy) :
    let s := ready { cfg2 with oob := oob } 2
    BlockInv s ∧ s.initState = .ready ∧ 1 < s.cfg.N ∧ fitsCoord (-32768) ∧ fitsCoord 32767 ∧ ¬inb s.cfg (-32768) 32767 ∧
      inb s.cfg 3 0 ∧ s.cfg.oob = oob :=
  ⟨ready_inv (cfg2_valid oob true true) 2, rfl, by show 1 < 2; decide, by decide, by decide,
    by show ¬inb cfg2 _ _; decide, by show inb cfg2 _ _; decide, rfl⟩

theorem witness_CompositeRespondsTheDisplayColor :
    BlockInv (ready cfg2 2) ∧ (ready cfg2 2).initState = .ready ∧ fitsCoord (-5) ∧ fitsCoord 100 ∧
      ∀ l < cfg2.N, (ready cfg2 2).readPix l (-5) 100 = some 0 :=
  ⟨ready2_inv, rfl, by decide, by decide, by decide⟩

theorem witness_SetAllStepWritesOneElement :
    let s := withPort (ready cfg2 2) (.exec (.setAll 1 7) 15 0)
    s.initState = .ready ∧ 1 < s.cfg.N ∧ s.layer.wf ∧ bulkAt s = (15, 0) ∧ bulkAt (ready cfg2 2) = (0, 0) :=
  ⟨rfl, by decide, ready2_inv.layer_wf, rfl, rfl⟩

theorem witness_FadeOutStepScalesAndCountsOneElement :
    let s := (ready cfg2 2).writeLayer 1 0 0xFFFFFFFF#32
    s.initState = .ready ∧ 1 < s.cfg.N ∧ s.layer.wf ∧ s.readLayer 1 (bulkAt s).1 = some 0xFFFFFFFF#32 ∧
      (ready cfg2 2).readLayer 1 (bulkAt (ready cfg2 2)).1 = some 0 :=
  ⟨rfl, by decide, (blockInv_writeLayer ready2_inv rfl (by decide) (by decide) _).layer_wf, by decide, by decide⟩

theorem witness_ShiftUpStepMovesOneElement :
    let s := ready cfg2 2
    s.initState = .ready ∧ 1 < s.cfg.N ∧ s.layer.wf ∧ ((bulkAt s).1 / s.cfg.W + 3 < s.cfg.H) ∧
      s.readLayer 1 ((bulkAt s).1 + 3 * s.cfg.W) = some 0 ∧ ¬((bulkAt s).1 / s.cfg.W + 4 < s.cfg.H) :=
  ⟨rfl, by decide, ready2_inv.layer_wf, by decide, by decide, by decide⟩

/-- A ready block whose port 1 alone steps, with the words `ws` in its FIFO. -/
def solo (ws : List Word) : State := withWords (withTurns (ready cfg2 2) (soloAgenda 1 16 [.dma])) 1 ws

theorem solo_inv (ws : List Word) : BlockInv (solo ws) := withWords_inv (withTurns_inv ready2_inv _) _ _

theorem witness_SetAllRunFillsTheLayer :
    let s := solo (encode (.setAll 1 7) ++ [0x00000012#32])
    BlockInv s ∧ s.initState = .ready ∧ 1 < s.cfg.N ∧ s.agenda = soloAgenda 1 s.cfg.pixels [.dma] ∧
      PortAt s 1 (encode (.setAll 1 7) ++ [0x00000012#32]) [] :=
  ⟨solo_inv _, rfl, by decide, rfl, rfl⟩

theorem witness_FadeOutRunScalesTheLayerAndCounts :
    let s := solo (encode (.fadeOut 1 255) ++ [])
    BlockInv s ∧ s.initState = .ready ∧ 1 < s.cfg.N ∧ (255 : Nat) ≤ 255 ∧
      s.agenda = soloAgenda 1 s.cfg.pixels [.dma] ∧ PortAt s 1 (encode (.fadeOut 1 255) ++ []) [] :=
  ⟨solo_inv _, rfl, by decide, le_rfl, rfl, rfl⟩

theorem witness_ShiftUpRunScrollsTheLayer :
    let s := solo (encode (.shiftUp 1 65535) ++ [])
    BlockInv s ∧ s.initState = .ready ∧ 1 < s.cfg.N ∧ fitsImm 65535 ∧
      s.agenda = soloAgenda 1 s.cfg.pixels [.dma] ∧ PortAt s 1 (encode (.shiftUp 1 65535) ++ []) [] :=
  ⟨solo_inv _, rfl, by decide, le_rfl, rfl, rfl⟩

/-! #### Barrier commands -/

/-- An idle port on a drawable layer, a held port on a layer that is not, with and without the timeout. -/
theorem witness_StartDrawingTakesTheLayerOrWaits :
    (let s := State.resetWith cfg2
     1 < s.cfg.N ∧ s.actorState = .idle ∧ s.initState ≠ .fatal ∧ s.drawableAt 1 = true) ∧
    (0 < holding.cfg.N ∧ holding.actorState = .held (.startDrawing 0) (.drawable 0) ∧ holding.drawableAt 0 = false ∧
      holding.alt = false ∧ { holding with alt := true }.alt = true) := by decide

theorem witness_DoneDrawingSetsTheDoneFlag :
    1 < (State.resetWith cfg2).cfg.N ∧ (State.resetWith cfg2).initState ≠ .fatal ∧
      (State.resetWith cfg2).done.length = (State.resetWith cfg2).cfg.N := by decide

theorem witness_WaitDrawingDoneTestsAndClears :
    (let s := { State.resetWith cfg2 with done := [true, true] }
     s.actorState = .idle ∧ s.initState ≠ .fatal ∧ ∀ l < s.cfg.N, s.doneAt l = true) ∧
    (let s := withPort (State.resetWith cfg2) (.held .waitDrawingDone .allDone)
     s.actorState = .held .waitDrawingDone .allDone ∧ (∃ l < s.cfg.N, s.doneAt l = false) ∧ s.alt = false ∧
      { s with alt := true }.alt = true) := by decide

theorem witness_DoneUpdatingReleasesEveryLayer : (State.resetWith cfg2).initState ≠ .fatal := by decide

/-- Ports 0 and 1 issue `START_DRAWING L0`. -/
def racing : State :=
  withWords (withWords (withTurns (ready cfg2 2) [.port 0 false, .port 1 false]) 0 (encode (.startDrawing 0) ++ [])) 1
    (encode (.startDrawing 0) ++ [])

theorem witness_RacingProducersGetTheLayerOnce :
    (0 : Nat) ≠ 1 ∧ BlockInv racing ∧ racing.initState ≠ .fatal ∧ 0 < racing.cfg.N ∧ racing.drawableAt 0 = true ∧
      PortAt racing 0 (encode (.startDrawing 0) ++ []) [] ∧ PortAt racing 1 (encode (.startDrawing 0) ++ []) [] ∧
      racing.agenda = .port 0 false :: .port 1 false :: [] :=
  ⟨by decide, withWords_inv (withWords_inv (withTurns_inv ready2_inv _) _ _) _ _, by decide, by decide, by decide, rfl,
    rfl, rfl⟩

/-- A ready block with the flags given, port 0's FIFO holding `ws`, port 0 stepping next. -/
def flagged (drawable done : List Bool) (ws : List Word) : State :=
  withWords (withTurns { ready cfg2 2 with drawable := drawable, done := done } [.port 0 false]) 0 ws

theorem flagged_inv (a b c d : Bool) (ws : List Word) : BlockInv (flagged [a, b] [c, d] ws) :=
  withWords_inv (withTurns_inv (withFlags_inv ready2_inv rfl rfl) _) _ _

/-- `DONE_UPDATING` raises `DRAWABLE[1]`, `START_DRAWING` lowers it, `DONE_DRAWING` raises `DONE[1]`, the wait lowers it. -/
theorem witness_BarrierFlagsChangeOnlyByTheirCommands :
    (let s := flagged [false, false] [false, false] [0x00000013#32]
     BlockInv s ∧ s.drawableAt 1 = false ∧ ∃ t, step s = .next t ∧ t.drawableAt 1 = true) ∧
    (let s := flagged [true, true] [false, false] [0x00000110#32]
     BlockInv s ∧ s.drawableAt 1 = true ∧ ∃ t, step s = .next t ∧ t.drawableAt 1 = false) ∧
    (let s := flagged [true, true] [false, false] [0x00000111#32]
     BlockInv s ∧ s.doneAt 1 = false ∧ ∃ t, step s = .next t ∧ t.doneAt 1 = true) ∧
    (let s := flagged [true, true] [true, true] [0x00000012#32]
     BlockInv s ∧ s.doneAt 1 = true ∧ ∃ t, step s = .next t ∧ t.doneAt 1 = false) :=
  ⟨⟨flagged_inv _ _ _ _ _, by decide, _, rfl, by decide⟩, ⟨flagged_inv _ _ _ _ _, by decide, _, rfl, by decide⟩,
    ⟨flagged_inv _ _ _ _ _, by decide, _, rfl, by decide⟩, flagged_inv _ _ _ _ _, by decide, _, rfl, by decide⟩

/-- Port 1 issues `START_DRAWING L0` while port 0's frame is encoded. -/
theorem witness_NoProducerStartsWhileAFrameIsEncoded :
    let s := withWords (withTurns (framing .encode 1 3) [.port 1 true]) 1 [0x00000010#32]
    BlockInv s ∧ s.seqOwner ≠ none ∧ s.seqPhase ≠ .wait ∧ (∀ l < s.cfg.N, s.drawableAt l = false) ∧
      (∃ t, step s = .next t) ∧ s.nextTurn ≠ .reset ∧ nextCommand s ≠ some .doneUpdating ∧
      ¬(s.nextTurn = .sequencer ∧ s.seqPhase = .release) ∧ s.nextTurn = .port 1 true ∧
      nextCommand s = some (.startDrawing 0) :=
  ⟨withWords_inv (withTurns_inv (framing_inv .encode (by decide) (by decide)) _) _ _, by decide, by decide, by decide,
    ⟨_, rfl⟩, by decide, by decide, by decide, rfl, by decide⟩

theorem witness_HeldBarrierWaitEndsWithItsTimeout :
    (let s := withTurns holding [.port 0 true]
     BlockInv s ∧ s.nextTurn = .port 0 true ∧ s.portState 0 = .held (.startDrawing 0) (.drawable 0) ∧
      Cond.drawable 0 ≠ .seqFree) ∧
    (let s := withTurns (framing .wait 0 0) [.port 0 true]
     BlockInv s ∧ s.nextTurn = .port 0 true ∧ s.portState 0 = .held .updateFrame .allDone ∧ Cond.allDone ≠ .seqFree) :=
  ⟨⟨withTurns_inv holding_inv _, rfl, rfl, by decide⟩,
    withTurns_inv (framing_inv .wait (by decide) (by decide)) _, rfl, rfl, by decide⟩

/-! #### Panel driver -/

/-- The ends of the ranges of `K`, and a pair of consecutive slots of one plane. -/
theorem witness_ScheduleIsTheInterleavedOne :
    (1 ≤ 1 ∧ 1 ≤ 8 ∧ 2 ≤ 8 ∧ 8 ≤ 8) ∧ (buildSchedule 3)[2]? = some 2 ∧ (buildSchedule 3)[2 + 1]? = some 2 := by decide

theorem witness_OeWindowIsCentredAndAsWideAsTheBrightness :
    (2 ≤ 4 ∧ (4 - 1) % 2 = 1 ∧ 1 ≤ 4) ∧ (2 ≤ 4 ∧ 2 ≤ 4 - 2) ∧ 0 ≤ 4 ∧ 4 ≤ 4 := by decide

theorem witness_EncodedDmaWordHasExactlyItsBits :
    cfg2.Valid ∧ 0 < cfg2.L ∧ (15 : Nat) ∉ cfg2.bitPositions :=
  ⟨cfg2_valid .zero true true, by decide, by decide⟩

theorem witness_InitBuildsTheBlockOrFails :
    (let s := State.resetWith cfg2
     s.cfg.Valid ∧ s.initState = .uninit ∧ ¬(s.cfg.allocCanFail = true ∧ s.alt = true)) ∧
    (let s := { State.resetWith cfg2 with alt := true }
     s.cfg.Valid ∧ s.initState = .uninit ∧ s.cfg.allocCanFail = true ∧ s.alt = true) :=
  ⟨⟨cfg2_valid .zero true true, rfl, by decide⟩, cfg2_valid .zero true true, rfl, rfl, rfl⟩

theorem witness_BrightnessCommandsClampAndReport : (ready cfg2 2).cfg.Valid ∧ (ready cfg2 2).initState = .ready :=
  ⟨cfg2_valid .zero true true, rfl⟩

/-- The sequencer free and taken; every layer done, and not, with and without the timeout. -/
theorem witness_UpdateFrameAcquiresThenWaits :
    ((ready cfg2 2).actorState = .idle ∧ (ready cfg2 2).initState = .ready ∧ (ready cfg2 2).seqOwner = none) ∧
    (let s := withPort { framing .encode 0 0 with actor := 1 } (.exec .updateFrame 0 0)
     s.actorState = .idle ∧ s.initState = .ready ∧ s.seqOwner ≠ none) ∧
    (let s := { framing .wait 0 0 with done := [true, true] }
     s.actorState = .held .updateFrame .allDone ∧ ∀ l < s.cfg.N, s.doneAt l = true) ∧
    (let s := framing .wait 0 0
     s.actorState = .held .updateFrame .allDone ∧ (∃ l < s.cfg.N, s.doneAt l = false) ∧ s.alt = false ∧
      { s with alt := true }.alt = true) := by decide

/-- Inside a row, at the end of a row, at the last position, and in the release phase. -/
theorem witness_SequencerEncodesOnePositionAndReleases :
    (let s := framing .encode 0 0
     BlockInv s ∧ s.seqOwner = some 0 ∧ s.seqPhase = .encode ∧ s.seqX + 1 < s.cfg.W) ∧
    (let s := framing .encode 0 3
     BlockInv s ∧ s.seqOwner = some 0 ∧ s.seqPhase = .encode ∧ s.seqX + 1 = s.cfg.W ∧ s.seqY + 1 < s.cfg.H / 2) ∧
    (let s := framing .encode 1 3
     BlockInv s ∧ s.seqOwner = some 0 ∧ s.seqPhase = .encode ∧ s.seqX + 1 = s.cfg.W ∧ s.seqY + 1 = s.cfg.H / 2) ∧
    (let s := framing .release 0 0
     BlockInv s ∧ s.seqOwner = some 0 ∧ s.seqPhase = .release) :=
  ⟨⟨framing_inv _ (by decide) (by decide), rfl, rfl, by decide⟩,
    ⟨framing_inv _ (by decide) (by decide), rfl, rfl, rfl, by decide⟩,
    ⟨framing_inv _ (by decide) (by decide), rfl, rfl, rfl, rfl⟩,
    framing_inv _ (by decide) (by decide), rfl, rfl⟩

/-- Port 0's `UPDATE_FRAME` arrives and no other agent steps until it responds. -/
def frameRun (late : Bool) (done : List Bool) : State :=
  withWords
    (withTurns { ready cfg2 2 with drawable := [false, false], done := done }
      (.port 0 false :: .port 0 late :: (List.replicate (8 + 1) Turn.sequencer ++ [.dma])))
    0 (encode .updateFrame ++ [0x00000024#32])

theorem witness_UpdateFrameRunEncodesTheWholeFrame :
    (let s := frameRun false [true, true]
     BlockInv s ∧ s.initState = .ready ∧ s.seqOwner = none ∧ (∀ l < s.cfg.N, s.doneAt l = true) ∧
      PortAt s 0 (encode .updateFrame ++ [0x00000024#32]) [] ∧
      s.agenda = .port 0 false :: .port 0 false :: (List.replicate (s.cfg.planeWords + 1) Turn.sequencer ++ [.dma])) ∧
    (let s := frameRun true [true, false]
     BlockInv s ∧ s.initState = .ready ∧ s.seqOwner = none ∧ (∃ l < s.cfg.N, s.doneAt l = false) ∧
      PortAt s 0 (encode .updateFrame ++ [0x00000024#32]) [] ∧
      s.agenda = .port 0 false :: .port 0 true :: (List.replicate (s.cfg.planeWords + 1) Turn.sequencer ++ [.dma])) :=
  ⟨⟨withWords_inv (withTurns_inv (withFlags_inv ready2_inv rfl rfl) _) _ _, rfl, rfl, by decide, rfl, rfl⟩,
    withWords_inv (withTurns_inv (withFlags_inv ready2_inv rfl rfl) _) _ _, rfl, rfl, by decide, rfl, rfl⟩

theorem witness_ReadRegRespondsTheRegister : (0 : Nat) < 5 ∧ (4 : Nat) < 5 := by decide

theorem witness_StatusAndConfigurationFields : cfg2.Valid ∧ (3 : Nat) ≤ 3 ∧ (7 : Nat) ≤ 7 ∧ (7 : Nat) < 8 ∧ 24 ≤ 31 :=
  ⟨cfg2_valid .zero true true, by decide⟩

theorem witness_DmaStepEmitsAndAdvances :
    (BlockInv fatal ∧ fatal.dmaRun = false) ∧
    BlockInv { ready cfg2 2 with dmaIdx := 7, dmaSlot := 2 } ∧
    ({ ready cfg2 2 with dmaIdx := 7, dmaSlot := 2 } : State).dmaRun = true :=
  ⟨⟨fatal_inv, rfl⟩, { ready2_inv with slot_lt := by decide, idx_lt := by decide }, rfl⟩

theorem witness_DmaPeriodPlaysTheWholeSchedule :
    let s := withTurns (ready cfg2 2) (List.replicate (3 * 8) Turn.dma ++ [.reset])
    BlockInv s ∧ s.dmaRun = true ∧ s.dmaSlot = 0 ∧ s.dmaIdx = 0 ∧
      s.agenda = List.replicate ((2 ^ s.cfg.K - 1) * s.cfg.planeWords) Turn.dma ++ [.reset] :=
  ⟨withTurns_inv ready2_inv _, rfl, rfl, rfl, rfl⟩

theorem witness_ScheduleLightsEachChannelByItsValue : 1 ≤ 1 ∧ 8 ≤ 8 ∧ 255 < 256 := by decide

/-- A step that changes the planes, each brightness register, the sampled brightness and the bus. -/
theorem witness_PanelStateChangesOnlyByItsWriters :
    (let s := withTurns (framing .encode 0 1) [.sequencer]
     BlockInv s ∧ s.nextTurn ≠ .reset ∧ s.dmaRun = true ∧ ∃ t, step s = .next t ∧ t.plane ≠ s.plane) ∧
    (let s := flagged [true, true] [false, false] [0x00010022#32]
     BlockInv s ∧ s.nextTurn ≠ .reset ∧ ∃ t, step s = .next t ∧ t.brightness ≠ s.brightness) ∧
    (let s := flagged [true, true] [false, false] [0x00010023#32]
     BlockInv s ∧ s.nextTurn ≠ .reset ∧ ∃ t, step s = .next t ∧ t.brightnessCap ≠ s.brightnessCap) ∧
    (let s := withTurns (framing .wait 0 0) [.port 0 true]
     BlockInv s ∧ s.nextTurn ≠ .reset ∧ ∃ t, step s = .next t ∧ t.seqB ≠ s.seqB) ∧
    (let s := withWords (withTurns (State.resetWith cfg2) [.port 0 false]) 0 [0x00020020#32]
     BlockInv s ∧ s.nextTurn ≠ .reset ∧ s.dmaRun = false ∧ ∃ t, step s = .next t ∧ t.plane ≠ s.plane ∧
      t.sched ≠ s.sched ∧ t.dmaRun = true) ∧
    (let s := withTurns (ready cfg2 2) [.dma]
     BlockInv s ∧ s.nextTurn ≠ .reset ∧ ∃ t, step s = .next t ∧ t.bus ≠ s.bus) :=
  ⟨⟨withTurns_inv (framing_inv .encode (by decide) (by decide)) _, by decide, rfl, _, rfl, by decide⟩, ⟨flagged_inv _ _ _ _ _, by decide, _, rfl, by decide⟩,
    ⟨flagged_inv _ _ _ _ _, by decide, _, rfl, by decide⟩,
    ⟨withTurns_inv (framing_inv .wait (by decide) (by decide)) _, by decide, _, rfl, by decide⟩,
    ⟨withWords_inv (withTurns_inv reset2_inv _) _ _, by decide, rfl, _, rfl, by decide, by decide, rfl⟩,
    withTurns_inv ready2_inv _, by decide, _, rfl, by decide⟩

/-! ### Status codes, positions, fairness -/

/-- The code numbers of the table of R135. -/
theorem test_status_code_numbers :
    Code.ok.u4 = 0#4 ∧ Code.timeout.u4 = 1#4 ∧ Code.illegal.u4 = 2#4 ∧ Code.notReady.u4 = 3#4 ∧ Code.fatal.u4 = 4#4 := by
  decide

/-- The host reads `{code, data}`: `READ_REG 3` of a 4 by 4 panel (R127), and `ILLEGAL` for `READ_REG 5` (V-X6). -/
theorem test_response_bits :
    ((nextOf (step (State.reset.withFetchWord 32 0x00030024))).bind fun t => t.responseBits 0) = some 0x000040004#36 ∧
    ((nextOf (step (State.reset.withFetchWord 32 0x00050024))).bind fun t => t.responseBits 0) = some 0x200000000#36 := by
  decide

/-- Without address lines `BIT_ADDR0` must still be a position of its own (R11). -/
theorem test_positions_include_addr0 :
    ¬({ cfg2 with L := 0, H := 2, bitAddr0 := 0 } : Config).Valid ∧ ¬({ cfg2 with L := 0, H := 2, bitAddr0 := 16 } : Config).Valid :=
  ⟨fun h => absurd h.named_distinct (by decide), fun h => absurd h.named_le (by decide)⟩

/-- The DMA engine's state `n` words after `INIT`. -/
def streaming (n : Nat) : State := (fun s => (nextOf (dmaStep s)).getD s)^[n] (ready cfg2 2)

/-- What stays as the engine streams, and the range of its position. -/
def Streams (s : State) : Prop :=
  ∃ bus slot idx, s = { ready cfg2 2 with bus := bus, dmaSlot := slot, dmaIdx := idx } ∧ slot < 3 ∧ idx < 8

theorem streams_next {s : State} (h : Streams s) : ∃ t, dmaStep s = .next t ∧ Streams t := by
  obtain ⟨bus, slot, idx, rfl, hs, hi⟩ := h
  have hk : ∀ slot < 3, ∃ k < 2, (ready cfg2 2).sched[slot]? = some k := by decide
  have hw : ∀ k < 2, ∀ idx < 8, ((ready cfg2 2).readPlane k idx).isSome = true := by decide
  obtain ⟨k, hk2, e1⟩ := hk slot hs
  obtain ⟨w, e2⟩ := Option.isSome_iff_exists.mp (hw k hk2 idx hi)
  have h : dmaStep { ready cfg2 2 with bus := bus, dmaSlot := slot, dmaIdx := idx } =
      orNoValue .sched (ready cfg2 2).sched[slot]? fun k => orNoValue .plane ((ready cfg2 2).readPlane k idx) fun w =>
        .next (State.emit { ready cfg2 2 with bus := bus, dmaSlot := slot, dmaIdx := idx } w).advanceDma := rfl
  rw [h, e1]
  simp only [orNoValue, e2, advanceDma_emit]
  refine ⟨_, rfl, _, _, _, rfl, ?_, ?_⟩
  · show (if idx + 1 = 8 then (slot + 1) % 3 else slot) < 3
    split_ifs <;> omega
  · show (if idx + 1 = 8 then 0 else idx + 1) < 8
    split_ifs <;> omega

theorem streaming_succ (n : Nat) : streaming (n + 1) = (nextOf (dmaStep (streaming n))).getD (streaming n) := by
  unfold streaming
  rw [Function.iterate_succ_apply']

theorem streaming_streams (n : Nat) : Streams (streaming n) := by
  induction n with
  | zero => exact ⟨[], 0, 0, rfl, by decide, by decide⟩
  | succ n ih =>
    obtain ⟨t, h1, h2⟩ := streams_next ih
    rw [streaming_succ, h1]
    exact h2

/-- A fair run in which the DMA engine has a step at every point: the premises of `fairRun_dma_recurs`. -/
theorem witness_fairRun : FairRun (fun _ => .dma) streaming ∧ (streaming 0).dmaRun = true :=
  ⟨{ run := fun n => by
       obtain ⟨t, h1, _⟩ := streams_next (streaming_streams n)
       show dmaStep (streaming n) = .next (streaming (n + 1))
       rw [streaming_succ, h1]
       rfl
     fair := fun a n h => by
       obtain ⟨bus, slot, idx, e, _⟩ := streaming_streams n
       have h := h n le_rfl
       rw [e] at h
       cases a with
       | port p =>
         have hp : ∀ p, ((ready cfg2 2).enabled (.port p)) = false := by
           intro p
           show (((List.replicate 4 Port.reset)[p]?).any _) = false
           rw [List.getElem?_replicate]
           split_ifs <;> rfl
         exact absurd ((hp p).symm.trans h) (by decide)
       | sequencer => cases h
       | dma => exact ⟨n, le_rfl, rfl⟩ }, rfl⟩

end Sys2Proof.Tests
end

section
/-! PROOFS. The parameters of R4 to R13 are constant: what each part of a step does to the field `cfg`, and O15. -/

namespace Sys2Proof.Machine

variable {s t : State}

@[simp] theorem endWait_cfg (b : Bool) : (s.endWait b).cfg = s.cfg := by
  unfold State.endWait
  split_ifs <;> rfl

@[simp] theorem writePlanes_cfg (y x : Nat) (c1 c2 : Color) (n : Nat) : (s.writePlanes y x c1 c2 n).cfg = s.cfg := by
  rw [writePlanes_eq]

@[simp] theorem nextPosition_cfg : s.nextPosition.cfg = s.cfg := by
  rw [nextPosition_eq]

/-- No effect of a command reaches the configuration; only a frame's wait hides it behind a function of its own. -/
theorem effect_cfg {i : Instr} {u : State} (h : Effect s i u) : u.cfg = s.cfg := by
  cases h with
  | frame b hs => exact endWait_cfg b
  | _ => rfl

theorem moved_cfg (h : Moved s t) : t.cfg = s.cfg := by
  rcases h with rfl | ⟨f, _, rfl⟩ <;> rfl

theorem portTurn_cfg {p : Nat} {alt : Bool} (hn : s.nextTurn = .port p alt) (h : step s = .next t) :
    t.cfg = s.cfg := by
  rcases port_next hn h with rfl | rfl | ⟨n, rfl⟩ | ⟨i, v, u, _, hv, he, hm⟩
  · rfl
  · rfl
  · rfl
  · have hvs : v.cfg = s.cfg := by rcases hv with rfl | ⟨n, rfl⟩ <;> rfl
    exact (moved_cfg hm).trans ((effect_cfg he).trans hvs)

theorem sequencerStep_cfg (h : sequencerStep s = .next t) : t.cfg = s.cfg := by
  rcases sequencer_next h with rfl | ⟨p, c1, c2, _, _, _, _, rfl⟩ | ⟨p, code, _, _, rfl⟩
  · rfl
  · simp [execOn_eq]
  · rfl

theorem dmaStep_cfg (h : dmaStep s = .next t) : t.cfg = s.cfg := by
  rcases dma_next h with rfl | ⟨_, w, rfl⟩
  · rfl
  · rw [advanceDma_emit]

/-- The configuration is the same after a step, whoever takes the turn (R17, R52); a reset builds its state from it. -/
theorem step_cfg (h : step s = .next t) : t.cfg = s.cfg := by
  cases hn : s.nextTurn with
  | port p alt => exact portTurn_cfg hn h
  | sequencer =>
    simp only [step, hn, turnStep] at h
    exact (sequencerStep_cfg h).trans (dropTurn_cfg s)
  | dma =>
    simp only [step, hn, turnStep] at h
    exact (dmaStep_cfg h).trans (dropTurn_cfg s)
  | hostWrite p w =>
    simp only [step, hn, turnStep] at h
    cases h
    rfl
  | hostRead p =>
    simp only [step, hn, turnStep] at h
    cases h
    rfl
  | reset =>
    simp only [step, hn, turnStep] at h
    cases h
    rfl

/-- Settles O15, by the turn that the step takes: see `step_cfg`. -/
theorem noStepChangesTheConfiguration : Obligations.NoStepChangesTheConfiguration :=
  fun _ _ => step_cfg

end Sys2Proof.Machine
end

section
/-! PROOFS. The reset state meets the block's invariant, and what the invariant gives: reads that have values, and which states a
port may be in (R39, R40, R134): O13. -/

namespace Sys2Proof.Machine

variable {s t : State}

/-! ### Reset -/

/-- Every port is idle after reset, the ports that do not exist too (R39). -/
@[simp] theorem portState_resetWith (c : Config) (p : Nat) : (State.resetWith c).portState p = .idle := by
  show (match (List.replicate c.nports Port.reset)[p]? with | some q => q.st | none => .idle) = PortState.idle
  rw [List.getElem?_replicate]
  split_ifs <;> rfl

theorem resetWith_inv {c : Config} (h : c.Valid) : BlockInv (State.resetWith c) where
  cfg_valid := h
  ports_length := List.length_replicate
  drawable_length := List.length_replicate
  done_length := List.length_replicate
  brightness_le := Nat.zero_le _
  cap_le := by
    show (c.W - 2) % 2 ^ 16 ≤ c.W - 2
    exact Nat.mod_le _ _
  layer_wf := wf_nil
  plane_wf := wf_nil
  layer_bound := fun _ ha => nomatch ha
  plane_bound := fun _ ha => nomatch ha
  no_value := fun _ => ⟨rfl, rfl, rfl, rfl⟩
  layer_full := fun hr => nomatch hr
  plane_full := fun hr => nomatch hr
  sched_built := fun hr => nomatch hr
  slot_lt := slots_pos h
  idx_lt := planeWords_pos h
  seq_y_lt := rowPairs_pos h
  seq_x_lt := Nat.lt_of_lt_of_le Nat.two_pos h.w_ge
  seq_b_le := Nat.zero_le _
  owner_ok := fun _ hp => nomatch hp
  ports_ok := fun p _ => by
    rw [portState_resetWith]
    trivial

/-- Settles O13: every field of the reset state is in its range, and what the invariant asks of a ready block or of an owner
is void. -/
theorem resetStateMeetsTheInvariant : Obligations.ResetStateMeetsTheInvariant := fun _ => resetWith_inv

theorem externalReset_inv (h : BlockInv s) : BlockInv s.externalReset := { resetWith_inv h.cfg_valid with }

/-! ### Reads that the invariant makes good -/

/-- The policies of R93 keep a read inside the layer. -/
theorem wrapCoord_bounds {n : Nat} (hn : 0 < n) (v : Int) : 0 ≤ wrapCoord n v ∧ wrapCoord n v < n := by
  unfold wrapCoord
  have h : (BitVec.ofInt 16 v &&& BitVec.ofNat 16 (n - 1)).toNat ≤ n - 1 := by
    rw [BitVec.toNat_and]
    exact Nat.and_le_right.trans (Nat.mod_le _ _)
  omega

theorem clampCoord_bounds {n : Nat} (hn : 0 < n) (v : Int) : 0 ≤ clampCoord n v ∧ clampCoord n v < n := by
  unfold clampCoord
  omega

/-- In a ready block a pixel read has a value at every coordinate (R40, R93). -/
theorem readPix_some (h : BlockInv s) (hr : s.initState = .ready) {l : Nat} (hl : l < s.cfg.N) (x y : Int) :
    ∃ v, s.readPix l x y = some v := by
  have hW : 0 < s.cfg.W := Nat.lt_of_lt_of_le Nat.two_pos h.cfg_valid.w_ge
  have hH : 0 < s.cfg.H := Nat.lt_of_lt_of_le Nat.two_pos h.cfg_valid.h_ge
  have inside {x y : Int} (hb : inb s.cfg x y) : ∃ v, s.readLayer l (idx s.cfg x y) = some v :=
    readLayer_some h hr hl (idx_lt hb)
  unfold State.readPix
  split_ifs with hb
  · exact inside hb
  · cases s.cfg.oob with
    | zero => exact ⟨0, rfl⟩
    | wrap =>
      have hx := wrapCoord_bounds hW x
      have hy := wrapCoord_bounds hH y
      exact inside ⟨hx.1, hx.2, hy.1, hy.2⟩
    | clamp =>
      have hx := clampCoord_bounds hW x
      have hy := clampCoord_bounds hH y
      exact inside ⟨hx.1, hx.2, hy.1, hy.2⟩

theorem accUpTo_some (h : BlockInv s) (hr : s.initState = .ready) (x y : Int) (n : Nat) (hn : n ≤ s.cfg.N) :
    ∃ v, s.accUpTo x y n = some v := by
  induction n with
  | zero => exact ⟨0, rfl⟩
  | succ n ih =>
    obtain ⟨acc, hacc⟩ := ih (Nat.le_of_succ_le hn)
    obtain ⟨p, hp⟩ := readPix_some h hr (Nat.lt_of_succ_le hn) x y
    exact ⟨blendOver acc p, by simp only [State.accUpTo, hacc, hp]⟩

/-- In a ready block every position has a display colour (R40, R100). -/
theorem compositeAt_some (h : BlockInv s) (hr : s.initState = .ready) (x y : Int) :
    ∃ c, s.compositeAt x y = some c := by
  obtain ⟨v, hv⟩ := accUpTo_some h hr x y s.cfg.N le_rfl
  exact ⟨gammaRGB s.cfg v, by simp only [State.compositeAt, State.accAt, hv, Option.map_some]⟩

/-- In a ready block the slot of the DMA engine names a plane of the panel (R115, R134). -/
theorem sched_slot_some (h : BlockInv s) (hr : s.initState = .ready) :
    ∃ k, s.sched[s.dmaSlot]? = some k ∧ k < s.cfg.K := by
  have hs : s.sched = buildSchedule s.cfg.K := (h.sched_built hr).1
  have hl : s.dmaSlot < s.sched.length := by
    rw [hs, buildSchedule, scheduleFrom_length]
    exact h.slot_lt
  refine ⟨s.sched[s.dmaSlot], List.getElem?_eq_getElem hl, ?_⟩
  exact buildSchedule_lt h.cfg_valid.k_pos _ (hs ▸ List.getElem_mem hl)

/-! ### Which ports the invariant lets step -/

/-- `PORT_STATE` of a port that does not own the sequencer asks only for the configuration and `INIT_STATE`. -/
theorem portOk_transfer {q : Nat} {st : PortState} (hc : t.cfg = s.cfg) (hi : t.initState = s.initState)
    (ho : s.seqOwner ≠ some q) (h : PortOk s q st) : PortOk t q st := by
  cases st with
  | idle => trivial
  | exec cmd i count =>
    obtain ⟨hr, hb | ⟨_, ho'⟩⟩ := h
    · exact ⟨hi.trans hr, .inl (by rwa [hc])⟩
    · exact absurd ho' ho
  | held cmd cond =>
    rcases h with hd | hw | ⟨hu, hf, hr⟩ | ⟨_, _, ho', _⟩
    · exact .inl (by rwa [hc])
    · exact .inr (.inl hw)
    · exact .inr (.inr (.inl ⟨hu, hf, hi.trans hr⟩))
    · exact absurd ho' ho

/-- Before `INIT` and after a failed one no port is in a state that depends on `INIT_STATE`. -/
theorem portOk_of_not_ready {q : Nat} {st : PortState} (hc : t.cfg = s.cfg) (hi : s.initState ≠ .ready)
    (ho : s.seqOwner = none) (h : PortOk s q st) : PortOk t q st := by
  cases st with
  | idle => trivial
  | exec cmd i count => exact absurd h.1 hi
  | held cmd cond =>
    rcases h with hd | hw | ⟨_, _, hr⟩ | ⟨_, _, ho', _⟩
    · exact .inl (by rwa [hc])
    · exact .inr (.inl hw)
    · exact absurd hr hi
    · rw [ho] at ho'
      cases ho'

/-- What the owner's port does in each phase is a state a port may be in (R30, R124). -/
theorem portOk_ownerState {p : Nat} (hr : s.initState = .ready) (ho : s.seqOwner = some p) : PortOk s p (ownerState s) := by
  unfold ownerState
  cases hp : s.seqPhase with
  | wait => exact .inr (.inr (.inr ⟨rfl, rfl, ho, hp⟩))
  | encode => exact ⟨hr, .inr ⟨rfl, ho⟩⟩
  | release => exact ⟨hr, .inr ⟨rfl, ho⟩⟩

/-- The sequencer has no owner while the block is not ready (R126, R140). -/
theorem owner_none_of_not_ready (h : BlockInv s) (hi : s.initState ≠ .ready) : s.seqOwner = none := by
  cases ho : s.seqOwner with
  | none => rfl
  | some p => exact absurd (h.owner_ok p ho).1 hi

/-- A state that the port of the owner is never in. -/
def NotOwnerState (st : PortState) : Prop :=
  (∀ n k, st ≠ .exec .updateFrame n k) ∧ st ≠ .held .updateFrame .allDone

theorem not_owner {p : Nat} (h : BlockInv s) (hst : NotOwnerState (s.portState p)) : s.seqOwner ≠ some p := by
  intro ho
  have he := (h.owner_ok p ho).2.2
  unfold ownerState at he
  cases hp : s.seqPhase with
  | wait => exact hst.2 (by rw [he, hp])
  | encode => exact hst.1 _ _ (by rw [he, hp])
  | release => exact hst.1 _ _ (by rw [he, hp])

end Sys2Proof.Machine
end

section
/-! PROOFS. Every step of a command that does not own the sequencer answers a next state that meets the invariant (R40, R134). -/

namespace Sys2Proof.Machine

variable {s t : State}

/-! ### Safe results -/

/-- The result is a next state, and that state meets the invariant. -/
def Safe (r : Result) : Prop := ∃ t, r = .next t ∧ BlockInv t

theorem safe_next (h : BlockInv t) : Safe (.next t) := ⟨t, rfl, h⟩

theorem safe_orNoValue {α : Type} {space : Space} {o : Option α} {k : α → Result} (ho : ∃ v, o = some v)
    (hk : ∀ v, Safe (k v)) : Safe (orNoValue space o k) := by
  obtain ⟨v, rfl⟩ := ho
  exact hk v

/-- The invariant holds, and the acting port exists and does not own the sequencer. -/
structure FreeActor (s : State) : Prop where
  inv : BlockInv s
  lt : s.actor < s.cfg.nports
  free : s.seqOwner ≠ some s.actor

/-- A change that keeps the invariant, the acting port, the configuration and the owner leaves the acting port free. -/
theorem FreeActor.update (h : FreeActor s) (ht : BlockInv t) (ha : t.actor = s.actor) (hc : t.cfg = s.cfg)
    (ho : t.seqOwner = s.seqOwner) : FreeActor t where
  inv := ht
  lt := by rw [ha, hc]; exact h.lt
  free := by rw [ha, ho]; exact h.free

theorem safe_respond (h : FreeActor s) (code data) : Safe (.next (s.respond code data)) :=
  safe_next (blockInv_respondOn h.inv h.lt h.free code data)

theorem safe_checked (h : FreeActor s) {needs ok run} (hrun : s.refusalCode needs ok = none → Safe (run s)) :
    Safe (s.checked needs ok run) := by
  unfold State.checked
  cases hc : s.refusalCode needs ok with
  | some code => exact safe_respond h code 0
  | none => exact hrun hc

/-- A port that does not own the sequencer may hold where its command may be held. -/
theorem safe_hold (h : FreeActor s) {cmd cond} (hok : PortOk s s.actor (.held cmd cond)) : Safe (.next (s.hold cmd cond)) :=
  safe_next (blockInv_updPort_set h.inv (fun _ => rfl) h.lt hok fun ho => absurd ho h.free)

theorem layerOk_iff {l : Nat} : s.layerOk l = true ↔ l < s.cfg.N := decide_eq_true_iff

/-- A command of R138 on a layer that passes its checks finds a ready block and an existing layer. -/
theorem ready_of_checks {l : Nat} (hc : s.refusalCode .ready (s.layerOk l) = none) :
    s.initState = .ready ∧ l < s.cfg.N := by
  obtain ⟨_, hl, hr, _⟩ := refusalCode_none hc
  exact ⟨hr rfl, layerOk_iff.1 hl⟩

/-! ### Pixel commands -/

theorem safe_setPixel (h : FreeActor s) (l x y color) : Safe (execSetPixel l x y color s) := by
  refine safe_checked h fun hc => ?_
  obtain ⟨hr, hl⟩ := ready_of_checks hc
  split_ifs with hb
  · exact safe_respond (h.update (blockInv_writeLayer h.inv hr hl (idx_lt hb) color) rfl rfl rfl) _ _
  · exact safe_respond h _ _

theorem safe_setPixelOver (h : FreeActor s) (l x y color) : Safe (execSetPixelOver l x y color s) := by
  refine safe_checked h fun hc => ?_
  obtain ⟨hr, hl⟩ := ready_of_checks hc
  split_ifs with hb
  · refine safe_orNoValue (readLayer_some h.inv hr hl (idx_lt hb)) fun p => ?_
    exact safe_respond (h.update (blockInv_writeLayer h.inv hr hl (idx_lt hb) _) rfl rfl rfl) _ _
  · exact safe_respond h _ _

theorem safe_getPixel (h : FreeActor s) (l x y) : Safe (execGetPixel l x y s) := by
  refine safe_checked h fun hc => ?_
  obtain ⟨hr, hl⟩ := ready_of_checks hc
  exact safe_orNoValue (readPix_some h.inv hr hl x y) fun p => safe_respond h _ _

theorem safe_composite (h : FreeActor s) (x y) : Safe (execComposite x y s) :=
  safe_checked h fun hc =>
    safe_orNoValue (compositeAt_some h.inv ((refusalCode_none hc).2.2.1 rfl) x y) fun _ => safe_respond h _ _

/-! ### Bulk commands -/

/-- A bulk step that has treated a pixel goes on with the next one, or responds (R54). -/
theorem safe_advance (h : FreeActor s) (hr : s.initState = .ready) {cmd : Instr} {l i count : Nat}
    (hcmd : bulkLayer cmd = some l) (hl : l < s.cfg.N) (hk : count ≤ i + 1) (data) :
    Safe (.next (s.advance cmd i count data)) := by
  unfold State.advance
  split_ifs with hi
  · exact safe_next (blockInv_updPort_set h.inv (fun _ => rfl) h.lt ⟨hr, .inl ⟨l, hcmd, hl, hi, hk⟩⟩
      fun ho => absurd ho h.free)
  · exact safe_respond h _ _

/-- The same after a pixel write: the shape of every bulk step that writes. -/
theorem safe_writeLayer_advance (h : FreeActor s) (hr : s.initState = .ready) {cmd : Instr} {l i count : Nat}
    (hcmd : bulkLayer cmd = some l) (hl : l < s.cfg.N) (hi : i < s.cfg.pixels) (hk : count ≤ i + 1) (v data) :
    Safe (.next ((s.writeLayer l i v).advance cmd i count data)) :=
  safe_advance (s := s.writeLayer l i v) (h.update (blockInv_writeLayer h.inv hr hl hi v) rfl rfl rfl) hr hcmd hl hk data

/-- A bulk step is safe when its treatment of every pixel of the layer is: the first step starts at pixel 0, a later one
at the port's progress, which the invariant bounds (R20, R54). -/
theorem safe_bulk (h : FreeActor s) {cmd : Instr} {l : Nat} (hcmd : bulkLayer cmd = some l)
    (hst : ∀ c n k, s.actorState = .exec c n k → c = cmd) {elem : Nat → Nat → State → Result}
    (helem : s.initState = .ready → l < s.cfg.N → ∀ i count, i < s.cfg.pixels → count ≤ i → Safe (elem i count s)) :
    Safe (s.bulk (s.layerOk l) elem) := by
  have first : Safe (s.checked .ready (s.layerOk l) (elem 0 0)) := safe_checked h fun hc => by
    obtain ⟨hr, hl⟩ := ready_of_checks hc
    exact helem hr hl 0 0 (pixels_pos h.inv.cfg_valid) le_rfl
  unfold State.bulk
  cases hs : s.actorState with
  | idle => exact first
  | held c d => exact first
  | exec c i count =>
    have hok : PortOk s s.actor (.exec c i count) := hs ▸ h.inv.ports_ok _ h.lt
    obtain ⟨hr, ⟨l', hl', hlN, hi, hk⟩ | ⟨_, ho⟩⟩ := hok
    · rw [hst c i count hs, hcmd] at hl'
      cases hl'
      exact helem hr hlN i count hi hk
    · exact absurd ho h.free

theorem safe_setAll (h : FreeActor s) (l color) (hst : ∀ c n k, s.actorState = .exec c n k → c = .setAll l color) :
    Safe (execSetAll l color s) :=
  safe_bulk h rfl hst fun hr hl _ _ hi hk => safe_writeLayer_advance h hr rfl hl hi (Nat.le_succ_of_le hk) color 0

theorem safe_fadeOut (h : FreeActor s) (l f) (hst : ∀ c n k, s.actorState = .exec c n k → c = .fadeOut l f) :
    Safe (execFadeOut l f s) := by
  refine safe_bulk h rfl hst fun hr hl i count hi hk => ?_
  refine safe_orNoValue (readLayer_some h.inv hr hl hi) fun p => ?_
  split_ifs
  · exact safe_advance h hr rfl hl (Nat.le_succ_of_le hk) _
  · exact safe_writeLayer_advance h hr rfl hl hi (Nat.succ_le_succ hk) _ _

/-- A pixel `n` rows below another, where there is such a row, is a pixel of the layer (R98). -/
theorem below_lt {c : Config} (hc : c.Valid) {i n : Nat} (hn : i / c.W + n < c.H) : i + n * c.W < c.pixels := by
  have hW : 0 < c.W := Nat.lt_of_lt_of_le Nat.two_pos hc.w_ge
  have hi : i < (i / c.W + 1) * c.W := Nat.lt_mul_of_div_lt (Nat.lt_succ_self _) hW
  calc i + n * c.W < (i / c.W + 1) * c.W + n * c.W := Nat.add_lt_add_right hi _
    _ = (i / c.W + n + 1) * c.W := by ring
    _ ≤ c.H * c.W := Nat.mul_le_mul_right _ hn
    _ = c.pixels := Nat.mul_comm _ _

theorem safe_shiftUp (h : FreeActor s) (l n) (hst : ∀ c m k, s.actorState = .exec c m k → c = .shiftUp l n) :
    Safe (execShiftUp l n s) := by
  refine safe_bulk h rfl hst fun hr hl i count hi hk => ?_
  have write (v : Pixel) := safe_writeLayer_advance h hr (cmd := .shiftUp l n) rfl hl hi (Nat.le_succ_of_le hk) v 0
  split_ifs with hn
  · exact safe_orNoValue (readLayer_some h.inv hr hl (below_lt h.inv.cfg_valid hn)) write
  · exact write 0

/-! ### Barrier commands -/

/-- Flags of the same number of layers keep the invariant: it bounds only how many there are (R23). -/
theorem blockInv_flags (h : BlockInv s) {drawable done : List Bool} (h1 : drawable.length = s.cfg.N)
    (h2 : done.length = s.cfg.N) : BlockInv { s with drawable := drawable, done := done } :=
  { h with
    drawable_length := h1
    done_length := h2 }

theorem FreeActor.flags (h : FreeActor s) {drawable done : List Bool} (h1 : drawable.length = s.cfg.N)
    (h2 : done.length = s.cfg.N) : FreeActor { s with drawable := drawable, done := done } :=
  h.update (blockInv_flags h.inv h1 h2) rfl rfl rfl

/-- A wait's end touches no field but `DONE`, which it clears or leaves (R105, R106). -/
theorem endWait_eq (b : Bool) : s.endWait b = { s with done := (s.endWait b).done } := by
  unfold State.endWait
  split_ifs <;> rfl

theorem endWait_done (b : Bool) : (s.endWait b).done = s.done ∨ (s.endWait b).done = List.replicate s.cfg.N false := by
  unfold State.endWait
  split_ifs
  · exact .inr rfl
  · exact .inl rfl

theorem endWait_done_length (h : s.done.length = s.cfg.N) (b : Bool) : (s.endWait b).done.length = s.cfg.N := by
  rcases endWait_done (s := s) b with e | e
  · rw [e, h]
  · rw [e, List.length_replicate]

theorem FreeActor.endWait (h : FreeActor s) (b : Bool) : FreeActor (s.endWait b) := by
  rw [endWait_eq]
  exact h.flags h.inv.drawable_length (endWait_done_length h.inv.done_length b)

theorem safe_tryStartDrawing (h : FreeActor s) {l : Nat} (hl : l < s.cfg.N) : Safe (tryStartDrawing l s) := by
  unfold tryStartDrawing
  split_ifs
  · exact safe_respond (h.flags (List.length_set.trans h.inv.drawable_length) h.inv.done_length) _ _
  · exact safe_respond h _ _
  · exact safe_hold h (.inl ⟨l, rfl, rfl, hl⟩)

/-- A held `START_DRAWING` waits for a layer that exists, so it needs no second check (R136). -/
theorem safe_startDrawing (h : FreeActor s) (l) (hst : ∀ c d, s.actorState = .held c d → c = .startDrawing l) :
    Safe (execStartDrawing l s) := by
  unfold execStartDrawing
  split
  · rename_i c d hs
    have hok : PortOk s s.actor (.held c d) := hs ▸ h.inv.ports_ok _ h.lt
    rw [hst c d hs] at hok
    obtain ⟨l', hl', _, hN⟩ | ⟨hc, _⟩ | ⟨hc, _⟩ | ⟨hc, _⟩ := hok
    · cases hl'
      exact safe_tryStartDrawing h hN
    all_goals cases hc
  · exact safe_checked h fun hc => safe_tryStartDrawing h (layerOk_iff.1 (refusalCode_none hc).2.1)

theorem safe_doneDrawing (h : FreeActor s) (l) : Safe (execDoneDrawing l s) :=
  safe_checked h fun _ =>
    safe_respond (h.flags h.inv.drawable_length (List.length_set.trans h.inv.done_length)) _ _

theorem safe_tryWaitDrawingDone (h : FreeActor s) : Safe (tryWaitDrawingDone s) := by
  unfold tryWaitDrawingDone
  split_ifs
  · exact safe_respond (h.endWait false) _ _
  · exact safe_respond (h.endWait true) _ _
  · exact safe_hold h (.inr (.inl ⟨rfl, rfl⟩))

theorem safe_waitDrawingDone (h : FreeActor s) : Safe (execWaitDrawingDone s) := by
  unfold execWaitDrawingDone
  split
  · exact safe_tryWaitDrawingDone h
  · exact safe_checked h fun _ => safe_tryWaitDrawingDone h

theorem safe_doneUpdating (h : FreeActor s) : Safe (execDoneUpdating s) :=
  safe_checked h fun _ => safe_respond (h.flags List.length_replicate h.inv.done_length) _ _

/-! ### Panel commands -/

/-- The clamped brightness is in its register's range (R25, R26). -/
theorem clampBrightness_le (c : Config) (v : Nat) : (clampBrightness c v).toNat ≤ c.W - 2 :=
  (Nat.mod_le _ _).trans (min_le_right _ _)

theorem blockInv_brightness (h : BlockInv s) (v : Nat) : BlockInv { s with brightness := clampBrightness s.cfg v } :=
  { h with brightness_le := clampBrightness_le _ _ }

theorem blockInv_brightnessCap (h : BlockInv s) (v : Nat) :
    BlockInv { s with brightnessCap := clampBrightness s.cfg v } :=
  { h with cap_le := clampBrightness_le _ _ }

theorem safe_setBrightness (h : FreeActor s) (v) : Safe (execSetBrightness v s) :=
  safe_checked h fun _ => safe_respond (h.update (blockInv_brightness h.inv v) rfl rfl rfl) _ _

theorem safe_setBrightnessCap (h : FreeActor s) (v) : Safe (execSetBrightnessCap v s) :=
  safe_checked h fun _ => safe_respond (h.update (blockInv_brightnessCap h.inv v) rfl rfl rfl) _ _

theorem safe_readReg (h : FreeActor s) (r) : Safe (execReadReg r s) :=
  safe_checked h fun _ => safe_respond h _ _

theorem isSome_read_filled {w n a : Nat} (f : Nat → BitVec w) : ((Memory.filled n f).read a).isSome ↔ a < n := by
  rw [read_filled]
  split_ifs with h <;> simp [h]

/-- A successful `INIT` gives every pixel, plane word and slot its first value (R120). -/
theorem initialised_inv (h : BlockInv s) (hn : s.initState ≠ .ready) (b : Nat) : BlockInv (s.initialised b) :=
  have ho : s.seqOwner = none := owner_none_of_not_ready h hn
  { h with
    brightness_le := clampBrightness_le _ _
    cap_le := Nat.mod_le _ _
    layer_wf := wf_filled _ _
    plane_wf := wf_filled _ _
    layer_bound := fun _ => (isSome_read_filled _).1
    plane_bound := fun _ => (isSome_read_filled _).1
    no_value := fun hr => absurd rfl hr
    layer_full := fun _ _ hl _ hi => (isSome_read_filled _).2 (layerAddr_lt (c := s.cfg) hl hi)
    plane_full := fun _ _ hk _ hj => (isSome_read_filled _).2 (planeAddr_lt (c := s.cfg) hk hj)
    sched_built := fun _ => ⟨rfl, rfl⟩
    slot_lt := slots_pos h.cfg_valid
    idx_lt := planeWords_pos h.cfg_valid
    owner_ok := fun _ hp => nomatch ho.symm.trans hp
    ports_ok := fun p hp => portOk_of_not_ready (s := s) rfl hn ho (h.ports_ok p hp) }

/-- A failed `INIT` leaves the block without values and its ports as they were (R120, R140). -/
theorem failed_inv (h : BlockInv s) (hn : s.initState ≠ .ready) : BlockInv { s with initState := .fatal } :=
  have ho : s.seqOwner = none := owner_none_of_not_ready h hn
  { h with
    no_value := fun _ => h.no_value hn
    layer_full := fun hr => nomatch hr
    plane_full := fun hr => nomatch hr
    sched_built := fun hr => nomatch hr
    owner_ok := fun _ hp => nomatch ho.symm.trans hp
    ports_ok := fun p hp => portOk_of_not_ready (s := s) rfl hn ho (h.ports_ok p hp) }

theorem safe_init (h : FreeActor s) (b) : Safe (execInit b s) := by
  refine safe_checked h fun hc => ?_
  have hu : s.initState = .uninit := (refusalCode_none hc).2.2.2 rfl
  have hn : s.initState ≠ .ready := by simp [hu]
  split_ifs
  · exact safe_respond (h.update (failed_inv h.inv hn) rfl rfl rfl) _ _
  · exact safe_respond (h.update (initialised_inv h.inv hn b) rfl rfl rfl) _ _

end Sys2Proof.Machine
end

section
/-! PROOFS. `UPDATE_FRAME` through its phases, the DMA engine and the whole step keep the invariant (R124, R126, R128): O14. -/

namespace Sys2Proof.Machine

variable {s t : State}

/-! ### The sequencer and its owner -/

/-- The sequencer's owner, phase and position set. -/
def State.sequenced (s : State) (o : Option Nat) (ph : SeqPhase) (y x : Nat) : State :=
  { s with seqOwner := o, seqPhase := ph, seqY := y, seqX := x }

/-- One move of the sequencer together with the port that owns it, or comes to or ceases to own it: owner, phase and position
change, and with them that port's `PORT_STATE` (R30, R124). -/
theorem blockInv_sequenced (h : BlockInv s) (hr : s.initState = .ready) {p : Nat} (hp : p < s.cfg.nports)
    (hs : ∀ q, s.seqOwner = some q → q = p) {o : Option Nat} {ph : SeqPhase} {y x : Nat} {f : Port → Port} {st : PortState}
    (hy : y < s.cfg.half) (hx : x < s.cfg.W) (hf : ∀ r, (f r).st = st)
    (hst : (o = none ∧ st = .idle) ∨ (o = some p ∧ st = ownerState (s.sequenced o ph y x))) :
    BlockInv ((s.sequenced o ph y x).updPort p f) := by
  have hl : p < (s.sequenced o ph y x).ports.length := h.ports_length ▸ hp
  exact
    { h with
      ports_length := by rw [updPort_ports, List.length_modify]; exact h.ports_length
      seq_y_lt := hy
      seq_x_lt := hx
      owner_ok := fun q hq => by
        obtain ⟨ho, _⟩ | ⟨ho, he⟩ := hst
        · exact nomatch ho.symm.trans hq
        · cases ho.symm.trans hq
          exact ⟨hr, hp, by rw [portState_updPort_set _ hf hl, if_pos rfl, he]; rfl⟩
      ports_ok := fun q hq => by
        rw [portState_updPort_set _ hf hl]
        split_ifs with e
        · subst e
          obtain ⟨_, rfl⟩ | ⟨ho, rfl⟩ := hst
          · trivial
          · exact portOk_ownerState (s := (s.sequenced o ph y x).updPort p f) hr ho
        · exact portOk_transfer (s := s) rfl rfl (fun ho => e (hs q ho).symm) (h.ports_ok q hq) }

theorem safe_tryAcquire (h : FreeActor s) (hr : s.initState = .ready) : Safe (tryAcquire s) := by
  unfold tryAcquire
  split_ifs with ho
  · exact safe_next (blockInv_sequenced h.inv hr h.lt (fun q hq => nomatch ho.symm.trans hq) h.inv.seq_y_lt h.inv.seq_x_lt
      (fun _ => rfl) (.inr ⟨rfl, rfl⟩))
  · exact safe_hold h (.inr (.inr (.inl ⟨rfl, rfl, hr⟩)))

theorem effectiveBrightness_le (h : BlockInv s) : s.effectiveBrightness ≤ s.cfg.W - 2 :=
  (min_le_left _ _).trans h.brightness_le

/-- The end of the frame's wait starts the encode at position 0 (R124). -/
theorem frameWaitDone_inv (h : BlockInv s) (ho : s.seqOwner = some s.actor) (b : Bool) : BlockInv (s.frameWaitDone b) := by
  obtain ⟨hr, hp, _⟩ := h.owner_ok _ ho
  have hw : BlockInv { s with done := (s.endWait b).done, seqTo := b, seqB := s.effectiveBrightness } :=
    { h with
      done_length := endWait_done_length h.done_length b
      seq_b_le := effectiveBrightness_le h }
  unfold State.frameWaitDone
  rw [endWait_eq]
  exact blockInv_sequenced hw hr hp (fun q hq => Option.some.inj (hq.symm.trans ho)) (rowPairs_pos h.cfg_valid)
    (Nat.lt_of_lt_of_le Nat.two_pos h.cfg_valid.w_ge) (fun _ => rfl) (.inr ⟨ho, by simp [ownerState, State.sequenced]⟩)

/-- A wait of the sequencer's owner ends, or the port holds as before. -/
theorem safe_tryFrameWait (h : BlockInv s) (ho : s.seqOwner = some s.actor) (hw : s.seqPhase = .wait) :
    Safe (tryFrameWait s) := by
  obtain ⟨_, hp, _⟩ := h.owner_ok _ ho
  have hold : BlockInv (s.hold .updateFrame .allDone) :=
    blockInv_updPort_set h (fun _ => rfl) hp (.inr (.inr (.inr ⟨rfl, rfl, ho, hw⟩))) fun _ => by simp [ownerState, hw]
  unfold tryFrameWait
  split_ifs
  · exact safe_next (frameWaitDone_inv h ho _)
  · exact safe_next (frameWaitDone_inv h ho _)
  · exact safe_next hold

/-- The four states of a port whose command is `UPDATE_FRAME`: not begun, waiting for the sequencer, waiting for the layers
as its owner, or left to the sequencer's own steps (R20, R126). -/
theorem safe_updateFrame (h : BlockInv s) (hp : s.actor < s.cfg.nports)
    (hst : ∀ c d, s.actorState = .held c d → c = .updateFrame) : Safe (execUpdateFrame s) := by
  have hok : PortOk s s.actor s.actorState := h.ports_ok _ hp
  unfold execUpdateFrame
  cases hs : s.actorState with
  | idle =>
    have hf : FreeActor s := ⟨h, hp, not_owner h (by rw [← State.actorState, hs]; exact ⟨nofun, nofun⟩)⟩
    exact safe_checked hf fun hc => safe_tryAcquire hf ((refusalCode_none hc).2.2.1 rfl)
  | exec c n k => exact safe_next h
  | held c d =>
    cases hst c d hs
    rw [hs] at hok
    obtain ⟨l, hc, _⟩ | ⟨hc, _⟩ | ⟨_, rfl, hr⟩ | ⟨_, rfl, ho, hw⟩ := hok
    · cases hc
    · cases hc
    · exact safe_tryAcquire ⟨h, hp, not_owner h (by rw [← State.actorState, hs]; exact ⟨nofun, nofun⟩)⟩ hr
    · exact safe_tryFrameWait h ho hw

/-! ### The sequencer's own steps -/

theorem writePlanes_inv (h : BlockInv s) (hr : s.initState = .ready) {y x : Nat} (hy : y < s.cfg.half) (hx : x < s.cfg.W)
    (c1 c2 : Color) (n : Nat) (hn : n ≤ s.cfg.K) : BlockInv (s.writePlanes y x c1 c2 n) := by
  induction n with
  | zero => exact h
  | succ n ih =>
    have hw := ih (Nat.le_of_succ_le hn)
    refine blockInv_writePlane hw ?_ ?_ ?_ _
    · rw [writePlanes_eq]
      exact hr
    · rw [writePlanes_cfg]
      exact hn
    · rw [writePlanes_cfg]
      exact position_lt h.cfg_valid hy hx

/-- The owner's progress follows the position: the next word's index, or the number of words when none is left (R119, R125). -/
theorem nextPosition_execOn_inv (h : BlockInv s) {p : Nat} (ho : s.seqOwner = some p) (hph : s.seqPhase = .encode) :
    BlockInv (s.nextPosition.execOn p .updateFrame (s.seqY * s.cfg.W + s.seqX + 1) 0) := by
  obtain ⟨hr, hp, _⟩ := h.owner_ok p ho
  have hs : ∀ q, s.seqOwner = some q → q = p := fun q hq => Option.some.inj (hq.symm.trans ho)
  have hW : 0 < s.cfg.W := Nat.lt_of_le_of_lt (Nat.zero_le _) h.seq_x_lt
  unfold State.nextPosition
  split_ifs with hx hy
  · exact blockInv_sequenced h hr hp hs h.seq_y_lt hx (fun _ => rfl)
      (.inr ⟨ho, by simp [ownerState, State.sequenced, hph, Nat.add_assoc]⟩)
  · have hend : s.seqX + 1 = s.cfg.W := Nat.le_antisymm h.seq_x_lt (Nat.le_of_not_lt hx)
    have hnext : s.seqY * s.cfg.W + s.seqX + 1 = (s.seqY + 1) * s.cfg.W := by
      rw [Nat.add_assoc, hend, Nat.succ_mul]
    exact blockInv_sequenced h hr hp hs hy hW (fun _ => rfl) (.inr ⟨ho, by simp [ownerState, State.sequenced, hph, hnext]⟩)
  · have hend : s.seqX + 1 = s.cfg.W := Nat.le_antisymm h.seq_x_lt (Nat.le_of_not_lt hx)
    have hlast : s.seqY + 1 = s.cfg.half := Nat.le_antisymm h.seq_y_lt (Nat.le_of_not_lt hy)
    have hall : s.seqY * s.cfg.W + s.seqX + 1 = s.cfg.planeWords := by
      rw [planeWords_eq h.cfg_valid, ← hlast, Nat.add_assoc, hend, Nat.succ_mul]
    exact blockInv_sequenced h hr hp hs (rowPairs_pos h.cfg_valid) hW (fun _ => rfl)
      (.inr ⟨ho, by simp [ownerState, State.sequenced, hall]⟩)

theorem safe_encodeStep (h : BlockInv s) {p : Nat} (ho : s.seqOwner = some p) (hph : s.seqPhase = .encode) :
    Safe (encodeStep p s) := by
  have hr : s.initState = .ready := (h.owner_ok p ho).1
  refine safe_orNoValue (compositeAt_some h hr _ _) fun c1 => safe_orNoValue (compositeAt_some h hr _ _) fun c2 => ?_
  have hw := writePlanes_inv h hr h.seq_y_lt h.seq_x_lt c1 c2 s.cfg.K le_rfl
  rw [writePlanes_eq] at hw ⊢
  exact safe_next (nextPosition_execOn_inv hw ho hph)

theorem safe_releaseStep (h : BlockInv s) {p : Nat} (ho : s.seqOwner = some p) : Safe (releaseStep p s) := by
  obtain ⟨hr, hp, _⟩ := h.owner_ok p ho
  have hf : BlockInv s.releaseAll := blockInv_flags h List.length_replicate h.done_length
  exact safe_next (blockInv_sequenced hf hr hp (fun q hq => Option.some.inj (hq.symm.trans ho)) h.seq_y_lt h.seq_x_lt
    (fun _ => rfl) (.inl ⟨rfl, rfl⟩))

theorem safe_sequencerStep (h : BlockInv s) : Safe (sequencerStep s) := by
  unfold sequencerStep
  split
  · rename_i p ho hph
    exact safe_encodeStep h ho hph
  · rename_i p ho _
    exact safe_releaseStep h ho
  · exact safe_next h

/-! ### The DMA engine -/

/-- The engine's position wraps inside its ranges (R128). -/
theorem advanceDma_emit_inv (h : BlockInv s) (w : DmaWord) : BlockInv (s.emit w).advanceDma := by
  rw [advanceDma_emit]
  exact
    { h with
      slot_lt := by
        show (if _ then _ else _) < s.cfg.slots
        split_ifs
        · exact Nat.mod_lt _ (slots_pos h.cfg_valid)
        · exact h.slot_lt
      idx_lt := by
        show (if _ then _ else _) < s.cfg.planeWords
        split_ifs with e
        · exact planeWords_pos h.cfg_valid
        · exact Nat.lt_of_le_of_ne h.idx_lt e }

theorem safe_dmaStep (h : BlockInv s) : Safe (dmaStep s) := by
  unfold dmaStep
  split_ifs with hd
  · have hr := ready_of_dmaRun h hd
    obtain ⟨k, hk, hkK⟩ := sched_slot_some h hr
    rw [hk]
    refine safe_orNoValue (space := .plane) ?_ fun w => safe_next (advanceDma_emit_inv h w)
    exact Option.isSome_iff_exists.1 (h.plane_full hr k hkK _ h.idx_lt)
  · exact safe_next h

/-! ### Commands and ports -/

/-- `PORT_STATE` of a port that is about to take a step of `i`: idle, or busy with `i` (R20). -/
def RunsOrIdle (i : Instr) (st : PortState) : Prop :=
  (∀ c n k, st = .exec c n k → c = i) ∧ (∀ c d, st = .held c d → c = i)

/-- A port that steps any other command than `UPDATE_FRAME` does not own the sequencer. -/
theorem notOwnerState_of_runsOrIdle {i : Instr} {st : PortState} (hst : RunsOrIdle i st) (hi : i ≠ .updateFrame) :
    NotOwnerState st :=
  ⟨fun n k he => hi (hst.1 _ n k he).symm, fun he => hi (hst.2 _ _ he).symm⟩

/-- One step of a command never stops and keeps the invariant (R40, R134, R141). -/
theorem safe_exec {i : Instr} (h : BlockInv s) (hp : s.actor < s.cfg.nports) (hst : RunsOrIdle i s.actorState) :
    Safe (exec i s) := by
  have free (hi : i ≠ .updateFrame) : FreeActor s := ⟨h, hp, not_owner h (notOwnerState_of_runsOrIdle hst hi)⟩
  cases i with
  | setPixel l x y color => exact safe_setPixel (free nofun) l x y color
  | setPixelOver l x y color => exact safe_setPixelOver (free nofun) l x y color
  | getPixel l x y => exact safe_getPixel (free nofun) l x y
  | setAll l color => exact safe_setAll (free nofun) l color hst.1
  | fadeOut l factor => exact safe_fadeOut (free nofun) l factor hst.1
  | shiftUp l n => exact safe_shiftUp (free nofun) l n hst.1
  | composite x y => exact safe_composite (free nofun) x y
  | startDrawing l => exact safe_startDrawing (free nofun) l hst.2
  | doneDrawing l => exact safe_doneDrawing (free nofun) l
  | waitDrawingDone => exact safe_waitDrawingDone (free nofun)
  | doneUpdating => exact safe_doneUpdating (free nofun)
  | init b => exact safe_init (free nofun) b
  | updateFrame => exact safe_updateFrame h hp hst.2
  | setBrightness v => exact safe_setBrightness (free nofun) v
  | setBrightnessCap v => exact safe_setBrightnessCap (free nofun) v
  | readReg r => exact safe_readReg (free nofun) r

/-- Words taken out of a FIFO leave the port's state (R20, R68). -/
theorem portState_takeWords (n p : Nat) : (s.takeWords n).portState p = s.portState p :=
  portState_updPort_keep _ _ fun _ => rfl

theorem safe_fetchStep (h : BlockInv s) (hp : s.actor < s.cfg.nports) (hidle : s.actorState = .idle) (ws : List Word) :
    Safe (fetchStep ws s) := by
  have taken (n : Nat) : BlockInv (s.takeWords n) := blockInv_updPort_keep h _ fun _ => rfl
  have idle (n : Nat) : (s.takeWords n).actorState = .idle := (portState_takeWords n s.actor).trans hidle
  unfold fetchStep
  split
  · exact safe_next h
  · rename_i n _
    have hf : NotOwnerState (s.takeWords n).actorState := by rw [idle]; exact ⟨nofun, nofun⟩
    exact safe_respond ⟨taken n, hp, not_owner (taken n) hf⟩ _ _
  · rename_i i n _
    exact safe_exec (taken n) hp (by rw [idle]; exact ⟨nofun, nofun⟩)

/-- `PORT_STATE` of a port that exists. -/
theorem portState_of_port {p : Nat} {q : Port} (hq : s.ports[p]? = some q) : s.portState p = q.st := by
  simp only [State.portState, hq]

theorem safe_portStep (h : BlockInv s) (p : Nat) (alt : Bool) : Safe (portStep p alt s) := by
  unfold portStep
  cases hq : s.ports[p]? with
  | none => exact safe_next h
  | some q =>
    have hp : p < s.cfg.nports := by
      rw [← h.ports_length]
      exact (List.getElem?_eq_some_iff.1 hq).1
    have hst : (s.actAs p alt).actorState = q.st := portState_of_port hq
    have ha := blockInv_actAs h p alt
    cases hs : q.st with
    | idle => simpa only [hs] using safe_fetchStep ha hp (hst.trans hs) q.inq
    | exec c n k =>
      simp only [hs]
      exact safe_exec ha hp (by rw [hst, hs]; exact ⟨fun _ _ _ e => by cases e; rfl, nofun⟩)
    | held c d =>
      simp only [hs]
      exact safe_exec ha hp (by rw [hst, hs]; exact ⟨nofun, fun _ _ e => by cases e; rfl⟩)

/-- Whoever takes the turn, the step answers a next state that meets the invariant (R40, R134, R141). -/
theorem safe_turnStep (h : BlockInv s) (u : Turn) : Safe (turnStep u s) := by
  cases u with
  | port p alt => exact safe_portStep h p alt
  | sequencer => exact safe_sequencerStep h
  | dma => exact safe_dmaStep h
  | hostWrite p w => exact safe_next (blockInv_updPort_keep h p fun _ => rfl)
  | hostRead p => exact safe_next (blockInv_updPort_keep h p fun _ => rfl)
  | reset => exact safe_next (externalReset_inv h)

/-- Settles O14: every agent's step is safe (`safe_turnStep`), from the per-command lemmas through `safe_exec`. -/
theorem stepNeverStopsAndKeepsTheInvariant : Obligations.StepNeverStopsAndKeepsTheInvariant :=
  fun s h => safe_turnStep (blockInv_dropTurn h) s.nextTurn

end Sys2Proof.Machine
end

section
/-! PROOFS. What each turn runs (R17, R20, R68), the reset values (R39), and the registers and brightness commands: O5, O8 to
O12, O51, O55, O56. -/

namespace Sys2Proof

/-! ### Later words -/

/-- The operands of a row come from the words its length counts: an argument word beyond them is not read (R65, R66). -/
theorem buildInstr_congr : ∀ r ∈ opTable, ∀ w0 a1 a2 b1 b2 : Word, (2 ≤ r.words → a1 = b1) → (3 ≤ r.words → a2 = b2) →
    buildInstr r.shape w0 a1 a2 = buildInstr r.shape w0 b1 b2 := by
  intro r hr w0 a1 a2 b1 b2 h1 h2
  fin_cases hr <;> simp_all [buildInstr]

/-- Settles O5: the opcode fixes the length, and the words beyond it are not read (`buildInstr_congr`). -/
theorem laterWordsDoNotChangeACommand : Obligations.LaterWordsDoNotChangeACommand := by
  intro ws rest hw
  cases ws with
  | nil => exact absurd rfl hw
  | cons w0 args =>
    simp only [decode, List.cons_append] at hw ⊢
    cases hr : lookupRow (opcodeField w0) with
    | none => rfl
    | some r =>
      simp only [hr, List.length_append] at hw ⊢
      have hlen : ¬args.length + 1 < r.words := fun hlt => hw (if_pos hlt)
      have hlen' : ¬args.length + rest.length + 1 < r.words := by omega
      have hargs (k : Nat) (hk : k + 2 ≤ r.words) : (args ++ rest).getD k 0 = args.getD k 0 :=
        List.getD_append _ _ _ _ (by omega)
      rw [if_neg hlen, if_neg hlen',
        buildInstr_congr r (mem_of_lookupRow hr).1 w0 _ _ _ _ (hargs 0) (hargs 1)]

end Sys2Proof

namespace Sys2Proof.Machine

variable {s t : State}

/-! ### Turns -/

/-- A turn of an idle port looks at its FIFO (R20). -/
theorem step_of_idle {p : Nat} {alt : Bool} {q : Port} (hn : s.nextTurn = .port p alt) (hq : s.ports[p]? = some q)
    (hst : q.st = .idle) : step s = fetchStep q.inq (s.acting p alt) := by
  simp only [step, hn, turnStep, portStep, dropTurn_ports, hq, hst, State.acting]

/-- A turn of a port in `EXEC` or `HELD` goes on with its command (R20). -/
theorem step_of_busy {p : Nat} {alt : Bool} {q : Port} {cmd : Instr} (hn : s.nextTurn = .port p alt)
    (hq : s.ports[p]? = some q) (hst : (∃ n count, q.st = .exec cmd n count) ∨ ∃ cond, q.st = .held cmd cond) :
    step s = exec cmd (s.acting p alt) := by
  obtain ⟨n, count, hst⟩ | ⟨cond, hst⟩ := hst <;>
    simp only [step, hn, turnStep, portStep, dropTurn_ports, hq, hst, State.acting]

/-- Settles O8: the fetch of an idle port finds the command. -/
theorem idlePortStepRunsTheDecodedCommand : Obligations.IdlePortStepRunsTheDecodedCommand := by
  intro s p n alt q i hn hq hst hd
  rw [step_of_idle hn hq hst, fetchStep, hd]
  rfl

/-- Settles O9: `step_of_busy`. -/
theorem busyPortStepContinuesItsCommand : Obligations.BusyPortStepContinuesItsCommand :=
  fun _ _ _ _ _ hn hq hst => step_of_busy hn hq hst

/-- An illegal command's words are taken out and answered in one change of the port (R68, R137). -/
theorem takeWords_respond (n : Nat) (code data) :
    (s.takeWords n).respond code data = s.updPort s.actor fun q => ⟨q.inq.drop n, .idle, q.out ++ [⟨code, data⟩]⟩ := by
  simp only [State.respond, State.respondOn, State.takeWords, State.updPort, List.modify_modify_eq]
  rfl

/-- Settles O10: the fetch of an idle port finds no command. -/
theorem illegalEncodingIsConsumedAndPartialCommandWaits : Obligations.IllegalEncodingIsConsumedAndPartialCommandWaits := by
  intro s p alt q hn hq hst
  rw [step_of_idle hn hq hst, fetchStep]
  constructor
  · intro why n hd
    rw [hd]
    exact congrArg Host.Outcome.next (takeWords_respond n .illegal 0)
  · intro hd
    rw [hd]
    rfl

/-- Settles O11: `turnStep` names the step of each agent. -/
theorem otherAgentsTurnsRunTheirSteps : Obligations.OtherAgentsTurnsRunTheirSteps := by
  intro s
  refine ⟨fun hn => ?_, fun hn => ?_, fun p w hn => ?_, fun p hn => ?_⟩ <;> simp only [step, hn, turnStep] <;> rfl

/-- Settles O12: the step is `State.externalReset`, which takes every value but the configuration from `State.resetWith`. -/
theorem externalResetGivesTheResetValues : Obligations.ExternalResetGivesTheResetValues := by
  intro s hn
  refine ⟨s.dropTurn.externalReset, by simp only [step, hn, turnStep], ?_⟩
  exact ⟨rfl, rfl, rfl, rfl, rfl, rfl, fun _ => rfl, fun _ => rfl, rfl, rfl, rfl, rfl, rfl, rfl⟩

/-! ### Registers -/

/-- An admitted width keeps the clamp of the brightness registers inside their 16 bits (R5, R25). -/
theorem clampBrightness_toNat {c : Config} (h : c.Valid) (v : Nat) : (clampBrightness c v).toNat = min v (c.W - 2) := by
  have := h.w_le
  exact toNat_ofNat_of_lt (by omega)

/-- A register is read as the number it holds (R25, R26, R127). -/
theorem setWidth_eq_ofNat (b : BitVec 16) : b.setWidth 32 = BitVec.ofNat 32 b.toNat := by
  rw [BitVec.ofNat_toNat]

theorem exec_setBrightness (hr : s.initState = .ready) (v : Nat) :
    exec (.setBrightness v) s = .next (({ s with brightness := clampBrightness s.cfg v } : State).respond .ok
      ((clampBrightness s.cfg v).setWidth 32)) := by
  rw [exec, execSetBrightness, checked_pass (refusalCode_ready hr)]

theorem exec_setBrightnessCap (hr : s.initState = .ready) (v : Nat) :
    exec (.setBrightnessCap v) s = .next (({ s with brightnessCap := clampBrightness s.cfg v } : State).respond .ok
      ((clampBrightness s.cfg v).setWidth 32)) := by
  rw [exec, execSetBrightnessCap, checked_pass (refusalCode_ready hr)]

/-- Settles O51: both commands pass their checks in a ready block, and `clampBrightness_toNat` gives the value stored. -/
theorem brightnessCommandsClampAndReport : Obligations.BrightnessCommandsClampAndReport := by
  intro s v hv hr
  have hc : (clampBrightness s.cfg v).toNat = min v (s.cfg.W - 2) := clampBrightness_toNat hv v
  have hd : BitVec.ofNat 32 (min v (s.cfg.W - 2)) = (clampBrightness s.cfg v).setWidth 32 := by
    rw [setWidth_eq_ofNat, hc]
  rw [hd]
  exact ⟨⟨_, exec_setBrightness hr v, rfl, hc, rfl⟩, _, exec_setBrightnessCap hr v, rfl, hc, rfl⟩

/-- A defined register responds in every state (R127, R136). -/
theorem execReadReg_some {r : Nat} {v : BitVec 32} (h : s.regValue r = some v) :
    exec (.readReg r) s = .next (s.respond .ok v) := by
  simp [exec, execReadReg, State.checked, State.refusalCode, h]

/-- Settles O55, register by register with `execReadReg_some`. -/
theorem readRegRespondsTheRegister : Obligations.ReadRegRespondsTheRegister := by
  intro s r hr
  obtain ⟨v, hv⟩ : ∃ v, s.regValue r = some v := by
    interval_cases r <;> exact ⟨_, rfl⟩
  refine ⟨_, v, execReadReg_some hv, rfl, rfl, ?_, ?_, ?_, ?_, ?_⟩ <;> rintro rfl <;> cases hv
  · rfl
  · exact setWidth_eq_ofNat _
  · exact setWidth_eq_ofNat _
  · rfl
  · rfl

/-! ### The fields of the registers -/

/-- Bit `l` of a flag field (R34). -/
theorem flagByte_getLsbD (n : Nat) (flags : List Bool) (l : Nat) (hl : l < 8) :
    (flagByte n flags).getLsbD l = (decide (l < n) && flagAt flags l) := by
  unfold flagByte flagBit
  simp only [BitVec.getLsbD_append]
  interval_cases l <;> simp

/-- The bits of `STATUS` above its three single bits (R34). -/
theorem status_getLsbD_add_three (i : Nat) :
    s.status.getLsbD (i + 3) =
      if i < 5 then false
      else if i < 13 then (flagByte s.cfg.N s.drawable).getLsbD (i - 5)
      else (flagByte s.cfg.N s.done).getLsbD (i - 13) := by
  have hi : ¬i + 3 < 1 ∧ ¬i + 2 < 1 ∧ ¬i + 1 < 1 := by omega
  simp only [State.status, BitVec.getLsbD_append, Nat.add_one_sub_one, hi, if_false, BitVec.getLsbD_zero]
  by_cases h5 : i < 5
  · rw [if_pos h5, if_pos h5]
  rw [if_neg h5, if_neg h5]
  by_cases h13 : i < 13
  · rw [if_pos (by omega), if_pos h13]
  rw [if_neg (by omega), if_neg h13, Nat.sub_sub]
  by_cases h21 : i < 21
  · rw [if_pos (by omega)]
  · rw [if_neg (by omega), BitVec.getLsbD_of_ge _ _ (by omega)]

/-- A field in front of another counts from the other's width. -/
theorem toNat_append_eq {m n : Nat} (a : BitVec m) (b : BitVec n) : (a ++ b).toNat = b.toNat + 2 ^ n * a.toNat := by
  rw [BitVec.toNat_append, ← Nat.shiftLeft_add_eq_or_of_lt b.isLt, Nat.shiftLeft_eq, Nat.add_comm, Nat.mul_comm]

/-- Settles O56: the fields of `STATUS` by `status_getLsbD_add_three` and `flagByte_getLsbD`, those of the configuration words
by `toNat_append_eq`, since an admitted configuration keeps each in its width. -/
theorem statusAndConfigurationFields : Obligations.StatusAndConfigurationFields := by
  refine ⟨fun s => ⟨?_, ?_, ?_, ?_, ?_, ?_, ?_⟩, fun c hc => ⟨?_, ?_⟩⟩
  · simp only [State.status, BitVec.getLsbD_append]
    simp
  · simp only [State.status, BitVec.getLsbD_append]
    simp
  · simp only [State.status, BitVec.getLsbD_append]
    simp
  · intro i h3 h7
    obtain ⟨j, rfl⟩ := Nat.exists_eq_add_of_le' h3
    rw [status_getLsbD_add_three, if_pos (by omega)]
  · intro l hl
    rw [show 8 + l = l + 5 + 3 by omega, status_getLsbD_add_three, if_neg (by omega), if_pos (by omega), Nat.add_sub_cancel,
      flagByte_getLsbD _ _ _ hl]
    rfl
  · intro l hl
    rw [show 16 + l = l + 13 + 3 by omega, status_getLsbD_add_three, if_neg (by omega), if_neg (by omega),
      Nat.add_sub_cancel, flagByte_getLsbD _ _ _ hl]
    rfl
  · intro i hi
    obtain ⟨j, rfl⟩ := Nat.exists_eq_add_of_le' (Nat.le_trans (by omega : 3 ≤ 24) hi)
    rw [status_getLsbD_add_three, if_neg (by omega), if_neg (by omega), BitVec.getLsbD_of_ge _ _ (by omega)]
  · have hw := hc.w_le
    have hh := hc.h_le
    rw [config0, toNat_append_eq, toNat_ofNat_of_lt (by omega), toNat_ofNat_of_lt (by omega)]
  · have hn := hc.n_le
    have hk := hc.k_le
    have hl := hc.l_le
    rw [config1, toNat_append_eq, toNat_append_eq, toNat_append_eq, toNat_ofNat_of_lt (by omega),
      toNat_ofNat_of_lt (by omega), toNat_ofNat_of_lt (by omega), BitVec.toNat_ofNat]
    omega

end Sys2Proof.Machine
end

section
/-! PROOFS. What a step can do to the ports and to the block, said once for every agent (R17, R52, R53): O16, O18. -/

namespace Sys2Proof.Machine

variable {s t u v : State}

/-! ### Ports -/

/-- What a turn of port `p` can do to it: nothing enters `PORT_OUT`, or one response does and the port is idle (R70). -/
def RespondsAtMostOnce (f : Port → Port) : Prop :=
  ∀ q, (f q).out = q.out ∨ ((f q).st = .idle ∧ ∃ r, (f q).out = q.out ++ [r])

theorem effect_ports {i : Instr} (h : Effect s i u) : u.ports = s.ports ∧ u.actor = s.actor := by
  cases h with
  | frame b hs =>
    rw [endWait_eq]
    exact ⟨rfl, rfl⟩
  | _ => exact ⟨rfl, rfl⟩

theorem moved_ports (h : Moved u t) : ∃ f, PortMove f ∧ t.ports = u.ports.modify u.actor f := by
  rcases h with rfl | ⟨f, hf, rfl⟩
  · exact ⟨id, fun _ => ⟨rfl, .inl rfl⟩, (List.modify_id _ _).symm⟩
  · exact ⟨f, hf, rfl⟩

/-- A port's turn changes that port alone, and answers at most once (R53, R70). -/
theorem portTurn_ports {p : Nat} {alt : Bool} (hn : s.nextTurn = .port p alt) (h : step s = .next t) :
    ∃ f, RespondsAtMostOnce f ∧ t.ports = s.ports.modify p f := by
  have unchanged : ∃ f, RespondsAtMostOnce f ∧ s.ports = s.ports.modify p f :=
    ⟨id, fun _ => .inl rfl, (List.modify_id _ _).symm⟩
  rcases port_next hn h with rfl | rfl | ⟨n, rfl⟩ | ⟨i, v, u, _, hv, he, hm⟩
  · exact unchanged
  · exact unchanged
  · exact ⟨fun q => ⟨q.inq.drop n, .idle, q.out ++ [⟨.illegal, 0⟩]⟩, fun _ => .inr ⟨rfl, _, rfl⟩,
      by rw [takeWords_respond]; rfl⟩
  · obtain ⟨f, hf, ht⟩ := moved_ports hm
    obtain ⟨hup, hua⟩ := effect_ports he
    rw [hup, hua] at ht
    rcases hv with rfl | ⟨n, rfl⟩
    · exact ⟨f, fun q => (hf q).2, ht⟩
    · refine ⟨f ∘ fun q => { q with inq := q.inq.drop n }, fun q => (hf _).2, ht.trans ?_⟩
      exact List.modify_modify_eq _ _ _ _

/-- Settles O16: `portTurn_ports`, read at the other ports and at the port itself. -/
theorem portStepLeavesOtherPortsAndRespondsAtMostOnce : Obligations.PortStepLeavesOtherPortsAndRespondsAtMostOnce := by
  intro s t p alt hn h
  obtain ⟨f, hf, ht⟩ := portTurn_ports hn h
  rw [ht]
  refine ⟨fun q hq => List.getElem?_modify_ne _ _ (Ne.symm hq), fun old hold => ⟨f old, ?_, hf old⟩⟩
  rw [List.getElem?_modify_eq, hold]
  rfl

/-! ### What a step does to the block -/

/-- `t` is `s` but for the ports and the model's own fields. -/
def SameBlock (s t : State) : Prop :=
  t = { s with agenda := t.agenda, fresh := t.fresh, actor := t.actor, alt := t.alt, ports := t.ports }

theorem SameBlock.cfg (h : SameBlock s t) : t.cfg = s.cfg := (congrArg State.cfg h :)
theorem SameBlock.layer (h : SameBlock s t) : t.layer = s.layer := (congrArg State.layer h :)
theorem SameBlock.plane (h : SameBlock s t) : t.plane = s.plane := (congrArg State.plane h :)
theorem SameBlock.drawable (h : SameBlock s t) : t.drawable = s.drawable := (congrArg State.drawable h :)
theorem SameBlock.done (h : SameBlock s t) : t.done = s.done := (congrArg State.done h :)
theorem SameBlock.bus (h : SameBlock s t) : t.bus = s.bus := (congrArg State.bus h :)

theorem moved_sameBlock (h : Moved s t) : SameBlock s t := by
  rcases h with rfl | ⟨f, _, rfl⟩ <;> rfl

/-- A step of the next command `i` on port `p`: it starts from `v`, which is `s` but for the words taken, and its effect
is `u`. -/
structure CommandStep (s t : State) (p : Nat) (alt : Bool) (i : Instr) (v u : State) : Prop where
  turn : s.nextTurn = .port p alt
  command : nextCommand s = some i
  before : SameBlock s v
  actorState : v.actorState = s.portState p
  effect : Effect v i u
  after : SameBlock u t

/-- Everything a step can do to the block beside the ports, by the agent that takes it. -/
inductive BlockStep (s t : State) : Prop
  /-- nothing: a turn without a step, an illegal encoding, a turn of the host -/
  | quiet (ht : SameBlock s t)
  /-- one step of a command at its port -/
  | command (p : Nat) (alt : Bool) (i : Instr) (v u : State) (hc : CommandStep s t p alt i v u)
  /-- an encode step: at most the planes, the position and the phase -/
  | encode (plane : Memory 16) (ph : SeqPhase) (y x : Nat) (hn : s.nextTurn = .sequencer) (hp : s.seqPhase = .encode)
      (ht : SameBlock { s with plane := plane, seqPhase := ph, seqY := y, seqX := x } t)
  /-- the release of a frame -/
  | release (hn : s.nextTurn = .sequencer) (hp : s.seqPhase = .release)
      (ht : SameBlock { s.releaseAll with seqOwner := none } t)
  /-- one word of the DMA engine -/
  | word (w : DmaWord) (slot idx : Nat) (hn : s.nextTurn = .dma)
      (ht : SameBlock { s with bus := s.bus ++ [w], dmaSlot := slot, dmaIdx := idx } t)
  /-- an external reset -/
  | reset (hn : s.nextTurn = .reset) (ht : SameBlock s.externalReset t)

/-- One step of the machine as its agent's change of the block (R17, R52). -/
theorem step_blockStep (h : step s = .next t) : BlockStep s t := by
  cases hn : s.nextTurn with
  | port p alt =>
    rcases port_next hn h with rfl | rfl | ⟨n, rfl⟩ | ⟨i, v, u, hi, hv, he, hm⟩
    · exact .quiet rfl
    · exact .quiet rfl
    · exact .quiet rfl
    · have hvs : SameBlock s v ∧ v.actorState = s.portState p := by
        rcases hv with rfl | ⟨n, rfl⟩
        · exact ⟨rfl, rfl⟩
        · exact ⟨rfl, portState_takeWords n p⟩
      exact .command p alt i v u ⟨hn, hi, hvs.1, hvs.2, he, moved_sameBlock hm⟩
  | sequencer =>
    simp only [step, hn, turnStep] at h
    rcases sequencer_next h with rfl | ⟨p, c1, c2, _, hp, _, _, rfl⟩ | ⟨p, c, _, hp, rfl⟩
    · exact .quiet rfl
    · rw [nextPosition_eq, writePlanes_eq]
      exact .encode _ _ _ _ hn hp rfl
    · exact .release hn hp rfl
  | dma =>
    simp only [step, hn, turnStep] at h
    rcases dma_next h with rfl | ⟨_, w, rfl⟩
    · exact .quiet rfl
    · rw [advanceDma_emit]
      exact .word w _ _ hn rfl
  | hostWrite p w =>
    simp only [step, hn, turnStep] at h
    cases h
    exact .quiet rfl
  | hostRead p =>
    simp only [step, hn, turnStep] at h
    cases h
    exact .quiet rfl
  | reset =>
    simp only [step, hn, turnStep] at h
    cases h
    exact .reset hn rfl

/-- `t` is `s` but for what the host, the sequencer and the DMA engine change. -/
def OtherAgentsOnly (s t : State) : Prop :=
  t = { s with
    agenda := t.agenda, fresh := t.fresh, actor := t.actor, alt := t.alt, ports := t.ports, plane := t.plane
    drawable := t.drawable, seqOwner := t.seqOwner, seqPhase := t.seqPhase, seqY := t.seqY, seqX := t.seqX
    bus := t.bus, dmaSlot := t.dmaSlot, dmaIdx := t.dmaIdx }

theorem SameBlock.otherAgentsOnly (h : SameBlock s t) : OtherAgentsOnly s t := by
  rw [OtherAgentsOnly, h]

/-- What the other agents leave alone changes, but for a reset, only by the effect of a command. -/
theorem command_of_change {α : Type} {g : State → α} (hg : ∀ {a b}, OtherAgentsOnly a b → g b = g a)
    (h : step s = .next t) (hr : s.nextTurn ≠ .reset) (hne : g t ≠ g s) :
    ∃ p alt i v u, CommandStep s t p alt i v u ∧ g u ≠ g v := by
  cases step_blockStep h with
  | quiet ht => exact absurd (hg ht.otherAgentsOnly) hne
  | command p alt i v u hc =>
    refine ⟨p, alt, i, v, u, hc, fun he => hne ?_⟩
    rw [hg hc.after.otherAgentsOnly, he, hg hc.before.otherAgentsOnly]
  | encode plane ph y x _ _ ht => exact absurd (hg (by rw [OtherAgentsOnly, ht])) hne
  | release _ _ ht => exact absurd (hg (by rw [OtherAgentsOnly, ht]; rfl)) hne
  | word w slot idx _ ht => exact absurd (hg (by rw [OtherAgentsOnly, ht])) hne
  | reset hn _ => exact absurd hn hr

/-! ### `INIT_STATE` -/

theorem effect_initState {i : Instr} (h : Effect s i u) :
    u.initState = s.initState ∨ (s.initState = .uninit ∧ ∃ b, i = .init b) := by
  cases h with
  | initOk b hu => exact .inr ⟨hu, b, rfl⟩
  | initFail b hu => exact .inr ⟨hu, b, rfl⟩
  | frame b hs =>
    rw [endWait_eq]
    exact .inl rfl
  | _ => exact .inl rfl

/-- Settles O18: `command_of_change` for `INIT_STATE`, which only the effects of `INIT` reach. -/
theorem initStateChangesOnlyByInitOrReset : Obligations.InitStateChangesOnlyByInitOrReset := by
  intro s t h hne
  by_cases hr : s.nextTurn = .reset
  · exact .inl hr
  obtain ⟨p, alt, i, v, u, hc, hne⟩ :=
    command_of_change (g := State.initState) (fun h => (congrArg State.initState h :)) h hr hne
  obtain he | ⟨hu, b, rfl⟩ := effect_initState hc.effect
  · exact absurd he hne
  · exact .inr ⟨(congrArg State.initState hc.before :).symm.trans hu, b, hc.command⟩

end Sys2Proof.Machine
end

section
/-! PROOFS. Which steps write the layers (R22, R47), and that premultiplied layers stay so (R83, R85): O26, O28. -/

namespace Sys2Proof.Machine

variable {s t u v : State}

theorem effect_layer {i : Instr} (h : Effect s i u) : u.layer = s.layer ∨ writesLayer i = true := by
  cases h with
  | setPixel | setPixelOver | setAll | fadeOut | shiftUp | initOk => exact .inr rfl
  | frame b hs =>
    rw [endWait_eq]
    exact .inl rfl
  | _ => exact .inl rfl

/-- A command but `INIT` changes at most the element it names (R47, R54). -/
theorem effect_read_layer {i : Instr} (hw : s.layer.wf) (hi : ∀ b, i ≠ .init b) {a : Nat} (ha : namedElement s i ≠ some a)
    (h : Effect s i u) : u.layer.read a = s.layer.read a := by
  have kept {l k : Nat} (v : Pixel) (hn : some (layerAddr s.cfg l k) ≠ some a) :
      (s.writeLayer l k v).layer.read a = s.layer.read a := by
    rw [writeLayer_layer, read_write _ hw, if_neg fun e => hn (congrArg some e.symm)]
  cases h with
  | setPixel l x y c hr hb => exact kept _ (by simpa only [namedElement, if_pos hb] using ha)
  | setPixelOver l x y c p hr hb hp => exact kept _ (by simpa only [namedElement, if_pos hb] using ha)
  | setAll l c hr => exact kept _ ha
  | fadeOut l f p hr hp => exact kept _ ha
  | shiftUp l k v hr hv => exact kept _ ha
  | initOk b hu => exact absurd rfl (hi b)
  | frame b hs => rw [endWait_eq]
  | _ => rfl

/-- The element a command names depends on the configuration and on where its port stands. -/
theorem namedElement_congr (hc : t.cfg = s.cfg) (ha : t.actorState = s.actorState) (i : Instr) :
    namedElement t i = namedElement s i := by
  cases i <;> simp only [namedElement, bulkAt, hc, ha]

theorem CommandStep.namedElement {p : Nat} {alt : Bool} {i : Instr} (hc : CommandStep s t p alt i v u) :
    namedElement v i = writtenElement s := by
  rw [writtenElement, hc.turn]
  simp only [hc.command, Option.bind_some]
  exact namedElement_congr (s := s.actAs p alt) hc.before.cfg hc.actorState i

/-- Settles O28: `command_of_change` for the layers, then `effect_layer`; and for one element, then `effect_read_layer`. -/
theorem layerStepsWriteAtMostOneElement : Obligations.LayerStepsWriteAtMostOneElement := by
  intro s t hs h
  refine ⟨fun hne => ?_, fun hr hinit a ha => ?_⟩
  · by_cases hr : s.nextTurn = .reset
    · exact .inl hr
    obtain ⟨p, alt, i, v, u, hc, hne⟩ := command_of_change (g := State.layer) (fun h => (congrArg State.layer h :)) h hr hne
    exact .inr ⟨i, hc.command, (effect_layer hc.effect).resolve_left hne⟩
  · by_contra hne
    obtain ⟨p, alt, i, v, u, hc, hne⟩ := command_of_change (g := fun s => s.layer.read a)
      (fun h => (congrArg (fun s => s.layer.read a) h :)) h hr hne
    refine hne (effect_read_layer ?_ ?_ ?_ hc.effect)
    · rw [hc.before.layer]
      exact hs.layer_wf
    · rintro b rfl
      exact hinit b hc.command
    · rw [hc.namedElement]
      exact ha

/-! ### Premultiplied layers -/

theorem sc_le {f : Nat} (hf : f ≤ 255) (v : Nat) : sc f v ≤ v := by
  rw [sc_eq]
  exact Nat.div_le_of_le_mul (Nat.mul_le_mul_right v (by omega))

theorem sc_mono (f : Nat) {v w : Nat} (h : v ≤ w) : sc f v ≤ sc f w := by
  rw [sc_eq, sc_eq]
  exact Nat.div_le_div_right (Nat.mul_le_mul_left _ h)

theorem ch_scale {f : Nat} (hf : f ≤ 255) (p : Pixel) (c : Channel) : ch (scale f p) c = sc f (ch p c) := by
  rw [ch_scale_mod]
  exact Nat.mod_eq_of_lt ((sc_le hf _).trans_lt (ch_lt p c))

/-- Scaling keeps a premultiplied pixel premultiplied (R80). -/
theorem premultiplied_scale {f : Nat} (hf : f ≤ 255) {p : Pixel} (h : Premultiplied p) : Premultiplied (scale f p) := by
  obtain ⟨hR, hG, hB⟩ := h
  simp only [Premultiplied, ch_scale hf]
  exact ⟨sc_mono f hR, sc_mono f hG, sc_mono f hB⟩

/-- What is left of a channel under a source of alpha `f` grows with the channel (R81). -/
theorem sub_sc_mono {f : Nat} (hf : f ≤ 255) {v w : Nat} (h : v ≤ w) : v - sc f v ≤ w - sc f w := by
  rw [sc_eq, sc_eq]
  obtain ⟨d, rfl⟩ := Nat.exists_eq_add_of_le h
  have hd : (f + 1) * d ≤ 256 * d := Nat.mul_le_mul_right d (by omega)
  rw [Nat.mul_add]
  omega

theorem sc_255 {f : Nat} (hf : f ≤ 255) : sc f 255 = f := by
  rw [sc_eq]
  omega

/-- `over` as what is left of the destination and the source, in a form without a difference of sums (R81). -/
theorem overChannel_eq (dst src : Pixel) (c : Channel) :
    overChannel dst src c = ch dst c - sc (ch src .A) (ch dst c) + ch src c := by
  have := sc_le (Nat.le_of_lt_succ (ch_lt src .A)) (ch dst c)
  rw [overChannel]
  omega

/-- The alpha of `over` never wraps (R82). -/
theorem overChannel_alpha_le (dst src : Pixel) : overChannel dst src .A ≤ 255 := by
  have hf := Nat.le_of_lt_succ (ch_lt src .A)
  have h := sub_sc_mono hf (Nat.le_of_lt_succ (ch_lt dst .A))
  rw [sc_255 hf] at h
  rw [overChannel_eq]
  omega

/-- Channels below the alphas of both pixels give a channel below the alpha of `over` (R83). -/
theorem overChannel_le_alpha {dst src : Pixel} {c : Channel} (hd : ch dst c ≤ ch dst .A) (hs : ch src c ≤ ch src .A) :
    overChannel dst src c ≤ overChannel dst src .A := by
  rw [overChannel_eq, overChannel_eq]
  exact Nat.add_le_add (sub_sc_mono (Nat.le_of_lt_succ (ch_lt src .A)) hd) hs

/-- `over` keeps premultiplied pixels premultiplied, since then no channel wraps (R83). -/
theorem premultiplied_blendOver {dst src : Pixel} (hd : Premultiplied dst) (hs : Premultiplied src) :
    Premultiplied (blendOver dst src) := by
  have hA := overChannel_alpha_le dst src
  have channel {c : Channel} (hdc : ch dst c ≤ ch dst .A) (hsc : ch src c ≤ ch src .A) :
      ch (blendOver dst src) c ≤ ch (blendOver dst src) .A := by
    have hc := overChannel_le_alpha hdc hsc
    rw [ch_blendOver, ch_blendOver, Nat.mod_eq_of_lt (by omega), Nat.mod_eq_of_lt (by omega)]
    exact hc
  exact ⟨channel hd.1 hs.1, channel hd.2.1 hs.2.1, channel hd.2.2 hs.2.2⟩

theorem premultiplied_zero : Premultiplied 0 := by decide

/-- A premultiplied pixel written keeps the layers premultiplied. -/
theorem layersPremultiplied_writeLayer (hw : s.layer.wf) (h : LayersPremultiplied s) {v : Pixel} (hv : Premultiplied v)
    (l i : Nat) : LayersPremultiplied (s.writeLayer l i v) := by
  intro a p hp
  rw [writeLayer_layer, read_write _ hw] at hp
  split_ifs at hp with e
  · cases hp
    exact hv
  · exact h a p hp

/-- A command with a premultiplied colour keeps the layers premultiplied (R83, R85). -/
theorem effect_layersPremultiplied {i : Instr} (hw : s.layer.wf) (hl : LayersPremultiplied s)
    (hc : ∀ color, colorOperand i = some color → Premultiplied color) (h : Effect s i u) : LayersPremultiplied u := by
  have write {v : Pixel} (hv : Premultiplied v) (l k : Nat) := layersPremultiplied_writeLayer hw hl hv l k
  cases h with
  | setPixel l x y c hr hb => exact write (hc c rfl) _ _
  | setPixelOver l x y c p hr hb hp => exact write (premultiplied_blendOver (hl _ _ hp) (hc c rfl)) _ _
  | setAll l c hr => exact write (hc c rfl) _ _
  | fadeOut l f p hr hp => exact write (premultiplied_scale (Nat.sub_le _ _) (hl _ _ hp)) _ _
  | shiftUp l k v hr hv =>
    rcases hv with rfl | ⟨m, hm⟩
    · exact write premultiplied_zero _ _
    · exact write (hl _ _ hm) _ _
  | initOk b hu =>
    intro a p hp
    rw [State.initialised, read_filled] at hp
    split_ifs at hp
    cases hp
    exact premultiplied_zero
  | frame b hs =>
    rw [endWait_eq]
    exact hl
  | _ => exact hl

/-- The claim reads nothing but the layers. -/
theorem layersPremultiplied_congr (h : t.layer = s.layer) (hs : LayersPremultiplied s) : LayersPremultiplied t := by
  rw [LayersPremultiplied, h]
  exact hs

/-- Settles O26: a reset empties the layers, and any other change of them is a command's, `effect_layersPremultiplied`. -/
theorem premultipliedLayersStayPremultiplied : Obligations.PremultipliedLayersStayPremultiplied := by
  intro s t hs hl hcolor h
  cases step_blockStep h with
  | command p alt i v u hc =>
    have hw : v.layer.wf := hc.before.layer.symm ▸ hs.layer_wf
    refine layersPremultiplied_congr hc.after.layer
      (effect_layersPremultiplied hw (layersPremultiplied_congr hc.before.layer hl) ?_ hc.effect)
    exact fun color => hcolor i color hc.command
  | quiet ht => exact layersPremultiplied_congr ht.layer hl
  | encode plane ph y x _ _ ht => exact layersPremultiplied_congr ht.layer hl
  | release _ _ ht => exact layersPremultiplied_congr ht.layer hl
  | word w slot idx _ ht => exact layersPremultiplied_congr ht.layer hl
  | reset _ ht => exact layersPremultiplied_congr ht.layer fun a p hp => nomatch hp

end Sys2Proof.Machine
end

section
/-! PROOFS. Which steps change the barrier flags (R23): O44. -/

namespace Sys2Proof.Machine

variable {s t u : State}

theorem effect_drawable {i : Instr} (h : Effect s i u) :
    u.drawable = s.drawable ∨ (∃ l, i = .startDrawing l ∧ u.drawable = s.drawable.set l false) ∨
      (i = .doneUpdating ∧ u.drawable = List.replicate s.cfg.N true) := by
  cases h with
  | startDrawing l hd => exact .inr (.inl ⟨l, rfl, rfl⟩)
  | doneUpdating => exact .inr (.inr ⟨rfl, rfl⟩)
  | frame b hs =>
    rw [endWait_eq]
    exact .inl rfl
  | _ => exact .inl rfl

theorem effect_done {i : Instr} (h : Effect s i u) :
    u.done = s.done ∨ (∃ l, i = .doneDrawing l ∧ u.done = s.done.set l true) ∨
      ((i = .waitDrawingDone ∨ i = .updateFrame) ∧ u.done = List.replicate s.cfg.N false) := by
  cases h with
  | doneDrawing l => exact .inr (.inl ⟨l, rfl, rfl⟩)
  | waitDrawingDone => exact .inr (.inr ⟨.inl rfl, rfl⟩)
  | frame b hs => exact (endWait_done b).imp id fun e => .inr ⟨.inr rfl, e⟩
  | _ => exact .inl rfl

/-- What a step does to `DRAWABLE` (R23, R103, R107, R124). -/
theorem step_drawable (h : step s = .next t) :
    t.drawable = s.drawable ∨ (∃ l, nextCommand s = some (.startDrawing l) ∧ t.drawable = s.drawable.set l false) ∨
      ((nextCommand s = some .doneUpdating ∨ (s.nextTurn = .sequencer ∧ s.seqPhase = .release) ∨ s.nextTurn = .reset) ∧
        t.drawable = List.replicate s.cfg.N true) := by
  cases step_blockStep h with
  | quiet ht => exact .inl ht.drawable
  | command p alt i v u hc =>
    rw [hc.after.drawable, ← hc.before.drawable, ← hc.before.cfg]
    obtain he | ⟨l, rfl, he⟩ | ⟨rfl, he⟩ := effect_drawable hc.effect
    · exact .inl he
    · exact .inr (.inl ⟨l, hc.command, he⟩)
    · exact .inr (.inr ⟨.inl hc.command, he⟩)
  | encode plane ph y x _ _ ht => exact .inl ht.drawable
  | release hn hp ht => exact .inr (.inr ⟨.inr (.inl ⟨hn, hp⟩), ht.drawable⟩)
  | word w slot idx _ ht => exact .inl ht.drawable
  | reset hn ht => exact .inr (.inr ⟨.inr (.inr hn), ht.drawable⟩)

/-- What a step does to `DONE` (R23, R104, R105, R124). -/
theorem step_done (h : step s = .next t) :
    t.done = s.done ∨ (∃ l, nextCommand s = some (.doneDrawing l) ∧ t.done = s.done.set l true) ∨
      ((nextCommand s = some .waitDrawingDone ∨ nextCommand s = some .updateFrame ∨ s.nextTurn = .reset) ∧
        t.done = List.replicate s.cfg.N false) := by
  cases step_blockStep h with
  | quiet ht => exact .inl ht.done
  | command p alt i v u hc =>
    rw [hc.after.done, ← hc.before.done, ← hc.before.cfg]
    obtain he | ⟨l, rfl, he⟩ | ⟨rfl | rfl, he⟩ := effect_done hc.effect
    · exact .inl he
    · exact .inr (.inl ⟨l, hc.command, he⟩)
    · exact .inr (.inr ⟨.inl hc.command, he⟩)
    · exact .inr (.inr ⟨.inr (.inl hc.command), he⟩)
  | encode plane ph y x _ _ ht => exact .inl ht.done
  | release hn hp ht => exact .inl ht.done
  | word w slot idx _ ht => exact .inl ht.done
  | reset hn ht => exact .inr (.inr ⟨.inr (.inr hn), ht.done⟩)

/-- A flag that a change of one flag of its row changes is that flag, and takes the value. -/
theorem flagAt_set_changed {flags : List Bool} {k l : Nat} {v : Bool} (h : flagAt (flags.set k v) l ≠ flagAt flags l) :
    l = k ∧ flagAt (flags.set k v) l = v := by
  by_cases hk : k < flags.length ∨ v = false
  · rw [flagAt_set _ _ _ _ hk] at h ⊢
    split_ifs at h ⊢ with e
    · exact ⟨e, rfl⟩
    · exact absurd rfl h
  · rw [List.set_eq_of_length_le (by omega)] at h
    exact absurd rfl h

/-- A flag that differs from a row filled with `v` has the other value, if its row has no flag above the filled ones. -/
theorem flagAt_replicate_changed {flags : List Bool} {n l : Nat} {v : Bool} (hn : flags.length = n)
    (h : flagAt (List.replicate n v) l ≠ flagAt flags l) : flagAt (List.replicate n v) l = v := by
  by_cases hl : l < n
  · exact flagAt_replicate v hl
  · rw [flagAt_ge (by simpa using hl), flagAt_ge (by omega)] at h
    exact absurd rfl h

/-- A layer becomes drawable or ceases to be by these steps alone (R103, R107, R124). -/
theorem drawableAt_changed {l : Nat} (hs : BlockInv s) (h : step s = .next t) (hne : t.drawableAt l ≠ s.drawableAt l) :
    (nextCommand s = some (.startDrawing l) ∧ t.drawableAt l = false) ∨
      ((nextCommand s = some .doneUpdating ∨ (s.nextTurn = .sequencer ∧ s.seqPhase = .release) ∨ s.nextTurn = .reset) ∧
        t.drawableAt l = true) := by
  unfold State.drawableAt at hne ⊢
  obtain he | ⟨k, hc, he⟩ | ⟨hc, he⟩ := step_drawable h <;> rw [he] at hne ⊢
  · exact absurd rfl hne
  · obtain ⟨rfl, hv⟩ := flagAt_set_changed hne
    exact .inl ⟨hc, hv⟩
  · exact .inr ⟨hc, flagAt_replicate_changed hs.drawable_length hne⟩

/-- A layer becomes done or ceases to be by these steps alone (R104, R105, R124). -/
theorem doneAt_changed {l : Nat} (hs : BlockInv s) (h : step s = .next t) (hne : t.doneAt l ≠ s.doneAt l) :
    (nextCommand s = some (.doneDrawing l) ∧ t.doneAt l = true) ∨
      ((nextCommand s = some .waitDrawingDone ∨ nextCommand s = some .updateFrame ∨ s.nextTurn = .reset) ∧
        t.doneAt l = false) := by
  unfold State.doneAt at hne ⊢
  obtain he | ⟨k, hc, he⟩ | ⟨hc, he⟩ := step_done h <;> rw [he] at hne ⊢
  · exact absurd rfl hne
  · obtain ⟨rfl, hv⟩ := flagAt_set_changed hne
    exact .inl ⟨hc, hv⟩
  · exact .inr ⟨hc, flagAt_replicate_changed hs.done_length hne⟩

/-- Settles O44: `drawableAt_changed` and `doneAt_changed`, at a flag that rises and at one that falls. -/
theorem barrierFlagsChangeOnlyByTheirCommands : Obligations.BarrierFlagsChangeOnlyByTheirCommands := by
  intro s t l hs h
  have drawable := drawableAt_changed (l := l) hs h
  have done := doneAt_changed (l := l) hs h
  refine ⟨fun hf ht => ?_, fun hf ht => ?_, fun hf ht => ?_, fun hf ht => ?_⟩
  · simpa [hf, ht] using drawable
  · simpa [hf, ht] using drawable
  · simpa [hf, ht] using done
  · simpa [hf, ht] using done

end Sys2Proof.Machine
end

section
/-! PROOFS. Which steps change the planes, the schedule, the brightness, `DMA_RUN` and the bus (R25 to R30, R133): O60. -/

namespace Sys2Proof.Machine

variable {s t u v : State}

/-- No command but `INIT` reaches the planes, the schedule or the DMA engine, and none the bus (R27, R28, R29). -/
theorem effect_panel {i : Instr} (hi : ∀ b, i ≠ .init b) (h : Effect s i u) :
    u.plane = s.plane ∧ u.sched = s.sched ∧ u.dmaRun = s.dmaRun := by
  cases h with
  | initOk b hu => exact absurd rfl (hi b)
  | frame b hs =>
    rw [endWait_eq]
    exact ⟨rfl, rfl, rfl⟩
  | _ => exact ⟨rfl, rfl, rfl⟩

theorem effect_bus {i : Instr} (h : Effect s i u) : u.bus = s.bus := by
  cases h with
  | frame b hs => rw [endWait_eq]
  | _ => rfl

theorem effect_brightness {i : Instr} (h : Effect s i u) :
    u.brightness = s.brightness ∨ ∃ b, i = .init b ∨ i = .setBrightness b := by
  cases h with
  | initOk b hu => exact .inr ⟨b, .inl rfl⟩
  | setBrightness v hr => exact .inr ⟨v, .inr rfl⟩
  | frame b hs =>
    rw [endWait_eq]
    exact .inl rfl
  | _ => exact .inl rfl

theorem effect_brightnessCap {i : Instr} (h : Effect s i u) :
    u.brightnessCap = s.brightnessCap ∨ ∃ b, i = .init b ∨ i = .setBrightnessCap b := by
  cases h with
  | initOk b hu => exact .inr ⟨b, .inl rfl⟩
  | setBrightnessCap v hr => exact .inr ⟨v, .inr rfl⟩
  | frame b hs =>
    rw [endWait_eq]
    exact .inl rfl
  | _ => exact .inl rfl

/-- The brightness is sampled at the end of a frame's wait only (R124, R132). -/
theorem effect_seqB {i : Instr} (h : Effect s i u) :
    u.seqB = s.seqB ∨ (i = .updateFrame ∧ ∃ c d, s.actorState = .held c d ∧ d ≠ .seqFree) := by
  cases h with
  | frame b hs => exact .inr ⟨rfl, hs⟩
  | _ => exact .inl rfl

/-- A turn of a port that holds is a step of the command it holds with. -/
theorem nextCommand_held {p : Nat} {alt : Bool} {c : Instr} {d : Cond} (hn : s.nextTurn = .port p alt)
    (hst : s.portState p = .held c d) : nextCommand s = some c ∧ p < s.ports.length := by
  cases hq : s.ports[p]? with
  | none => simp [State.portState, hq] at hst
  | some q =>
    obtain ⟨ws, st, out⟩ := q
    cases (portState_of_port hq).symm.trans hst
    exact ⟨by simp only [nextCommand, hn, hq], (List.getElem?_eq_some_iff.1 hq).1⟩

/-- A port that holds with `UPDATE_FRAME`, but not for the sequencer, is the owner in its wait phase (R126). -/
theorem wait_of_held_updateFrame {p : Nat} {d : Cond} (hs : BlockInv s) (hp : p < s.ports.length)
    (hst : s.portState p = .held .updateFrame d) (hd : d ≠ .seqFree) : s.seqPhase = .wait := by
  have hok := hs.ports_ok p (hs.ports_length ▸ hp)
  rw [hst] at hok
  obtain ⟨l, hc, _⟩ | ⟨hc, _⟩ | ⟨_, hf, _⟩ | ⟨_, _, _, hw⟩ := hok
  · cases hc
  · cases hc
  · exact absurd hf hd
  · exact hw

theorem seqB_changed (hs : BlockInv s) (hr : s.nextTurn ≠ .reset) (h : step s = .next t) (hne : t.seqB ≠ s.seqB) :
    nextCommand s = some .updateFrame ∧ s.seqPhase = .wait := by
  obtain ⟨p, alt, i, v, u, hc, hne⟩ := command_of_change (g := State.seqB) (fun h => (congrArg State.seqB h :)) h hr hne
  obtain he | ⟨rfl, c, d, hst, hd⟩ := effect_seqB hc.effect
  · exact absurd he hne
  · rw [hc.actorState] at hst
    obtain ⟨hcmd, hp⟩ := nextCommand_held hc.turn hst
    cases hcmd.symm.trans hc.command
    exact ⟨hc.command, wait_of_held_updateFrame hs hp hst hd⟩

/-- A command that changes the planes, the schedule or `DMA_RUN` is `INIT`. -/
theorem CommandStep.init_of_panel {p : Nat} {alt : Bool} {i : Instr} (hc : CommandStep s t p alt i v u)
    (hne : ¬(u.plane = v.plane ∧ u.sched = v.sched ∧ u.dmaRun = v.dmaRun)) : ∃ b, nextCommand s = some (.init b) := by
  by_contra hno
  refine hne (effect_panel ?_ hc.effect)
  rintro b rfl
  exact hno ⟨b, hc.command⟩

theorem sched_changed (hr : s.nextTurn ≠ .reset) (h : step s = .next t) (hne : t.sched ≠ s.sched) :
    ∃ b, nextCommand s = some (.init b) := by
  obtain ⟨p, alt, i, v, u, hc, hne⟩ := command_of_change (g := State.sched) (fun h => (congrArg State.sched h :)) h hr hne
  exact hc.init_of_panel fun he => hne he.2.1

theorem dmaRun_changed (hr : s.nextTurn ≠ .reset) (h : step s = .next t) (hne : t.dmaRun ≠ s.dmaRun) :
    ∃ b, nextCommand s = some (.init b) := by
  obtain ⟨p, alt, i, v, u, hc, hne⟩ := command_of_change (g := State.dmaRun) (fun h => (congrArg State.dmaRun h :)) h hr hne
  exact hc.init_of_panel fun he => hne he.2.2

theorem brightness_changed (hr : s.nextTurn ≠ .reset) (h : step s = .next t) (hne : t.brightness ≠ s.brightness) :
    ∃ b, nextCommand s = some (.init b) ∨ nextCommand s = some (.setBrightness b) := by
  obtain ⟨p, alt, i, v, u, hc, hne⟩ :=
    command_of_change (g := State.brightness) (fun h => (congrArg State.brightness h :)) h hr hne
  obtain ⟨b, rfl | rfl⟩ := (effect_brightness hc.effect).resolve_left hne
  · exact ⟨b, .inl hc.command⟩
  · exact ⟨b, .inr hc.command⟩

theorem brightnessCap_changed (hr : s.nextTurn ≠ .reset) (h : step s = .next t) (hne : t.brightnessCap ≠ s.brightnessCap) :
    ∃ b, nextCommand s = some (.init b) ∨ nextCommand s = some (.setBrightnessCap b) := by
  obtain ⟨p, alt, i, v, u, hc, hne⟩ :=
    command_of_change (g := State.brightnessCap) (fun h => (congrArg State.brightnessCap h :)) h hr hne
  obtain ⟨b, rfl | rfl⟩ := (effect_brightnessCap hc.effect).resolve_left hne
  · exact ⟨b, .inl hc.command⟩
  · exact ⟨b, .inr hc.command⟩

/-- The planes are written by the encode steps and by `INIT` (R28). -/
theorem plane_changed (hr : s.nextTurn ≠ .reset) (h : step s = .next t) (hne : t.plane ≠ s.plane) :
    (s.nextTurn = .sequencer ∧ s.seqPhase = .encode) ∨ ∃ b, nextCommand s = some (.init b) := by
  cases step_blockStep h with
  | quiet ht => exact absurd ht.plane hne
  | command p alt i v u hc =>
    rw [hc.after.plane, ← hc.before.plane] at hne
    exact .inr (hc.init_of_panel fun he => hne he.1)
  | encode plane ph y x hn hp _ => exact .inl ⟨hn, hp⟩
  | release _ _ ht => exact absurd ht.plane hne
  | word w slot idx _ ht => exact absurd ht.plane hne
  | reset hn _ => exact absurd hn hr

/-- Only the DMA engine emits, a reset not excepted (R133). -/
theorem bus_changed (h : step s = .next t) (hne : t.bus ≠ s.bus) : s.nextTurn = .dma := by
  cases step_blockStep h with
  | quiet ht => exact absurd ht.bus hne
  | command p alt i v u hc =>
    rw [hc.after.bus, effect_bus hc.effect, hc.before.bus] at hne
    exact absurd rfl hne
  | encode plane ph y x _ _ ht => exact absurd ht.bus hne
  | release _ _ ht => exact absurd ht.bus hne
  | word w slot idx hn _ => exact hn
  | reset _ ht => exact absurd ht.bus hne

/-- Settles O60: the lemmas on each part of the panel's state; that no step stops the engine is `step_dmaRun`. -/
theorem panelStateChangesOnlyByItsWriters : Obligations.PanelStateChangesOnlyByItsWriters := fun _ _ hs hr h =>
  ⟨plane_changed hr h, sched_changed hr h, brightness_changed hr h, brightnessCap_changed hr h, seqB_changed hs hr h,
    step_dmaRun hr h, fun hf ht => dmaRun_changed hr h (by simp [hf, ht]), bus_changed h⟩

end Sys2Proof.Machine
end

section
/-! PROOFS. The elements of the layers and planes and their bytes (R42, R43, R46), and one step of each bulk command (R54, R95,
R96, R98): O27, O33, O34, O35. -/

namespace Sys2Proof.Machine

variable {s : State}

/-! ### Bytes -/

/-- Byte `b` of a pixel of `LAYER` (R46). -/
theorem layerByte_of_readLayer {l i : Nat} {p : Pixel} (h : s.readLayer l i = some p) {b : Nat} (hb : b < 4) :
    s.layerByte l (4 * i + b) = some (byteOf p b) := by
  rw [State.layerByte, show (4 * i + b) / 4 = i by omega, show (4 * i + b) % 4 = b by omega, h]
  rfl

/-- Byte `b` of a word of `PLANE` (R46). -/
theorem planeByte_of_readPlane {k j : Nat} {w : DmaWord} (h : s.readPlane k j = some w) {b : Nat} (hb : b < 2) :
    s.planeByte k (2 * j + b) = some (byteOf w b) := by
  rw [State.planeByte, show (2 * j + b) / 2 = j by omega, show (2 * j + b) % 2 = b by omega, h]
  rfl

/-- A channel is the byte that its lowest bit begins (R14, R46). -/
theorem ofNat_ch (p : Pixel) (c : Channel) : BitVec.ofNat 8 (ch p c) = p.extractLsb' c.lo 8 := by
  rw [ch, BitVec.ofNat_toNat, BitVec.setWidth_eq]

/-- Settles O27: `layerAddr_inj`, `planeAddr_inj`, and a channel or half word as the byte of its number. -/
theorem elementsAreDistinctAndBytesLittleEndian : Obligations.ElementsAreDistinctAndBytesLittleEndian := by
  refine ⟨fun c l l' i i' => layerAddr_inj, fun c k k' j j' => planeAddr_inj, fun s l i p h => ?_, fun s k j w h => ?_⟩
  · simp only [ofNat_ch]
    exact ⟨layerByte_of_readLayer h (b := 0) (by decide), layerByte_of_readLayer h (b := 1) (by decide),
      layerByte_of_readLayer h (b := 2) (by decide), layerByte_of_readLayer h (b := 3) (by decide)⟩
  · exact ⟨planeByte_of_readPlane h (b := 0) (by decide), planeByte_of_readPlane h (b := 1) (by decide)⟩

/-! ### What each bulk command does to the element it stands at -/

/-- In a ready block a bulk command treats the element it stands at, in its first step as in a later one (R54, R136). -/
theorem bulk_of_ready (hr : s.initState = .ready) (elem : Nat → Nat → State → Result) :
    s.bulk true elem = elem (bulkAt s).1 (bulkAt s).2 s := by
  unfold State.bulk bulkAt
  cases hs : s.actorState with
  | exec c i count => rfl
  | idle => exact checked_pass (refusalCode_ready hr)
  | held c d => exact checked_pass (refusalCode_ready hr)

theorem exec_setAll (hr : s.initState = .ready) {l : Nat} (hl : l < s.cfg.N) (color : Pixel) :
    exec (.setAll l color) s =
      .next ((s.writeLayer l (bulkAt s).1 color).advance (.setAll l color) (bulkAt s).1 (bulkAt s).2 0) := by
  rw [exec, execSetAll, layerOk_of_lt hl, bulk_of_ready hr]

/-- A pixel that is zero is neither written nor counted (R96). -/
theorem exec_fadeOut_zero (hr : s.initState = .ready) {l : Nat} (hl : l < s.cfg.N) (factor : Nat)
    (hp : s.readLayer l (bulkAt s).1 = some 0) :
    exec (.fadeOut l factor) s =
      .next (s.advance (.fadeOut l factor) (bulkAt s).1 (bulkAt s).2 (BitVec.ofNat 32 (bulkAt s).2)) := by
  rw [exec, execFadeOut, layerOk_of_lt hl, bulk_of_ready hr, hp, orNoValue, if_pos rfl]

theorem exec_fadeOut_nonzero (hr : s.initState = .ready) {l : Nat} (hl : l < s.cfg.N) (factor : Nat) {p : Pixel}
    (hp : s.readLayer l (bulkAt s).1 = some p) (h0 : p ≠ 0) :
    exec (.fadeOut l factor) s =
      .next ((s.writeLayer l (bulkAt s).1 (scale (255 - factor) p)).advance (.fadeOut l factor) (bulkAt s).1
        ((bulkAt s).2 + 1) (BitVec.ofNat 32 ((bulkAt s).2 + 1))) := by
  rw [exec, execFadeOut, layerOk_of_lt hl, bulk_of_ready hr, hp, orNoValue, if_neg h0]

theorem exec_shiftUp_below (hr : s.initState = .ready) {l n : Nat} (hl : l < s.cfg.N) {p : Pixel}
    (hn : (bulkAt s).1 / s.cfg.W + n < s.cfg.H) (hp : s.readLayer l ((bulkAt s).1 + n * s.cfg.W) = some p) :
    exec (.shiftUp l n) s =
      .next ((s.writeLayer l (bulkAt s).1 p).advance (.shiftUp l n) (bulkAt s).1 (bulkAt s).2 0) := by
  rw [exec, execShiftUp, layerOk_of_lt hl, bulk_of_ready hr, if_pos hn, hp, orNoValue]

theorem exec_shiftUp_bottom (hr : s.initState = .ready) {l n : Nat} (hl : l < s.cfg.N)
    (hn : ¬(bulkAt s).1 / s.cfg.W + n < s.cfg.H) :
    exec (.shiftUp l n) s =
      .next ((s.writeLayer l (bulkAt s).1 0).advance (.shiftUp l n) (bulkAt s).1 (bulkAt s).2 0) := by
  rw [exec, execShiftUp, layerOk_of_lt hl, bulk_of_ready hr, if_neg hn]

/-! ### How a bulk step ends -/

variable (cmd : Instr) (i count : Nat) (data : BitVec 32)

/-- The end of a bulk step changes nothing but its port. -/
theorem advance_eq : s.advance cmd i count data = { s with ports := (s.advance cmd i count data).ports } := by
  unfold State.advance
  split_ifs <;> rfl

theorem bulkLeft_advance : BulkLeft s (s.advance cmd i count data) cmd i count data := by
  unfold State.advance
  split_ifs <;> rfl

/-- A bulk step that writes a pixel: its frame, its port, and the layers element by element (R47, R54). -/
theorem writeLayer_advance_spec (hw : s.layer.wf) (l : Nat) (v : Pixel) {t : State}
    (ht : t = (s.writeLayer l i v).advance cmd i count data) :
    t = { s with layer := t.layer, ports := t.ports } ∧ BulkLeft s t cmd i count data ∧
      ∀ a, t.layer.read a = if a = layerAddr s.cfg l i then some v else s.layer.read a := by
  have hlayer : t.layer = s.layer.write (layerAddr s.cfg l i) v := by
    rw [ht, advance_eq]
    rfl
  refine ⟨?_, ht ▸ bulkLeft_advance (s := s.writeLayer l i v) cmd i count data, fun a => ?_⟩
  · rw [hlayer, ht]
    exact advance_eq (s := s.writeLayer l i v) cmd i count data
  · rw [hlayer, read_write _ hw]

/-- Settles O33: `exec_setAll`, then `writeLayer_advance_spec`. -/
theorem setAllStepWritesOneElement : Obligations.SetAllStepWritesOneElement :=
  fun _ _ color hr hl hw => ⟨_, exec_setAll hr hl color, writeLayer_advance_spec _ _ _ _ hw _ _ rfl⟩

/-- Settles O34, by whether the pixel is zero. -/
theorem fadeOutStepScalesAndCountsOneElement : Obligations.FadeOutStepScalesAndCountsOneElement := by
  intro s l factor p hr hl hw hp
  by_cases h0 : p = 0
  · subst h0
    refine ⟨_, exec_fadeOut_zero hr hl factor hp, ?_, fun h => absurd rfl h, fun _ => ⟨bulkLeft_advance _ _ _ _, fun a => ?_⟩⟩
    · rw [advance_eq]
    · rw [advance_eq]
  · obtain ⟨hframe, hport, hread⟩ := writeLayer_advance_spec (.fadeOut l factor) (bulkAt s).1 ((bulkAt s).2 + 1)
      (BitVec.ofNat 32 ((bulkAt s).2 + 1)) hw l (scale (255 - factor) p) rfl
    exact ⟨_, exec_fadeOut_nonzero hr hl factor hp h0, hframe, fun _ => ⟨hport, hread⟩, fun h => absurd h h0⟩

/-- Settles O35, by whether there is a row `n` rows below. -/
theorem shiftUpStepMovesOneElement : Obligations.ShiftUpStepMovesOneElement := fun _ _ _ hr hl hw =>
  ⟨fun _ hn hp => ⟨_, exec_shiftUp_below hr hl hn hp, writeLayer_advance_spec _ _ _ _ hw _ _ rfl⟩,
    fun hn => ⟨_, exec_shiftUp_bottom hr hl hn, writeLayer_advance_spec _ _ _ _ hw _ _ rfl⟩⟩

end Sys2Proof.Machine
end

section
/-! PROOFS. Runs of the machine: the words of the commands that a whole run starts with (R62, R67), the turn in which an idle port
starts a command, and runs of one turn repeated. -/

namespace Sys2Proof

/-! ### The words of the commands -/

/-- The words of a row of the table with their must-be-zero bits clear are a command of that row (R65, R67, R68). -/
theorem decode_of_row {opc : BitVec 8} {l imm : Nat} {args : List Word} {r : OpRow} (hr : lookupRow opc = some r)
    (hlen : r.words = args.length + 1) (hmask : headerWord opc l imm &&& r.mask = r.fixed) (rest : List Word) :
    decode (headerWord opc l imm :: args ++ rest) =
      .instr (buildInstr r.shape (headerWord opc l imm) ((args ++ rest).getD 0 0) ((args ++ rest).getD 1 0))
        (args.length + 1) := by
  have hargs : ¬(args ++ rest).length + 1 < args.length + 1 := by
    rw [List.length_append]
    omega
  simp only [decode, List.cons_append, opcodeField_headerWord, hr, hlen, if_neg hargs, if_pos hmask]

/-- A mask that lets the layer pass, and all of `IMM` that is set, leaves the opcode (R62, R67). -/
theorem headerWord_and (opc : BitVec 8) (l : Nat) {imm : Nat} {m : BitVec 16} (h : BitVec.ofNat 16 imm &&& m = 0) :
    headerWord opc l imm &&& (m ++ 0xF#4 ++ 0x0#4 ++ 0xFF#8) = headerWord opc 0 0 := by
  unfold headerWord
  rw [BitVec.and_append, BitVec.and_append, BitVec.and_append, h, BitVec.zero_and, BitVec.and_zero,
    show (opc &&& 0xFF#8) = opc from BitVec.and_allOnes]
  rfl

theorem decode_setAll {l : Nat} (hl : fitsLayer l) (color : Pixel) (ws : List Word) :
    decode (encode (.setAll l color) ++ ws) = .instr (.setAll l color) (encode (.setAll l color)).length := by
  have h := decode_of_row (opc := 0x04#8) (args := [color]) rfl rfl
    (headerWord_and 0x04#8 l (imm := 0) (m := 0xFFFF#16) BitVec.zero_and) ws
  rwa [buildInstr, layerField_headerWord _ _ hl] at h

theorem decode_fadeOut {l factor : Nat} (hl : fitsLayer l) (hf : fitsFactor factor) (ws : List Word) :
    decode (encode (.fadeOut l factor) ++ ws) = .instr (.fadeOut l factor) (encode (.fadeOut l factor)).length := by
  have himm : BitVec.ofNat 16 factor &&& (0xFF#8 ++ 0x00#8) = 0 := by
    rw [show BitVec.ofNat 16 factor = 0#8 ++ BitVec.ofNat 8 factor from
      BitVec.eq_of_toNat_eq (by rw [Machine.toNat_append_eq, toNat_ofNat_of_lt (by omega), toNat_ofNat_of_lt (by omega)]; rfl),
      BitVec.and_append, BitVec.zero_and, BitVec.and_zero]
    rfl
  have h := decode_of_row (opc := 0x05#8) (args := []) rfl rfl (headerWord_and 0x05#8 l himm) ws
  rwa [buildInstr, layerField_headerWord _ _ hl, factorField_headerWord _ _ hf] at h

theorem decode_shiftUp {l n : Nat} (hl : fitsLayer l) (hn : fitsImm n) (ws : List Word) :
    decode (encode (.shiftUp l n) ++ ws) = .instr (.shiftUp l n) (encode (.shiftUp l n)).length := by
  have h := decode_of_row (opc := 0x06#8) (args := []) rfl rfl
    (headerWord_and 0x06#8 l (imm := n) (m := 0#16) BitVec.and_zero) ws
  rwa [buildInstr, layerField_headerWord _ _ hl, immField_headerWord _ _ hn] at h

theorem decode_startDrawing {l : Nat} (hl : fitsLayer l) (ws : List Word) :
    decode (encode (.startDrawing l) ++ ws) = .instr (.startDrawing l) (encode (.startDrawing l)).length := by
  have h := decode_of_row (opc := 0x10#8) (args := []) rfl rfl
    (headerWord_and 0x10#8 l (imm := 0) (m := 0xFFFF#16) BitVec.zero_and) ws
  rwa [buildInstr, layerField_headerWord _ _ hl] at h

theorem decode_updateFrame (ws : List Word) :
    decode (encode .updateFrame ++ ws) = .instr .updateFrame (encode .updateFrame).length :=
  decode_of_row (opc := 0x21#8) (l := 0) (imm := 0) (args := []) (r := ⟨.updateFrame, 1, 0x00000021#32, 0xFFFFFFFF#32⟩)
    rfl rfl rfl ws

end Sys2Proof

namespace Sys2Proof.Machine

variable {s t : State}

/-! ### The turn of a port -/

/-- `s` in the turn of port `p` that leaves the turns `rest`, with the port as `q`. -/
def State.inTurn (s : State) (p : Nat) (alt : Bool) (rest : List Turn) (q : Port) : State :=
  { s with agenda := rest, actor := p, alt := alt, ports := s.ports.set p q }

@[simp] theorem inTurn_cfg (p alt rest q) : (s.inTurn p alt rest q).cfg = s.cfg := rfl
@[simp] theorem inTurn_agenda (p alt rest q) : (s.inTurn p alt rest q).agenda = rest := rfl
@[simp] theorem inTurn_actor (p alt rest q) : (s.inTurn p alt rest q).actor = p := rfl
@[simp] theorem inTurn_alt (p alt rest q) : (s.inTurn p alt rest q).alt = alt := rfl
@[simp] theorem inTurn_ports (p alt rest q) : (s.inTurn p alt rest q).ports = s.ports.set p q := rfl
@[simp] theorem inTurn_initState (p alt rest q) : (s.inTurn p alt rest q).initState = s.initState := rfl

/-- Any change of a port that is as `q` is the setting of its outcome. -/
theorem modify_eq_set_of_getElem? {ports : List Port} {p : Nat} {q : Port} (hq : ports[p]? = some q) (f : Port → Port) :
    ports.modify p f = ports.set p (f q) := by
  obtain ⟨hp, rfl⟩ := List.getElem?_eq_some_iff.1 hq
  exact List.modify_eq_set_get f hp

theorem inTurn_getElem?_self {p alt rest q q'} (hq : s.ports[p]? = some q') :
    (s.inTurn p alt rest q).ports[p]? = some q :=
  List.getElem?_set_self (List.getElem?_eq_some_iff.1 hq).1

theorem inTurn_getElem?_ne {p alt rest q r} (h : r ≠ p) : (s.inTurn p alt rest q).ports[r]? = s.ports[r]? :=
  List.getElem?_set_ne (Ne.symm h)

/-- Whatever the port's command does to it replaces what it is in the turn. -/
theorem inTurn_updPort (p alt rest q) (f : Port → Port) :
    (s.inTurn p alt rest q).updPort p f = s.inTurn p alt rest (f q) := by
  have h : (s.ports.set p q).modify p f = s.ports.set p (f q) := by
    rcases Nat.lt_or_ge p s.ports.length with hp | hp
    · rw [modify_eq_set_of_getElem? (List.getElem?_set_self hp), List.set_set]
    · rw [List.set_eq_of_length_le hp, List.set_eq_of_length_le hp, List.modify_eq_self hp]
  rw [State.inTurn, State.updPort, h, State.inTurn]

theorem inTurn_actorState {p alt rest q q'} (hq : s.ports[p]? = some q') : (s.inTurn p alt rest q).actorState = q.st :=
  portState_of_port (inTurn_getElem?_self hq)

/-- The turn of port `p`, with a change of the port at its start. -/
theorem acting_updPort {p : Nat} {alt : Bool} {rest : List Turn} {q : Port} (ha : s.agenda = .port p alt :: rest)
    (hq : s.ports[p]? = some q) (f : Port → Port) : (s.acting p alt).updPort p f = s.inTurn p alt rest (f q) := by
  rw [State.acting, dropTurn_cons s ha, State.inTurn, ← modify_eq_set_of_getElem? hq]
  rfl

/-- An idle port with the words of `i` at the front of its FIFO starts `i` (R20, R68). -/
theorem step_of_command {p : Nat} {alt : Bool} {rest : List Turn} {i : Instr} {ws : List Word} {out : List Response}
    (ha : s.agenda = .port p alt :: rest) (hp : PortAt s p (encode i ++ ws) out)
    (hd : decode (encode i ++ ws) = .instr i (encode i).length) :
    step s = exec i (s.inTurn p alt rest ⟨ws, .idle, out⟩) := by
  have htaken : (s.acting p alt).takeWords (encode i).length = s.inTurn p alt rest ⟨ws, .idle, out⟩ := by
    refine (acting_updPort ha hp _).trans ?_
    simp only [List.drop_left]
  rw [step_of_idle (nextTurn_cons s ha) hp rfl, fetchStep, hd, ← htaken]

/-- A port that holds or has more steps to take goes on with its command (R20). -/
theorem step_of_going {p : Nat} {alt : Bool} {rest : List Turn} {i : Instr} {q : Port}
    (ha : s.agenda = .port p alt :: rest) (hq : s.ports[p]? = some q)
    (hst : (∃ n count, q.st = .exec i n count) ∨ ∃ cond, q.st = .held i cond) :
    step s = exec i (s.inTurn p alt rest q) := by
  rw [step_of_busy (nextTurn_cons s ha) hq hst, ← id_eq q, ← acting_updPort ha hq id, State.updPort, List.modify_id]

/-! ### Runs -/

theorem run_succ (h : step s = .next t) (k : Nat) : core.run (k + 1) s = core.run k t := by
  have hs : core.step s = .next t := h
  simp only [Host.Core.run, hs]

theorem run_add {k : Nat} (h : core.run k s = .next t) (n : Nat) : core.run (k + n) s = core.run n t := by
  induction k generalizing s with
  | zero =>
    cases h
    rw [Nat.zero_add]
  | succ k ih =>
    cases hs : core.step s with
    | next u =>
      rw [run_succ hs] at h
      rw [Nat.succ_add, run_succ hs, ih h]
    | fault r =>
      simp only [Host.Core.run, hs] at h
      cases h
    | refused r =>
      simp only [Host.Core.run, hs] at h
      cases h

/-- The turn `u` taken over and over: what each of its steps takes from stage `i` to stage `i + 1` has reached stage `n` after
`n` of them. -/
theorem run_replicate {P : Nat → State → Prop} {u : Turn} {n : Nat}
    (hstep : ∀ i s rest, i < n → P i s → s.agenda = u :: rest → ∃ t, step s = .next t ∧ t.agenda = rest ∧ P (i + 1) t)
    {rest : List Turn} (h : P 0 s) (ha : s.agenda = List.replicate n u ++ rest) :
    ∃ t, core.run n s = .next t ∧ t.agenda = rest ∧ P n t := by
  have from_stage (k i : Nat) (hk : i + k = n) (s : State) (h : P i s) (ha : s.agenda = List.replicate k u ++ rest) :
      ∃ t, core.run k s = .next t ∧ t.agenda = rest ∧ P n t := by
    induction k generalizing i s with
    | zero => exact ⟨s, rfl, ha, hk ▸ h⟩
    | succ k ih =>
      obtain ⟨t, hs, hat, ht⟩ := hstep i s _ (by omega) h ha
      rw [run_succ hs]
      exact ih (i + 1) (by omega) t ht hat
  exact from_stage n 0 (Nat.zero_add n) s h ha

end Sys2Proof.Machine
end

section
/-! PROOFS. A whole bulk command, run by its port alone: its pixels are treated one by one in index order (R54, R95, R96, R98):
O36, O37, O38. -/

namespace Sys2Proof.Machine

variable {s v : State} {p l i : Nat} {f : Nat → Option Pixel}

/-! ### A layer treated up to a pixel -/

/-- `v` is `s` in turns of port `p`, with the pixels below `i` of layer `l` treated: pixel `j` of them holds `f j`. -/
structure Swept (s : State) (p l : Nat) (f : Nat → Option Pixel) (i : Nat) (v : State) : Prop where
  frame : v = { s with agenda := v.agenda, actor := p, alt := false, ports := v.ports, layer := v.layer }
  others : ∀ q, q ≠ p → v.ports[q]? = s.ports[q]?
  wf : v.layer.wf
  pixels : ∀ j < s.cfg.pixels, v.readLayer l j = if j < i then f j else s.readLayer l j
  layers : ∀ l' j, l' ≠ l → j < s.cfg.pixels → v.readLayer l' j = s.readLayer l' j

theorem Swept.cfg (h : Swept s p l f i v) : v.cfg = s.cfg := (congrArg State.cfg h.frame :)
theorem Swept.actor (h : Swept s p l f i v) : v.actor = p := (congrArg State.actor h.frame :)
theorem Swept.initState (h : Swept s p l f i v) : v.initState = s.initState := (congrArg State.initState h.frame :)

theorem Swept.readLayer_self (h : Swept s p l f i v) (hi : i < s.cfg.pixels) : v.readLayer l i = s.readLayer l i := by
  rw [h.pixels i hi, if_neg (Nat.lt_irrefl i)]

theorem swept_zero (hw : s.layer.wf) (rest : List Turn) (q : Port) : Swept s p l f 0 (s.inTurn p false rest q) where
  frame := rfl
  others := fun _ => inTurn_getElem?_ne
  wf := hw
  pixels := fun _ _ => rfl
  layers := fun _ _ _ _ => rfl

theorem Swept.inTurn (h : Swept s p l f i v) (rest : List Turn) (q : Port) : Swept s p l f i (v.inTurn p false rest q) where
  frame := by rw [h.frame]; rfl
  others := fun r hr => (inTurn_getElem?_ne hr).trans (h.others r hr)
  wf := h.wf
  pixels := h.pixels
  layers := h.layers

theorem Swept.updPort (h : Swept s p l f i v) (g : Port → Port) : Swept s p l f i (v.updPort p g) where
  frame := by rw [h.frame]; rfl
  others := fun r hr => (List.getElem?_modify_ne _ _ (Ne.symm hr)).trans (h.others r hr)
  wf := h.wf
  pixels := h.pixels
  layers := h.layers

/-- A pixel whose treatment is to leave it. -/
theorem Swept.keep (h : Swept s p l f i v) (hf : f i = s.readLayer l i) : Swept s p l f (i + 1) v :=
  { h with
    pixels := fun j hj => by
      rw [h.pixels j hj]
      rcases Nat.lt_trichotomy j i with hji | rfl | hij
      · rw [if_pos hji, if_pos (by omega)]
      · rw [if_neg (Nat.lt_irrefl j), if_pos (Nat.lt_succ_self j), hf]
      · rw [if_neg (by omega), if_neg (by omega)] }

/-- A pixel whose treatment is a write (R47). -/
theorem Swept.write (h : Swept s p l f i v) (hi : i < s.cfg.pixels) {x : Pixel} (hf : f i = some x) :
    Swept s p l f (i + 1) (v.writeLayer l i x) := by
  have hread (l' j : Nat) : (v.writeLayer l i x).readLayer l' j =
      if layerAddr s.cfg l' j = layerAddr s.cfg l i then some x else v.readLayer l' j := by
    rw [State.readLayer, State.readLayer, writeLayer_layer, writeLayer_cfg, read_write _ h.wf, h.cfg]
  refine ⟨?_, h.others, wf_write h.wf _ _, fun j hj => ?_, fun l' j hl hj => ?_⟩
  · rw [h.frame]
    rfl
  · rw [hread]
    by_cases hji : j = i
    · rw [hji, if_pos rfl, if_pos (Nat.lt_succ_self i), hf]
    · have hlt : j < i + 1 ↔ j < i := by omega
      rw [if_neg fun e => hji (layerAddr_inj hj hi e).2, h.pixels j hj]
      simp only [hlt]
  · rw [hread, if_neg fun e => hl (layerAddr_inj hj hi e).1, h.layers l' j hl hj]

/-! ### One command over the whole layer -/

variable {cmd : Instr} {count : Nat → Nat} {ws : List Word} {out : List Response}

/-- Port `p` of `s` is to run the bulk command `cmd`, with `ws` behind it in the FIFO and `out` before its response; and a
step of `cmd` at pixel `i` of layer `l` treats it as `f` says and goes on with the count `count (i + 1)`, or responds with
it (R54). -/
structure BulkStart (s : State) (p l : Nat) (cmd : Instr) (f : Nat → Option Pixel) (count : Nat → Nat) (ws : List Word)
    (out : List Response) : Prop where
  inv : BlockInv s
  words : PortAt s p (encode cmd ++ ws) out
  decodes : decode (encode cmd ++ ws) = .instr cmd (encode cmd).length
  count_zero : count 0 = 0
  sweeps : ∀ i < s.cfg.pixels, ∀ v, Swept s p l f i v → bulkAt v = (i, count i) →
    ∃ u, Swept s p l f (i + 1) u ∧ u.ports = v.ports ∧ u.agenda = v.agenda ∧
      exec cmd v = .next (u.advance cmd i (count (i + 1)) (BitVec.ofNat 32 (count (i + 1))))

/-- The states between the steps of `cmd`, run from `s` by port `p` alone. -/
inductive BulkStage (s : State) (p l : Nat) (cmd : Instr) (f : Nat → Option Pixel) (count : Nat → Nat) (ws : List Word)
    (out : List Response) : Nat → State → Prop
  | start : BulkStage s p l cmd f count ws out 0 s
  | going {i : Nat} {v : State} (hi : i < s.cfg.pixels) (hv : Swept s p l f i v)
      (hq : v.ports[p]? = some ⟨ws, .exec cmd i (count i), out⟩) : BulkStage s p l cmd f count ws out i v
  | finished {i : Nat} {v : State} (hi : i = s.cfg.pixels) (hv : Swept s p l f i v)
      (hq : PortAt v p ws (out ++ [⟨.ok, BitVec.ofNat 32 (count i)⟩])) : BulkStage s p l cmd f count ws out i v

/-- The end of the step at pixel `i` leads to the next stage. -/
theorem bulkStage_advance {u : State} {st : PortState} (hi : i < s.cfg.pixels) (hu : Swept s p l f (i + 1) u)
    (hq : u.ports[p]? = some ⟨ws, st, out⟩) :
    BulkStage s p l cmd f count ws out (i + 1) (u.advance cmd i (count (i + 1)) (BitVec.ofNat 32 (count (i + 1)))) := by
  unfold State.advance
  rw [hu.cfg, State.respond, hu.actor]
  split_ifs with hlt
  · refine .going hlt (hu.updPort _) ?_
    rw [execOn_eq, updPort_ports, List.getElem?_modify_eq, hq]
    rfl
  · refine .finished (by omega) (hu.updPort _) ?_
    rw [PortAt, respondOn_eq, updPort_ports, List.getElem?_modify_eq, hq]
    rfl

/-- The turn after stage `i` runs `cmd` at pixel `i`, be it the command's first step or a later one. -/
theorem BulkStage.turn {rest : List Turn} (h : BulkStage s p l cmd f count ws out i v)
    (hs : BulkStart s p l cmd f count ws out) (hi : i < s.cfg.pixels) (ha : v.agenda = .port p false :: rest) :
    ∃ w st, Machine.step v = exec cmd w ∧ Swept s p l f i w ∧ bulkAt w = (i, count i) ∧ w.agenda = rest ∧
      w.ports[p]? = some ⟨ws, st, out⟩ := by
  cases h with
  | start =>
    refine ⟨_, _, step_of_command ha hs.words hs.decodes, swept_zero hs.inv.layer_wf _ _, ?_, rfl,
      inTurn_getElem?_self hs.words⟩
    simp only [bulkAt, inTurn_actorState hs.words, hs.count_zero]
  | going _ hv hq =>
    refine ⟨_, _, step_of_going ha hq (.inl ⟨_, _, rfl⟩), hv.inTurn _ _, ?_, rfl, inTurn_getElem?_self hq⟩
    simp only [bulkAt, inTurn_actorState hq]
  | finished he => omega

theorem BulkStage.step {rest : List Turn} (h : BulkStage s p l cmd f count ws out i v)
    (hs : BulkStart s p l cmd f count ws out) (hi : i < s.cfg.pixels) (ha : v.agenda = .port p false :: rest) :
    ∃ t, Machine.step v = .next t ∧ t.agenda = rest ∧ BulkStage s p l cmd f count ws out (i + 1) t := by
  obtain ⟨w, st, hstep, hv, hat, hrest, hq⟩ := h.turn hs hi ha
  obtain ⟨u, hu, hports, hagenda, hexec⟩ := hs.sweeps i hi w hv hat
  refine ⟨_, hstep.trans hexec, ?_, bulkStage_advance hi hu (hports ▸ hq)⟩
  rw [advance_eq]
  exact hagenda.trans hrest

/-- After the last pixel the command has responded. -/
theorem BulkStage.finish (h : BulkStage s p l cmd f count ws out i v) (h0 : 0 < i) (hi : i = s.cfg.pixels) :
    Swept s p l f i v ∧ PortAt v p ws (out ++ [⟨.ok, BitVec.ofNat 32 (count i)⟩]) := by
  cases h with
  | start => omega
  | going hlt => omega
  | finished _ hv hq => exact ⟨hv, hq⟩

/-- A whole bulk command, run by its port alone: every pixel of its layer is treated, nothing else changes, and the port
responds once (R54). -/
theorem bulk_run {rest : List Turn} (hs : BulkStart s p l cmd f count ws out)
    (ha : s.agenda = soloAgenda p s.cfg.pixels rest) :
    ∃ t, core.run s.cfg.pixels s = .next t ∧
      PortAt t p ws (out ++ [⟨.ok, BitVec.ofNat 32 (count s.cfg.pixels)⟩]) ∧ (∀ q, q ≠ p → t.ports[q]? = s.ports[q]?) ∧
      t = { s with agenda := rest, actor := p, alt := false, ports := t.ports, layer := t.layer } ∧
      (∀ i < s.cfg.pixels, t.readLayer l i = f i) ∧
      (∀ l' i, l' ≠ l → i < s.cfg.pixels → t.readLayer l' i = s.readLayer l' i) := by
  obtain ⟨t, hrun, hrest, ht⟩ := run_replicate (fun i v rest hi (h : BulkStage s p l cmd f count ws out i v) ha =>
    h.step hs hi ha) .start ha
  obtain ⟨hv, hq⟩ := ht.finish (pixels_pos hs.inv.cfg_valid) rfl
  refine ⟨t, hrun, hq, hv.others, hrest ▸ hv.frame, fun i hi => ?_, hv.layers⟩
  rw [hv.pixels i hi, if_pos hi]

/-! ### The three bulk commands -/

/-- A layer of an admitted configuration fits its field (R4, R62). -/
theorem fitsLayer_of_lt (hs : BlockInv s) (hl : l < s.cfg.N) : fitsLayer l := by
  have := hs.cfg_valid.n_le
  show l ≤ 15
  omega

/-- Settles O36: `bulk_run`, with the colour for every pixel. -/
theorem setAllRunFillsTheLayer : Obligations.SetAllRunFillsTheLayer := by
  intro s p l color ws out rest hs hr hl ha hp
  refine bulk_run (f := fun _ => some color) (count := fun _ => 0)
    ⟨hs, hp, decode_setAll (fitsLayer_of_lt hs hl) color ws, rfl, fun i hi v hv hat => ?_⟩ ha
  refine ⟨_, hv.write hi rfl, rfl, rfl, ?_⟩
  rw [exec_setAll (hv.initState.trans hr) (hv.cfg ▸ hl), hat]
  rfl

/-- How many of the first `i` pixels of layer `l` are not zero (R96). -/
def nonzeroBelow (s : State) (l i : Nat) : Nat := (List.range i).countP fun j => decide (s.readLayer l j ≠ some 0)

theorem nonzeroBelow_succ (s : State) (l i : Nat) :
    nonzeroBelow s l (i + 1) = nonzeroBelow s l i + if s.readLayer l i ≠ some 0 then 1 else 0 := by
  simp [nonzeroBelow, List.range_succ]

/-- Settles O37: `bulk_run`; a step keeps a zero pixel and its count, and scales and counts any other. -/
theorem fadeOutRunScalesTheLayerAndCounts : Obligations.FadeOutRunScalesTheLayerAndCounts := by
  intro s p l factor ws out rest hs hr hl hf ha hp
  refine bulk_run (f := fun i => (s.readLayer l i).map fun p => if p = 0 then 0 else scale (255 - factor) p)
    (count := nonzeroBelow s l)
    ⟨hs, hp, decode_fadeOut (fitsLayer_of_lt hs hl) hf ws, rfl, fun i hi v hv hat => ?_⟩ ha
  have hvr := hv.initState.trans hr
  have hvl : l < v.cfg.N := hv.cfg ▸ hl
  obtain ⟨x, hx⟩ := readLayer_some hs hr hl hi
  have hvx : v.readLayer l (bulkAt v).1 = some x := by rw [hat, hv.readLayer_self hi, hx]
  by_cases h0 : x = 0
  · subst h0
    have hcount : nonzeroBelow s l (i + 1) = nonzeroBelow s l i := by rw [nonzeroBelow_succ, hx, if_neg (by simp)]; rfl
    refine ⟨v, hv.keep (by simp only [hx]; rfl), rfl, rfl, ?_⟩
    rw [exec_fadeOut_zero hvr hvl factor hvx, hat, hcount]
  · have hcount : nonzeroBelow s l (i + 1) = nonzeroBelow s l i + 1 := by rw [nonzeroBelow_succ, hx, if_pos (by simpa)]
    refine ⟨_, hv.write hi (x := scale (255 - factor) x) (by simp only [hx, Option.map_some, if_neg h0]), rfl, rfl, ?_⟩
    rw [exec_fadeOut_nonzero hvr hvl factor hvx h0, hat, hcount]

/-- Settles O38: `bulk_run`; the source of pixel `i` is at or behind it, so it is read before it is overwritten. -/
theorem shiftUpRunScrollsTheLayer : Obligations.ShiftUpRunScrollsTheLayer := by
  intro s p l n ws out rest hs hr hl hn ha hp
  refine bulk_run
    (f := fun i => if i / s.cfg.W + n < s.cfg.H then s.readLayer l (i + n * s.cfg.W) else some 0) (count := fun _ => 0)
    ⟨hs, hp, decode_shiftUp (fitsLayer_of_lt hs hl) hn ws, rfl, fun i hi v hv hat => ?_⟩ ha
  have hvr := hv.initState.trans hr
  have hvl : l < v.cfg.N := hv.cfg ▸ hl
  by_cases hb : i / s.cfg.W + n < s.cfg.H
  · have hsrc := below_lt hs.cfg_valid hb
    obtain ⟨x, hx⟩ := readLayer_some hs hr hl hsrc
    have hvx : v.readLayer l (i + n * s.cfg.W) = some x := by rw [hv.pixels _ hsrc, if_neg (by omega), hx]
    refine ⟨_, hv.write hi (x := x) (by simp only [if_pos hb, hx]), rfl, rfl, ?_⟩
    rw [exec_shiftUp_below hvr hvl (p := x) (by rwa [hat, hv.cfg]) (by rwa [hat, hv.cfg]), hat]
    rfl
  · refine ⟨_, hv.write hi (x := 0) (by simp only [if_neg hb]), rfl, rfl, ?_⟩
    rw [exec_shiftUp_bottom hvr hvl (by rwa [hat, hv.cfg]), hat]
    rfl

end Sys2Proof.Machine
end

section
/-! PROOFS. The barrier between ports: a race for one layer (R57, R103), the frame that no producer enters (R56, R126), and the
held wait that its timeout ends (R111): O43, O45, O46. -/

namespace Sys2Proof.Machine

variable {s t : State}

/-! ### Two ports race for a layer -/

theorem exec_startDrawing_idle (hi : s.initState ≠ .fatal) {l : Nat} (hl : l < s.cfg.N) (hst : s.actorState = .idle) :
    exec (.startDrawing l) s = tryStartDrawing l s := by
  rw [exec, execStartDrawing, hst, layerOk_of_lt hl]
  exact checked_pass (refusalCode_notFatal hi)

/-- An idle port that starts `START_DRAWING` on a drawable layer takes it (R103). -/
theorem step_startDrawing_free {p l : Nat} {alt : Bool} {rest : List Turn} {ws : List Word} {out : List Response}
    (hs : BlockInv s) (hi : s.initState ≠ .fatal) (hl : l < s.cfg.N) (ha : s.agenda = .port p alt :: rest)
    (hp : PortAt s p (encode (.startDrawing l) ++ ws) out) (hd : s.drawableAt l = true) :
    step s = .next ((s.inTurn p alt rest ⟨ws, .idle, out ++ [⟨.ok, 0⟩]⟩).setDrawable l false) := by
  rw [step_of_command ha hp (decode_startDrawing (fitsLayer_of_lt hs hl) ws),
    exec_startDrawing_idle (s := s.inTurn _ _ _ _) hi hl (inTurn_actorState hp), tryStartDrawing]
  exact (if_pos hd).trans (congrArg (fun u => Host.Outcome.next (State.setDrawable u l false)) (inTurn_updPort ..))

/-- An idle port that starts `START_DRAWING` on a layer that is not drawable, with no timeout due, holds (R103). -/
theorem step_startDrawing_taken {p l : Nat} {rest : List Turn} {ws : List Word} {out : List Response}
    (hs : BlockInv s) (hi : s.initState ≠ .fatal) (hl : l < s.cfg.N) (ha : s.agenda = .port p false :: rest)
    (hp : PortAt s p (encode (.startDrawing l) ++ ws) out) (hd : s.drawableAt l = false) :
    step s = .next (s.inTurn p false rest ⟨ws, .held (.startDrawing l) (.drawable l), out⟩) := by
  have hd' : ¬(s.inTurn p false rest ⟨ws, .idle, out⟩).drawableAt l = true := fun h => nomatch hd.symm.trans h
  rw [step_of_command ha hp (decode_startDrawing (fitsLayer_of_lt hs hl) ws),
    exec_startDrawing_idle (s := s.inTurn _ _ _ _) hi hl (inTurn_actorState hp), tryStartDrawing, if_neg hd', inTurn_alt,
    if_neg nofun, hold_eq]
  exact congrArg Host.Outcome.next (inTurn_updPort ..)

/-- Settles O43: the first port finds the layer drawable and takes it, so the second finds it taken. -/
theorem racingProducersGetTheLayerOnce : Obligations.RacingProducersGetTheLayerOnce := by
  intro s p q l ws ws' out out' rest hpq hs hi hl hd hp hq ha
  have hfirst := step_startDrawing_free hs hi hl ha hp hd
  obtain ⟨_, hu, hinv⟩ := stepNeverStopsAndKeepsTheInvariant s hs
  cases hfirst.symm.trans hu
  have hud : flagAt (s.drawable.set l false) l = false := (flagAt_set s.drawable l l false (.inr rfl)).trans (if_pos rfl)
  have huq : (s.ports.set p ⟨ws, .idle, out ++ [⟨.ok, 0⟩]⟩)[q]? = some ⟨encode (.startDrawing l) ++ ws', .idle, out'⟩ :=
    (List.getElem?_set_ne hpq).trans hq
  have hsecond := step_startDrawing_taken hinv hi hl rfl huq hud
  exact ⟨_, (run_succ hfirst 1).trans (run_succ hsecond 0),
    (inTurn_getElem?_ne hpq).trans (inTurn_getElem?_self (alt := false) (rest := .port q false :: rest) hp),
    inTurn_getElem?_self huq, hud⟩

/-! ### No producer enters a frame -/

theorem updPort_id (p : Nat) : s.updPort p id = s := by
  rw [State.updPort, List.modify_id]

/-- The command whose step a port's turn is runs in that turn; at most the port's FIFO has changed before it (R20, R68). -/
theorem step_eq_exec {p : Nat} {alt : Bool} {i : Instr} (hn : s.nextTurn = .port p alt) (hi : nextCommand s = some i) :
    ∃ g : Port → Port, step s = exec i ((s.acting p alt).updPort p g) ∧ ∀ q, (g q).out = q.out := by
  simp only [nextCommand, hn] at hi
  cases hq : s.ports[p]? with
  | none => simp [hq] at hi
  | some q =>
    obtain ⟨ws, st, out⟩ := q
    have busy {cmd : Instr} (hst : (∃ n count, st = .exec cmd n count) ∨ ∃ cond, st = .held cmd cond) :
        ∃ g : Port → Port, step s = exec cmd ((s.acting p alt).updPort p g) ∧ ∀ q, (g q).out = q.out :=
      ⟨id, (step_of_busy hn hq hst).trans (by rw [updPort_id]), fun _ => rfl⟩
    cases st with
    | exec cmd n count =>
      simp only [hq, Option.some.injEq] at hi
      exact hi ▸ busy (.inl ⟨n, count, rfl⟩)
    | held cmd cond =>
      simp only [hq, Option.some.injEq] at hi
      exact hi ▸ busy (.inr ⟨cond, rfl⟩)
    | idle =>
      simp only [hq] at hi
      split at hi
      · rename_i j n hd
        cases hi
        refine ⟨fun q => { q with inq := q.inq.drop n }, ?_, fun _ => rfl⟩
        rw [step_of_idle hn hq rfl, fetchStep, hd]
        rfl
      · cases hi

/-- No check of R136 answers `OK`. -/
theorem refusalCode_ne_ok {needs ok code} (h : s.refusalCode needs ok = some code) : code ≠ .ok := by
  rintro rfl
  unfold State.refusalCode at h
  split_ifs at h <;> cases h

/-- The acting port's `PORT_OUT` stays, or an answer other than `OK` with data 0 enters it. -/
def AnswersNotOk (s t : State) : Prop :=
  ∃ f : Port → Port, t.ports = s.ports.modify s.actor f ∧
    ∀ q, (f q).out = q.out ∨ ∃ code, code ≠ .ok ∧ (f q).out = q.out ++ [⟨code, 0⟩]

/-- A step of `START_DRAWING` on a layer that is not drawable does not respond `OK` (R103). -/
theorem startDrawing_answersNotOk {l : Nat} (hd : s.drawableAt l = false) (h : exec (.startDrawing l) s = .next t) :
    AnswersNotOk s t := by
  have respond {code} (hc : code ≠ .ok) : AnswersNotOk s (s.respond code 0) := ⟨_, rfl, fun _ => .inr ⟨code, hc, rfl⟩⟩
  have tried (h : tryStartDrawing l s = .next t) : AnswersNotOk s t := by
    rw [tryStartDrawing, hd, if_neg nofun] at h
    split_ifs at h <;> cases h
    · exact respond nofun
    · exact ⟨_, rfl, fun _ => .inl rfl⟩
  have first (h : s.checked .notFatal (s.layerOk l) (tryStartDrawing l) = .next t) : AnswersNotOk s t := by
    unfold State.checked at h
    cases hc : s.refusalCode .notFatal (s.layerOk l) with
    | some code =>
      rw [hc] at h
      cases h
      exact respond (refusalCode_ne_ok hc)
    | none =>
      rw [hc] at h
      exact tried h
  rw [exec, execStartDrawing] at h
  split at h
  · exact tried h
  · exact first h

/-- A step of `START_DRAWING` at its port, on a layer that is not drawable, does not respond `OK`. -/
theorem step_startDrawing_out {p l : Nat} {alt : Bool} {old new : Port} (hn : s.nextTurn = .port p alt)
    (hc : nextCommand s = some (.startDrawing l)) (hd : s.drawableAt l = false) (h : step s = .next t)
    (hold : s.ports[p]? = some old) (hnew : t.ports[p]? = some new) :
    new.out = old.out ∨ ∃ code, code ≠ .ok ∧ new.out = old.out ++ [⟨code, 0⟩] := by
  obtain ⟨g, hg, hgout⟩ := step_eq_exec hn hc
  obtain ⟨f, hf, hout⟩ := startDrawing_answersNotOk (s := (s.acting p alt).updPort p g) hd (hg.symm.trans h)
  have hports : t.ports = (s.ports.modify p g).modify p f := hf
  rw [hports, List.getElem?_modify_eq, List.getElem?_modify_eq, hold] at hnew
  cases hnew
  rw [← hgout old]
  exact hout (g old)

theorem SameBlock.sequencer (h : SameBlock s t) : t.seqOwner = s.seqOwner ∧ t.seqPhase = s.seqPhase :=
  ⟨(congrArg State.seqOwner h :), (congrArg State.seqPhase h :)⟩

/-- While the sequencer has an owner no command changes the owner, and the phase only as a wait ends (R124, R126). -/
theorem effect_sequencer {u : State} {i : Instr} (ho : s.seqOwner ≠ none) (h : Effect s i u) :
    u.seqOwner = s.seqOwner ∧ (u.seqPhase = s.seqPhase ∨ u.seqPhase = .encode) := by
  cases h with
  | acquire hr hn => exact absurd hn ho
  | frame b hs =>
    rw [endWait_eq]
    exact ⟨rfl, .inr rfl⟩
  | _ => exact ⟨rfl, .inl rfl⟩

theorem nextPosition_phase : s.nextPosition.seqPhase = s.seqPhase ∨ s.nextPosition.seqPhase = .release := by
  unfold State.nextPosition
  split_ifs
  · exact .inl rfl
  · exact .inl rfl
  · exact .inr rfl

/-- A frame past its wait goes on: only its release or a reset takes the sequencer from its owner or back to a wait. -/
theorem step_frame_goes_on (ho : s.seqOwner ≠ none) (hp : s.seqPhase ≠ .wait) (h : step s = .next t)
    (hr : s.nextTurn ≠ .reset) (hrel : ¬(s.nextTurn = .sequencer ∧ s.seqPhase = .release)) :
    t.seqOwner = s.seqOwner ∧ t.seqPhase ≠ .wait := by
  have kept (ht : SameBlock s t) : t.seqOwner = s.seqOwner ∧ t.seqPhase ≠ .wait :=
    ⟨ht.sequencer.1, ht.sequencer.2 ▸ hp⟩
  by_cases hn : s.nextTurn = .sequencer
  · simp only [step, hn, turnStep] at h
    rcases sequencer_next h with rfl | ⟨p, c1, c2, _, _, _, _, rfl⟩ | ⟨_, _, _, hrp, _⟩
    · exact kept rfl
    · rw [execOn_eq, updPort_seqOwner, updPort_seqPhase, writePlanes_eq]
      constructor
      · rw [nextPosition_eq]
        rfl
      · rcases nextPosition_phase (s := { s.dropTurn with plane := (s.dropTurn.writePlanes _ _ c1 c2 _).plane }) with e | e
        · exact fun hw => hp (e.symm.trans hw)
        · exact fun hw => nomatch e.symm.trans hw
    · exact absurd ⟨hn, hrp⟩ hrel
  · cases step_blockStep h with
    | quiet ht => exact kept ht
    | command p alt i v u hc =>
      have hb := hc.before.sequencer
      obtain ⟨huo, hup⟩ := effect_sequencer (hb.1 ▸ ho) hc.effect
      refine ⟨hc.after.sequencer.1.trans (huo.trans hb.1), ?_⟩
      rw [hc.after.sequencer.2]
      rcases hup with e | e
      · rw [e, hb.2]
        exact hp
      · rw [e]
        exact nofun
    | encode plane ph y x hs _ _ => exact absurd hs hn
    | release hs _ _ => exact absurd hs hn
    | word w slot idx _ ht => exact ⟨ht.sequencer.1, ht.sequencer.2 ▸ hp⟩
    | reset hs _ => exact absurd hs hr

/-- Settles O45: `step_frame_goes_on`; `drawableAt_changed` names the steps that make a layer drawable; and without a drawable
layer no `START_DRAWING` succeeds. -/
theorem noProducerStartsWhileAFrameIsEncoded : Obligations.NoProducerStartsWhileAFrameIsEncoded := by
  intro s t hs ho hp hd h hr hdu hrel
  obtain ⟨hto, htp⟩ := step_frame_goes_on ho hp h hr hrel
  refine ⟨hto, htp, fun l hl => ?_, fun p alt l old new hn hc hold hnew => ?_⟩
  · by_contra hne
    rw [step_cfg h] at hl
    obtain ⟨_, hf⟩ | ⟨hw, _⟩ := drawableAt_changed (l := l) hs h (by rwa [hd l hl])
    · exact hne hf
    · exact hw.elim hdu fun hw => hw.elim hrel hr
  · have hdl : s.drawableAt l = false := by
      by_cases hl : l < s.cfg.N
      · exact hd l hl
      · exact flagAt_ge (by rw [hs.drawable_length]; omega)
    exact step_startDrawing_out hn hc hdl h hold hnew

/-! ### A held wait and its timeout -/

/-- A port that a command has answered is idle. -/
theorem portState_respond (hp : s.actor < s.ports.length) (code data) : (s.respond code data).portState s.actor = .idle :=
  (portState_updPort_set (f := fun q => q.respond code data) s.actor (fun _ => rfl) hp).trans (if_pos rfl)

theorem tryStartDrawing_due (ha : s.alt = true) (hp : s.actor < s.ports.length) (l : Nat) :
    ∃ t, tryStartDrawing l s = .next t ∧ t.portState s.actor = .idle := by
  unfold tryStartDrawing
  split_ifs
  · exact ⟨_, rfl, portState_respond hp _ _⟩
  · exact ⟨_, rfl, portState_respond hp _ _⟩

theorem tryWaitDrawingDone_due (ha : s.alt = true) (hp : s.actor < s.ports.length) :
    ∃ t, tryWaitDrawingDone s = .next t ∧ t.portState s.actor = .idle := by
  unfold tryWaitDrawingDone
  rw [endWait_eq false, endWait_eq true]
  split_ifs
  · exact ⟨_, rfl, portState_respond hp _ _⟩
  · exact ⟨_, rfl, portState_respond hp _ _⟩

theorem endWait_done_eq (b : Bool) :
    (s.endWait b).done = if b = false ∨ s.cfg.wddClear = true then List.replicate s.cfg.N false else s.done := by
  unfold State.endWait
  split_ifs <;> rfl

/-- The end of a frame's wait, field by field (R124). -/
theorem frameWaitDone_eq (b : Bool) : s.frameWaitDone b = { s with
    done := (s.endWait b).done, seqTo := b, seqB := s.effectiveBrightness, seqPhase := .encode, seqY := 0, seqX := 0
    ports := s.ports.modify s.actor fun q => { q with st := .exec .updateFrame 0 0 } } := by
  rw [State.frameWaitDone, endWait_eq]
  rfl

theorem portState_frameWaitDone (hp : s.actor < s.ports.length) (b : Bool) :
    (s.frameWaitDone b).portState s.actor = .exec .updateFrame 0 0 := by
  rw [frameWaitDone_eq]
  exact (portState_updPort_set (f := fun q => { q with st := .exec .updateFrame 0 0 }) s.actor (fun _ => rfl) hp).trans
    (if_pos rfl)

theorem tryFrameWait_due (ha : s.alt = true) (hp : s.actor < s.ports.length) :
    ∃ t, tryFrameWait s = .next t ∧ t.portState s.actor = .exec .updateFrame 0 0 := by
  unfold tryFrameWait
  split_ifs
  · exact ⟨_, rfl, portState_frameWaitDone hp _⟩
  · exact ⟨_, rfl, portState_frameWaitDone hp _⟩

/-- Settles O46: the invariant says which commands hold and for what, and each of them ends its wait when a timeout is due. -/
theorem heldBarrierWaitEndsWithItsTimeout : Obligations.HeldBarrierWaitEndsWithItsTimeout := by
  intro s p cmd cond hs hn hst hcond
  obtain ⟨hcmd, hp⟩ := nextCommand_held hn hst
  have hok := hs.ports_ok p (hs.ports_length ▸ hp)
  have hstep : step s = exec cmd (s.acting p true) :=
    step_of_busy hn (List.getElem?_eq_getElem hp)
      (.inr ⟨cond, (portState_of_port (List.getElem?_eq_getElem hp)).symm.trans hst⟩)
  have hact : (s.acting p true).actorState = .held cmd cond := hst
  rw [hst] at hok
  rw [hstep]
  obtain ⟨l, rfl, rfl, _⟩ | ⟨rfl, rfl⟩ | ⟨_, hf, _⟩ | ⟨rfl, rfl, _, _⟩ := hok
  · obtain ⟨t, ht, hidle⟩ := tryStartDrawing_due (s := s.acting p true) rfl hp l
    exact ⟨t, by rw [exec, execStartDrawing, hact, ht], .inl hidle⟩
  · obtain ⟨t, ht, hidle⟩ := tryWaitDrawingDone_due (s := s.acting p true) rfl hp
    exact ⟨t, by rw [exec, execWaitDrawingDone, hact, ht], .inl hidle⟩
  · exact absurd hf hcond
  · obtain ⟨t, ht, hexec⟩ := tryFrameWait_due (s := s.acting p true) rfl hp
    exact ⟨t, by rw [exec, execUpdateFrame, hact, ht], .inr ⟨rfl, hexec⟩⟩

end Sys2Proof.Machine
end

section
/-! PROOFS. A whole `UPDATE_FRAME`: its port acquires the sequencer and waits, and the sequencer encodes the words of every position
and releases the layers (R119, R124, R132): O54. -/

namespace Sys2Proof.Machine

variable {s t v : State} {p : Nat} {ws : List Word} {out : List Response}

/-! ### What an encode step reads and writes -/

/-- The display colours depend on the configuration and the layers alone (R93, R99, R100). -/
theorem compositeAt_congr (hc : t.cfg = s.cfg) (hl : t.layer = s.layer) (x y : Int) :
    t.compositeAt x y = s.compositeAt x y := by
  have hread (l i : Nat) : t.readLayer l i = s.readLayer l i := by rw [State.readLayer, State.readLayer, hc, hl]
  have hpix (l : Nat) : t.readPix l x y = s.readPix l x y := by simp only [State.readPix, hc, hread]
  have hacc (n : Nat) : t.accUpTo x y n = s.accUpTo x y n := by
    induction n with
    | zero => rfl
    | succ n ih => rw [State.accUpTo, State.accUpTo, ih, hpix]
  rw [State.compositeAt, State.compositeAt, State.accAt, State.accAt, hc, hacc]

/-- The plane words after the writes of planes `0 .. n-1` at a position (R124). -/
theorem readPlane_writePlanes (hw : s.plane.wf) {y x j : Nat} (hp : y * s.cfg.W + x < s.cfg.planeWords)
    (hj : j < s.cfg.planeWords) (c1 c2 : Color) (n k : Nat) :
    (s.writePlanes y x c1 c2 n).readPlane k j =
      if k < n ∧ j = y * s.cfg.W + x then some (encodeWord s.cfg y x c1 c2 k s.seqB) else s.readPlane k j := by
  have hwf (n : Nat) : (s.writePlanes y x c1 c2 n).plane.wf := by
    induction n with
    | zero => exact hw
    | succ n ih => exact wf_write ih _ _
  induction n with
  | zero => rfl
  | succ n ih =>
    have hread : (s.writePlanes y x c1 c2 (n + 1)).readPlane k j =
        if planeAddr s.cfg k j = planeAddr s.cfg n (y * s.cfg.W + x) then some (encodeWord s.cfg y x c1 c2 n s.seqB)
        else (s.writePlanes y x c1 c2 n).readPlane k j := by
      rw [State.writePlanes, State.readPlane, State.readPlane, writePlane_plane, writePlane_cfg, writePlanes_cfg,
        read_write _ (hwf n)]
    rw [hread, ih]
    by_cases he : k = n ∧ j = y * s.cfg.W + x
    · obtain ⟨rfl, rfl⟩ := he
      rw [if_pos rfl, if_pos ⟨Nat.lt_succ_self k, rfl⟩]
    · have hlt : (k < n + 1 ∧ j = y * s.cfg.W + x) ↔ (k < n ∧ j = y * s.cfg.W + x) := by omega
      rw [if_neg fun e => he (planeAddr_inj hj hp e)]
      simp only [hlt]

/-- An encode step changes the planes, the position with the phase, and the progress of the owner's port (R124). -/
theorem sequencerStep_encode {c1 c2 : Color} (ho : s.seqOwner = some p) (hp : s.seqPhase = .encode)
    (h1 : s.compositeAt s.seqX s.seqY = some c1) (h2 : s.compositeAt s.seqX (s.seqY + s.cfg.half : Nat) = some c2) :
    ∃ t, sequencerStep s = .next t ∧ t = { s with
      plane := (s.writePlanes s.seqY s.seqX c1 c2 s.cfg.K).plane, seqPhase := t.seqPhase, seqY := t.seqY, seqX := t.seqX
      ports := s.ports.modify p fun q => { q with st := .exec .updateFrame (s.seqY * s.cfg.W + s.seqX + 1) 0 } } := by
  refine ⟨_, by simp only [sequencerStep, ho, hp, encodeStep, h1, h2, orNoValue]; rfl, ?_⟩
  rw [nextPosition_eq, writePlanes_eq]
  rfl

theorem sequencerStep_release (ho : s.seqOwner = some p) (hp : s.seqPhase = .release) :
    sequencerStep s = .next (({ s.releaseAll with seqOwner := none } : State).respondOn p
      (if s.seqTo = true then .timeout else .ok) 0) := by
  simp only [sequencerStep, ho, hp, releaseStep]

/-- A row pair and a column are those of their word (R119). -/
theorem position_inj {W y x y' x' : Nat} (hx : x < W) (hx' : x' < W) (h : y * W + x = y' * W + x') : y = y' ∧ x = x' := by
  have hW : 0 < W := by omega
  have hy : y = y' := by
    have := congrArg (· / W) h
    simpa [Nat.mul_add_div hW, Nat.mul_comm _ W, Nat.div_eq_of_lt hx, Nat.div_eq_of_lt hx'] using this
  subst hy
  exact ⟨rfl, by omega⟩

/-! ### A frame encoded up to a word -/

/-- In `v` the words of row pair `y`, column `x` are the encoding of the layers of `s` at its effective brightness. -/
def FrameWord (s v : State) (y x : Nat) : Prop :=
  ∃ c1 c2, s.compositeAt x y = some c1 ∧ s.compositeAt x ((y : Int) + (s.cfg.H / 2 : Nat)) = some c2 ∧
    ∀ k < s.cfg.K, v.readPlane k (y * s.cfg.W + x) = some (encodeWord s.cfg y x c1 c2 k s.effectiveBrightness)

/-- `v` is `s` in the frame of port `p`, whose wait ended in its turn with `late`, by a timeout if `timedOut`, with the words
below `i` of the planes encoded. -/
structure Encoding (s : State) (p : Nat) (late timedOut : Bool) (ws : List Word) (out : List Response) (i : Nat) (v : State) :
    Prop where
  inv : BlockInv v
  port : v.ports[p]? = some ⟨ws, .exec .updateFrame i 0, out⟩
  others : ∀ q, q ≠ p → v.ports[q]? = s.ports[q]?
  frame : v = { s with
    agenda := v.agenda, actor := p, alt := late, ports := v.ports, plane := v.plane, done := (s.endWait timedOut).done
    seqOwner := some p, seqPhase := v.seqPhase, seqY := v.seqY, seqX := v.seqX, seqB := s.effectiveBrightness, seqTo := timedOut }
  words : ∀ y < s.cfg.half, ∀ x < s.cfg.W, y * s.cfg.W + x < i → FrameWord s v y x

variable {late timedOut : Bool} {i : Nat}

theorem Encoding.cfg (h : Encoding s p late timedOut ws out i v) : v.cfg = s.cfg := (congrArg State.cfg h.frame :)
theorem Encoding.layer (h : Encoding s p late timedOut ws out i v) : v.layer = s.layer := (congrArg State.layer h.frame :)
theorem Encoding.seqOwner (h : Encoding s p late timedOut ws out i v) : v.seqOwner = some p :=
  (congrArg State.seqOwner h.frame :)
theorem Encoding.seqB (h : Encoding s p late timedOut ws out i v) : v.seqB = s.effectiveBrightness :=
  (congrArg State.seqB h.frame :)
theorem Encoding.seqTo (h : Encoding s p late timedOut ws out i v) : v.seqTo = timedOut := (congrArg State.seqTo h.frame :)

/-- The invariant ties the owner's progress to the sequencer's phase and position (R30, R124). -/
theorem Encoding.position (h : Encoding s p late timedOut ws out i v) :
    (v.seqPhase = .encode ∧ i = v.seqY * s.cfg.W + v.seqX) ∨ (v.seqPhase = .release ∧ i = s.cfg.planeWords) := by
  have hst := (portState_of_port h.port).symm.trans (h.inv.owner_ok p h.seqOwner).2.2
  rw [ownerState, h.cfg] at hst
  cases hp : v.seqPhase <;> rw [hp] at hst <;> cases hst
  · exact .inl ⟨rfl, rfl⟩
  · exact .inr ⟨rfl, rfl⟩

theorem Encoding.encodePosition (h : Encoding s p late timedOut ws out i v) (hi : i < s.cfg.planeWords) :
    v.seqPhase = .encode ∧ i = v.seqY * s.cfg.W + v.seqX :=
  h.position.resolve_right fun hr => absurd hr.2 (Nat.ne_of_lt hi)

theorem Encoding.releasePhase (h : Encoding s p late timedOut ws out s.cfg.planeWords v) : v.seqPhase = .release := by
  obtain ⟨_, hi⟩ | ⟨hr, _⟩ := h.position
  · have := position_lt h.inv.cfg_valid h.inv.seq_y_lt h.inv.seq_x_lt
    rw [h.cfg] at this
    omega
  · exact hr

theorem Encoding.withAgenda (h : Encoding s p late timedOut ws out i v) (rest : List Turn) :
    Encoding s p late timedOut ws out i { v with agenda := rest } where
  inv := { h.inv with }
  port := h.port
  others := h.others
  frame := by rw [h.frame]
  words := h.words

/-- A word encoded stays so while the planes keep its elements. -/
theorem FrameWord.congr {y x : Nat} (h : FrameWord s v y x)
    (hk : ∀ k, t.readPlane k (y * s.cfg.W + x) = v.readPlane k (y * s.cfg.W + x)) : FrameWord s t y x := by
  obtain ⟨c1, c2, h1, h2, hw⟩ := h
  exact ⟨c1, c2, h1, h2, fun k hkK => (hk k).trans (hw k hkK)⟩

/-- One encode step encodes the next word of every plane (R124, R125). -/
theorem Encoding.sequencerStep (h : Encoding s p late timedOut ws out i v) (hi : i < s.cfg.planeWords) :
    ∃ t, Machine.sequencerStep v = .next t ∧ t.agenda = v.agenda ∧ Encoding s p late timedOut ws out (i + 1) t := by
  obtain ⟨hph, rfl⟩ := h.encodePosition hi
  have hr := (h.inv.owner_ok p h.seqOwner).1
  obtain ⟨c1, h1⟩ := compositeAt_some h.inv hr v.seqX v.seqY
  obtain ⟨c2, h2⟩ := compositeAt_some h.inv hr v.seqX (v.seqY + v.cfg.half : Nat)
  obtain ⟨t, hstep, hte⟩ := sequencerStep_encode h.seqOwner hph h1 h2
  obtain ⟨_, hstep', hinv⟩ := safe_sequencerStep h.inv
  cases hstep.symm.trans hstep'
  have hports : t.ports = v.ports.modify p fun q =>
      { q with st := .exec .updateFrame (v.seqY * v.cfg.W + v.seqX + 1) 0 } := (congrArg State.ports hte :)
  have hread (k j : Nat) (hj : j < s.cfg.planeWords) : t.readPlane k j =
      if k < s.cfg.K ∧ j = v.seqY * s.cfg.W + v.seqX then some (encodeWord s.cfg v.seqY v.seqX c1 c2 k s.effectiveBrightness)
      else v.readPlane k j := by
    have hw := readPlane_writePlanes (s := v) h.inv.plane_wf (y := v.seqY) (x := v.seqX) (j := j) (by rwa [h.cfg])
      (by rwa [h.cfg]) c1 c2 v.cfg.K k
    rw [h.cfg, h.seqB] at hw
    rw [← hw, State.readPlane, State.readPlane, hte, writePlanes_cfg, h.cfg]
  refine ⟨t, hstep, (congrArg State.agenda hte :), hinv, ?_, fun q hq => ?_, ?_, fun y hy x hx hlt => ?_⟩
  · rw [hports, List.getElem?_modify_eq, h.port, h.cfg]
    rfl
  · rw [hports, List.getElem?_modify_ne _ _ (Ne.symm hq), h.others q hq]
  · rw [hte, h.frame]
  · by_cases he : y * s.cfg.W + x = v.seqY * s.cfg.W + v.seqX
    · obtain ⟨rfl, rfl⟩ := position_inj hx (h.cfg ▸ h.inv.seq_x_lt) he
      have hcolor (x y : Int) : v.compositeAt x y = s.compositeAt x y := compositeAt_congr h.cfg h.layer x y
      refine ⟨c1, c2, (hcolor _ _).symm.trans h1, (hcolor _ _).symm.trans ?_, fun k hk => ?_⟩
      · rw [← h2, h.cfg, Nat.cast_add]
        rfl
      · rw [hread k _ hi, if_pos ⟨hk, rfl⟩]
    · refine (h.words y hy x hx (by omega)).congr fun k => ?_
      rw [hread k _ (by omega), if_neg fun hk => he hk.2]

theorem Encoding.step {rest : List Turn} (h : Encoding s p late timedOut ws out i v) (hi : i < s.cfg.planeWords)
    (ha : v.agenda = .sequencer :: rest) :
    ∃ t, Machine.step v = .next t ∧ t.agenda = rest ∧ Encoding s p late timedOut ws out (i + 1) t := by
  rw [Machine.step, nextTurn_cons v ha, dropTurn_cons v ha]
  exact (h.withAgenda rest).sequencerStep hi

/-- The step after the last word frees the sequencer, makes every layer drawable and responds (R124, R139). -/
theorem Encoding.release {rest : List Turn} (h : Encoding s p late timedOut ws out s.cfg.planeWords v)
    (ha : v.agenda = .sequencer :: rest) :
    ∃ t, Machine.step v = .next t ∧
      PortAt t p ws (out ++ [⟨if timedOut = true then .timeout else .ok, 0⟩]) ∧
      (∀ q, q ≠ p → t.ports[q]? = s.ports[q]?) ∧
      t = { s with
        agenda := rest, actor := p, alt := late, ports := t.ports, plane := v.plane
        drawable := List.replicate s.cfg.N true, done := (s.endWait timedOut).done, seqOwner := none
        seqPhase := t.seqPhase, seqY := t.seqY, seqX := t.seqX, seqB := t.seqB, seqTo := t.seqTo } := by
  have hstep : Machine.step v = .next (({ v.releaseAll with agenda := rest, seqOwner := none } : State).respondOn p
      (if timedOut = true then .timeout else .ok) 0) := by
    rw [Machine.step, nextTurn_cons v ha, dropTurn_cons v ha, ← h.seqTo]
    exact sequencerStep_release (s := { v with agenda := rest }) h.seqOwner h.releasePhase
  refine ⟨_, hstep, ?_, fun q hq => ?_, ?_⟩
  · rw [PortAt, respondOn_eq, updPort_ports, List.getElem?_modify_eq]
    exact congrArg _ h.port
  · rw [respondOn_eq, updPort_ports, List.getElem?_modify_ne _ _ (Ne.symm hq)]
    exact h.others q hq
  · rw [h.frame]
    rfl

/-! ### How the frame begins -/

/-- A port that starts `UPDATE_FRAME` while the sequencer is free becomes its owner, and waits (R124). -/
theorem step_updateFrame_acquire {alt : Bool} {rest : List Turn} (hr : s.initState = .ready) (ho : s.seqOwner = none)
    (ha : s.agenda = .port p alt :: rest) (hp : PortAt s p (encode .updateFrame ++ ws) out) :
    step s = .next { s.inTurn p alt rest ⟨ws, .held .updateFrame .allDone, out⟩ with
      seqOwner := some p, seqPhase := .wait } := by
  have hst : (s.inTurn p alt rest ⟨ws, .idle, out⟩).actorState = .idle := inTurn_actorState hp
  have hacquire : tryAcquire (s.inTurn p alt rest ⟨ws, .idle, out⟩) = .next
      (({ s.inTurn p alt rest ⟨ws, .idle, out⟩ with seqOwner := some p, seqPhase := .wait } : State).hold
        .updateFrame .allDone) := if_pos ho
  have hhold := inTurn_updPort (s := s) p alt rest ⟨ws, .idle, out⟩ fun q => { q with st := .held .updateFrame .allDone }
  rw [step_of_command ha hp (decode_updateFrame ws), exec, execUpdateFrame, hst, ← hhold]
  exact (checked_pass (s := s.inTurn p alt rest ⟨ws, .idle, out⟩) (refusalCode_ready hr)).trans hacquire

theorem tryFrameWait_ends (h : s.allDone = true ∨ s.alt = true) :
    tryFrameWait s = .next (s.frameWaitDone (!s.allDone)) := by
  unfold tryFrameWait
  cases hd : s.allDone with
  | true => rfl
  | false => exact if_pos (h.resolve_left (by simp [hd]))

/-- The owner's turn in which every layer is done or a timeout is due ends its wait (R105, R124). -/
theorem step_updateFrame_waited {alt : Bool} {rest : List Turn} (hd : s.allDone = true ∨ alt = true)
    (ha : s.agenda = .port p alt :: rest) (hp : s.ports[p]? = some ⟨ws, .held .updateFrame .allDone, out⟩) :
    step s = .next { s.inTurn p alt rest ⟨ws, .exec .updateFrame 0 0, out⟩ with
      done := (s.endWait (!s.allDone)).done, seqTo := !s.allDone, seqB := s.effectiveBrightness, seqPhase := .encode
      seqY := 0, seqX := 0 } := by
  have hst : (s.inTurn p alt rest ⟨ws, .held .updateFrame .allDone, out⟩).actorState = .held .updateFrame .allDone :=
    inTurn_actorState hp
  have hends := tryFrameWait_ends (s := s.inTurn p alt rest ⟨ws, .held .updateFrame .allDone, out⟩) hd
  have hexec := inTurn_updPort (s := s) p alt rest ⟨ws, .held .updateFrame .allDone, out⟩
    fun q => { q with st := .exec .updateFrame 0 0 }
  rw [step_of_going ha hp (.inr ⟨_, rfl⟩), exec, execUpdateFrame, hst, ← hexec]
  refine hends.trans ?_
  rw [frameWaitDone_eq, endWait_done_eq, endWait_done_eq]
  rfl

/-- The two steps of the port lead to the frame with no word encoded yet. -/
theorem encoding_zero {rest : List Turn} (hs : BlockInv s) (hr : s.initState = .ready) (ho : s.seqOwner = none)
    (hd : s.allDone = true ∨ late = true) (hp : PortAt s p (encode .updateFrame ++ ws) out)
    (ha : s.agenda = .port p false :: .port p late :: rest) :
    ∃ u v, Machine.step s = .next u ∧ Machine.step u = .next v ∧ v.agenda = rest ∧
      Encoding s p late (!s.allDone) ws out 0 v := by
  have hfirst := step_updateFrame_acquire hr ho ha hp
  obtain ⟨u, hu, hui⟩ := stepNeverStopsAndKeepsTheInvariant s hs
  have hue := Host.Outcome.next.inj (hu.symm.trans hfirst)
  have hup : u.ports[p]? = some ⟨ws, .held .updateFrame .allDone, out⟩ := by
    rw [hue]
    exact inTurn_getElem?_self (alt := false) (rest := rest) hp
  have hsecond := step_updateFrame_waited (s := u) (rest := rest) (by rw [hue]; exact hd) (by rw [hue]; rfl) hup
  obtain ⟨v, hv, hvi⟩ := stepNeverStopsAndKeepsTheInvariant u hui
  have hve := Host.Outcome.next.inj (hv.symm.trans hsecond)
  refine ⟨u, v, hu, hv, by rw [hve]; rfl, hvi, ?_, fun q hq => ?_, ?_, fun y _ x _ hlt => absurd hlt (Nat.not_lt_zero _)⟩
  · rw [hve]
    exact inTurn_getElem?_self (alt := late) (rest := rest) hup
  · rw [hve]
    refine (inTurn_getElem?_ne (s := u) (alt := late) (rest := rest) hq).trans ?_
    rw [hue]
    exact inTurn_getElem?_ne (s := s) (alt := false) (rest := rest) hq
  · rw [hve, hue, endWait_done_eq, endWait_done_eq]
    rfl

/-- Settles O54: `encoding_zero`, then one `Encoding.step` for each word, then `Encoding.release`. -/
theorem updateFrameRunEncodesTheWholeFrame : Obligations.UpdateFrameRunEncodesTheWholeFrame := by
  intro s p late ws out rest hs hr ho hd hp ha
  rw [← allDone_iff] at hd
  obtain ⟨u, v, hu, hv, hva, h0⟩ := encoding_zero hs hr ho hd hp ha
  rw [List.replicate_succ', List.append_assoc] at hva
  obtain ⟨w, hw, hwa, henc⟩ := run_replicate (fun i v rest hi (h : Encoding s p late (!s.allDone) ws out i v) ha =>
    h.step hi ha) h0 hva
  obtain ⟨t, hlast, hport, hothers, hframe⟩ := henc.release (rest := rest) hwa
  have hcfg : t.cfg = w.cfg := (congrArg State.cfg hframe).trans henc.cfg.symm
  have hdrawable : t.drawable = List.replicate s.cfg.N true := (congrArg State.drawable hframe :)
  have hdone : t.done = (s.endWait (!s.allDone)).done := (congrArg State.done hframe :)
  have hplane : t.plane = w.plane := (congrArg State.plane hframe :)
  refine ⟨t, _, ?_, fun hall => ?_, fun hnot => ?_, hport, hothers, ?_, fun l hl => ?_, fun y hy x hx => ?_⟩
  · calc
      core.run (s.cfg.planeWords + 3) s = core.run (s.cfg.planeWords + 2) u := run_succ hu _
      _ = core.run (s.cfg.planeWords + 1) v := run_succ hv _
      _ = core.run 1 w := run_add hw 1
      _ = .next t := run_succ hlast 0
  · rw [allDone_iff.2 hall, endWait_done_eq] at hdone
    refine ⟨by rw [allDone_iff.2 hall]; rfl, fun l hl => ?_⟩
    rw [State.doneAt, hdone]
    exact flagAt_replicate false hl
  · obtain ⟨l, hl, hf⟩ := hnot
    have hall : s.allDone = false := by
      rw [← Bool.not_eq_true, allDone_iff]
      exact fun h => nomatch hf.symm.trans (h l hl)
    rw [hall]
    rfl
  · rw [hframe, ho]
  · rw [State.drawableAt, hdrawable]
    exact flagAt_replicate true hl
  · have hword := henc.words y hy x hx (position_lt hs.cfg_valid hy hx)
    exact hword.congr fun k => by rw [State.readPlane, hplane, hcfg]; rfl

end Sys2Proof.Machine
end

section
/-! PROOFS. The decoder and the encoder are inverse to each other, and the opcode byte alone fixes a command's row and length (R61
to R69): O1 to O4, O6, O7. -/

namespace Sys2Proof

/-! ### Fields of a word -/

/-- Where the mask of a row has ones, a word that passes it has the row's fixed bits (R67). -/
theorem extractLsb'_of_mask {w0 m fixed : Word} (h : w0 &&& m = fixed) (start : Nat) {len : Nat}
    (hm : m.extractLsb' start len = BitVec.allOnes len) :
    w0.extractLsb' start len = fixed.extractLsb' start len := by
  rw [← h, BitVec.extractLsb'_and, hm, BitVec.and_allOnes]

/-- A word with `RSV = 0` is the header word of its own fields (R62). -/
theorem headerWord_fields {w0 : Word} (hrsv : w0.extractLsb' 12 4 = 0#4) :
    headerWord (opcodeField w0) (layerField w0) (immField w0) = w0 := by
  rw [headerWord, layerField, immField, opcodeField, BitVec.ofNat_toNat, BitVec.ofNat_toNat, BitVec.setWidth_eq,
    BitVec.setWidth_eq, ← hrsv, BitVec.extractLsb'_append_extractLsb'_eq_extractLsb' (by rfl),
    BitVec.extractLsb'_append_extractLsb'_eq_extractLsb' (by rfl),
    BitVec.extractLsb'_append_extractLsb'_eq_extractLsb' (by rfl)]
  exact BitVec.extractLsb'_eq_self

/-- A word is the coordinate word of its own fields (R63). -/
@[simp] theorem xyWord_fields (a : Word) : xyWord (xField a) (yField a) = a := by
  rw [xyWord, xField, yField, BitVec.ofInt_toInt, BitVec.ofInt_toInt,
    BitVec.extractLsb'_append_extractLsb'_eq_extractLsb' (by rfl)]
  exact BitVec.extractLsb'_eq_self

theorem fitsLayer_layerField (w0 : Word) : fitsLayer (layerField w0) := Nat.le_of_lt_succ (BitVec.isLt _)

theorem fitsImm_immField (w0 : Word) : fitsImm (immField w0) := Nat.le_of_lt_succ (BitVec.isLt _)

theorem fitsFactor_factorField (w0 : Word) : fitsFactor (factorField w0) := Nat.le_of_lt_succ (BitVec.isLt _)

theorem fitsCoord_toInt (v : BitVec 16) : fitsCoord v.toInt := ⟨v.le_toInt, v.toInt_le⟩

/-- Operand assembly gives only operands that fit (R62 to R65). -/
theorem wf_buildInstr (shape : Shape) (w0 a1 a2 : Word) : (buildInstr shape w0 a1 a2).wf = true := by
  have hl := fitsLayer_layerField w0
  have hx : fitsCoord (xField a1) := fitsCoord_toInt _
  have hy : fitsCoord (yField a1) := fitsCoord_toInt _
  cases shape with
  | setPixel | setPixelOver | getPixel => exact decide_eq_true ⟨hl, hx, hy⟩
  | setAll | startDrawing | doneDrawing => exact decide_eq_true hl
  | fadeOut => exact decide_eq_true ⟨hl, fitsFactor_factorField w0⟩
  | shiftUp => exact decide_eq_true ⟨hl, fitsImm_immField w0⟩
  | composite => exact decide_eq_true ⟨hx, hy⟩
  | waitDrawingDone | doneUpdating | updateFrame => rfl
  | init | setBrightness | setBrightnessCap | readReg => exact decide_eq_true (fitsImm_immField w0)

/-! ### Header words that pass a row's mask -/

/-- `RSV` must be zero in every row (R62, R67). -/
theorem row_rsv : ∀ r ∈ opTable, r.mask.extractLsb' 12 4 = 0xF#4 := by decide

/-- The fixed bits of a row are its opcode alone: `LAYER`, `RSV`, `IMM` and the upper byte of `IMM` are zero (R66, R67). -/
theorem row_fixed : ∀ r ∈ opTable, r.fixed.extractLsb' 8 4 = 0#4 ∧ r.fixed.extractLsb' 12 4 = 0#4 ∧
    r.fixed.extractLsb' 16 16 = 0#16 ∧ r.fixed.extractLsb' 24 8 = 0#8 := by decide

theorem row_words_le : ∀ r ∈ opTable, r.words ≤ 3 := by decide

section
variable {r : OpRow} {w0 : Word} (hr : r ∈ opTable) (h : w0 &&& r.mask = r.fixed)
include hr h

theorem opcodeField_of_row : opcodeField w0 = opcodeField r.fixed :=
  extractLsb'_of_mask h 0 (row_mask r hr).2

/-- Only `LAYER` and `IMM` of a header word are free (R62). -/
theorem headerWord_of_row : headerWord (opcodeField r.fixed) (layerField w0) (immField w0) = w0 := by
  obtain ⟨-, hrsv, -, -⟩ := row_fixed r hr
  rw [← opcodeField_of_row hr h]
  exact headerWord_fields ((extractLsb'_of_mask h 12 (row_rsv r hr)).trans hrsv)

theorem layerField_of_row (hm : r.mask.extractLsb' 8 4 = 0xF#4) : layerField w0 = 0 := by
  obtain ⟨hlayer, -, -, -⟩ := row_fixed r hr
  exact congrArg BitVec.toNat ((extractLsb'_of_mask h 8 hm).trans hlayer)

theorem immField_of_row (hm : r.mask.extractLsb' 16 16 = 0xFFFF#16) : immField w0 = 0 := by
  obtain ⟨-, -, himm, -⟩ := row_fixed r hr
  exact congrArg BitVec.toNat ((extractLsb'_of_mask h 16 hm).trans himm)

/-- Where the upper byte of `IMM` must be zero, `IMM` is the factor field (R65). -/
theorem immField_eq_factorField_of_row (hm : r.mask.extractLsb' 24 8 = 0xFF#8) : immField w0 = factorField w0 := by
  obtain ⟨-, -, -, hfixed⟩ := row_fixed r hr
  have hupper : w0.extractLsb' 24 8 = 0#8 := (extractLsb'_of_mask h 24 hm).trans hfixed
  have hsplit : w0.extractLsb' 16 16 = 0#8 ++ w0.extractLsb' 16 8 := by
    rw [← hupper, BitVec.extractLsb'_append_extractLsb'_eq_extractLsb' (by rfl)]
  rw [immField, factorField, hsplit, Machine.toNat_append_eq, BitVec.toNat_zero, Nat.mul_zero, Nat.add_zero]

/-- Operands read from a header word that passes a row's mask encode back to the row's words (R65 to R67). Which of the header's
fields the operands carry, and which are zero, the row's mask says. -/
theorem encode_buildInstr (a1 a2 : Word) : encode (buildInstr r.shape w0 a1 a2) = [w0, a1, a2].take r.words := by
  have hheader := headerWord_of_row hr h
  have hlayer := layerField_of_row hr h
  have himm := immField_of_row hr h
  have hfactor := immField_eq_factorField_of_row hr h
  clear h
  fin_cases hr <;> simp_all [buildInstr, encode, opcodeField]

end

/-! ### What the decoder answers -/

/-- R66, R69(a). -/
theorem decode_of_lookupRow_none {w0 : Word} (hr : lookupRow (opcodeField w0) = none) (args : List Word) :
    decode (w0 :: args) = .illegal .reservedOpcode 1 := by
  simp only [decode, hr]

/-- What the decoder says of a word list that begins with a row's opcode (R67, R68). -/
theorem decode_of_lookupRow {w0 : Word} {r : OpRow} (hr : lookupRow (opcodeField w0) = some r) (args : List Word) :
    decode (w0 :: args) =
      if args.length + 1 < r.words then .incomplete
      else if w0 &&& r.mask = r.fixed then .instr (buildInstr r.shape w0 (args.getD 0 0) (args.getD 1 0)) r.words
      else .illegal .mustBeZero r.words := by
  simp only [decode, hr]

/-- A command that the decoder reads is built from a row of the table whose mask the header word passes, and all its words
have arrived (R65, R67, R68). -/
theorem decode_eq_instr {ws : List Word} {i : Instr} {n : Nat} (h : decode ws = .instr i n) :
    ∃ w0 args, ∃ r ∈ opTable, ws = w0 :: args ∧ r.words ≤ args.length + 1 ∧ w0 &&& r.mask = r.fixed ∧
      i = buildInstr r.shape w0 (args.getD 0 0) (args.getD 1 0) ∧ n = r.words := by
  cases ws with
  | nil => cases h
  | cons w0 args =>
    cases hr : lookupRow (opcodeField w0) with
    | none => simp [decode, hr] at h
    | some r =>
      rw [decode_of_lookupRow hr] at h
      split_ifs at h with hlen hmask
      obtain ⟨rfl, rfl⟩ := Decoded.instr.inj h
      exact ⟨w0, args, r, (mem_of_lookupRow hr).1, rfl, Nat.le_of_not_lt hlen, hmask, rfl, rfl⟩

/-- The words of a command are the first words of the list, also where a word past its length is filled in. -/
theorem take_getD {w0 : Word} {args : List Word} {n : Nat} (hn : n ≤ 3) (hlen : n ≤ args.length + 1) :
    [w0, args.getD 0 0, args.getD 1 0].take n = (w0 :: args).take n := by
  match n, args with
  | 0, _ | 1, _ => rfl
  | 2, _ :: _ => rfl
  | 3, _ :: _ :: _ => rfl
  | 2, [] | 3, [] | 3, [_] => simp at hlen
  | _ + 4, _ => omega

/-- Settles O2: a command read is built from a row whose mask its header passes (`decode_eq_instr`), and its operands fit and
encode back to the row's words (`wf_buildInstr`, `encode_buildInstr`). -/
theorem decodedCommandEncodesBackToItsWords : Obligations.DecodedCommandEncodesBackToItsWords := by
  intro ws i n h
  obtain ⟨w0, args, r, hr, rfl, hlen, hmask, rfl, rfl⟩ := decode_eq_instr h
  have hwords : r.words ≤ 3 := row_words_le r hr
  have henc := encode_buildInstr hr hmask (args.getD 0 0) (args.getD 1 0)
  refine ⟨wf_buildInstr .., henc.trans (take_getD hwords hlen), ?_⟩
  rw [henc, List.length_take]
  exact Nat.min_eq_left hwords

/-! ### The opcode byte -/

/-- Settles O6: a header word that selects a row has the row's opcode, and an opcode finds one row. -/
theorem opcodeRowsAreDisjoint : Obligations.OpcodeRowsAreDisjoint := by
  intro w0 r hr r' hr' h h'
  have hopc : opcodeField r.fixed = opcodeField r'.fixed :=
    (opcodeField_of_row hr h).symm.trans (opcodeField_of_row hr' h')
  exact Option.some.inj (by rw [← lookupRow_fixed r hr, hopc, lookupRow_fixed r' hr'])

/-- R66. -/
theorem row_not_reserved : ∀ r ∈ opTable, ¬(opcodeField r.fixed = 0x00#8 ∨
    (0x08#8 ≤ opcodeField r.fixed ∧ opcodeField r.fixed ≤ 0x0F#8) ∨
    (0x14#8 ≤ opcodeField r.fixed ∧ opcodeField r.fixed ≤ 0x1F#8) ∨ 0x25#8 ≤ opcodeField r.fixed) := by decide

/-- Settles O3: no row has a reserved opcode, and a row is found at its opcode whatever the other bits are. -/
theorem illegalEncodingsAreRefusedAtTheirLength : Obligations.IllegalEncodingsAreRefusedAtTheirLength := by
  constructor
  · intro w0 args hres
    apply decode_of_lookupRow_none
    rw [Option.eq_none_iff_forall_ne_some]
    intro r hr
    obtain ⟨hmem, hopc⟩ := mem_of_lookupRow hr
    exact row_not_reserved r hmem (hopc ▸ hres)
  · intro r hr w0 args hopc hlen hmask
    rw [decode_of_lookupRow (hopc ▸ lookupRow_fixed r hr), if_neg (Nat.not_lt.2 hlen), if_neg hmask]

/-- The length comes from the opcode byte, before the other bits are looked at (R68). -/
theorem wordsTaken_decode (w0 : Word) (args : List Word) :
    wordsTaken (decode (w0 :: args)) =
      (lookupRow (opcodeField w0)).elim 1 fun r => if args.length + 1 < r.words then 0 else r.words := by
  cases hr : lookupRow (opcodeField w0) with
  | none => rw [decode_of_lookupRow_none hr]; rfl
  | some r =>
    rw [decode_of_lookupRow hr, Option.elim_some]
    split_ifs <;> rfl

/-- Settles O4, by `wordsTaken_decode`. -/
theorem commandLengthDependsOnTheOpcodeByteAlone : Obligations.CommandLengthDependsOnTheOpcodeByteAlone := by
  intro w0 w0' args args' hopc hlen
  rw [wordsTaken_decode, wordsTaken_decode, hopc, hlen]

/-- Settles O7, by running the decoder on the words. -/
theorem specProgramWordsDecodeAsLabelled : Obligations.SpecProgramWordsDecodeAsLabelled := by
  unfold Obligations.SpecProgramWordsDecodeAsLabelled
  decide

/-! ### Decoding an encoded command -/

/-- A mask that lets only `LAYER` pass leaves the opcode (R62, R67). -/
theorem headerWord_and_layerMask (opc : BitVec 8) (l : Nat) : headerWord opc l 0 &&& 0xFFFFF0FF#32 = headerWord opc 0 0 :=
  headerWord_and opc l (imm := 0) (m := 0xFFFF#16) BitVec.zero_and

/-- A mask that lets only `IMM` pass leaves the opcode (R62, R67). -/
theorem headerWord_and_immMask (opc : BitVec 8) (imm : Nat) :
    headerWord opc 0 imm &&& 0x0000FFFF#32 = headerWord opc 0 0 := by
  rw [headerWord, headerWord, show 0x0000FFFF#32 = 0#16 ++ 0xF#4 ++ 0xF#4 ++ 0xFF#8 from rfl, BitVec.and_append,
    BitVec.and_append, BitVec.and_append, BitVec.and_zero, show (opc &&& 0xFF#8) = opc from BitVec.and_allOnes]
  rfl

/-- A command decodes to itself if its header word passes the mask of its opcode's row and the row's operands are the
command's (R65, R67, R68). -/
theorem decode_encode_append {i : Instr} {opc : BitVec 8} {l imm : Nat} {args rest : List Word} {r : OpRow}
    (he : encode i = headerWord opc l imm :: args) (hr : lookupRow opc = some r) (hlen : r.words = args.length + 1)
    (hmask : headerWord opc l imm &&& r.mask = r.fixed)
    (hbuild : buildInstr r.shape (headerWord opc l imm) ((args ++ rest).getD 0 0) ((args ++ rest).getD 1 0) = i) :
    decode (encode i ++ rest) = .instr i (encode i).length := by
  rw [he, decode_of_row hr hlen hmask, hbuild, List.length_cons]

/-- Settles O1: for each command, its row, the mask its header word passes, and the fields that give its operands back. -/
theorem encodedCommandDecodesToItself : Obligations.EncodedCommandDecodesToItself := by
  intro i rest h
  cases i with
  | setPixel l x y color | setPixelOver l x y color | getPixel l x y =>
    obtain ⟨hl, hx, hy⟩ := of_decide_eq_true h
    refine decode_encode_append rfl rfl rfl (headerWord_and_layerMask _ l) ?_
    simp [buildInstr, layerField_headerWord _ _ hl, xField_xyWord _ hx, yField_xyWord _ hy]
  | composite x y =>
    obtain ⟨hx, hy⟩ := of_decide_eq_true h
    refine decode_encode_append rfl rfl rfl BitVec.and_allOnes ?_
    simp [buildInstr, xField_xyWord _ hx, yField_xyWord _ hy]
  | setAll l color => exact decode_setAll (of_decide_eq_true h) color rest
  | fadeOut l factor =>
    obtain ⟨hl, hf⟩ := of_decide_eq_true h
    exact decode_fadeOut hl hf rest
  | shiftUp l n =>
    obtain ⟨hl, hn⟩ := of_decide_eq_true h
    exact decode_shiftUp hl hn rest
  | startDrawing l => exact decode_startDrawing (of_decide_eq_true h) rest
  | doneDrawing l =>
    refine decode_encode_append rfl rfl rfl (headerWord_and_layerMask _ l) ?_
    rw [buildInstr, layerField_headerWord _ _ (of_decide_eq_true h)]
  | updateFrame => exact decode_updateFrame rest
  | waitDrawingDone | doneUpdating => exact decode_encode_append rfl rfl rfl BitVec.and_allOnes rfl
  | init imm | setBrightness imm | setBrightnessCap imm | readReg imm =>
    refine decode_encode_append rfl rfl rfl (headerWord_and_immMask _ imm) ?_
    rw [buildInstr, immField_headerWord _ _ (of_decide_eq_true h)]

end Sys2Proof
end

section
/-! PROOFS. Every bit of a DMA word (R71, R72, R117, R118): O49. -/

namespace Sys2Proof.Machine

theorem getLsbD_one_shiftLeft {i : Nat} (hi : i ≤ 15) (j : Nat) : (1#16 <<< i).getLsbD j = decide (j = i) := by
  rw [← BitVec.twoPow_eq, BitVec.getLsbD_twoPow, decide_eq_true (Nat.lt_succ_of_le hi), Bool.true_and]
  exact decide_eq_decide.2 eq_comm

/-- A set adds its bit and keeps every other bit. -/
theorem getLsbD_orBit {i : Nat} (hi : i ≤ 15) (w : DmaWord) (v : Bool) (j : Nat) :
    (orBit w i v).getLsbD j = (w.getLsbD j || (v && decide (j = i))) := by
  cases v <;> simp [orBit, getLsbD_one_shiftLeft hi]

/-- An assignment determines its bit and keeps every other bit. -/
theorem getLsbD_assignBit {i : Nat} (hi : i ≤ 15) (w : DmaWord) (v : Bool) (j : Nat) :
    (assignBit w i v).getLsbD j = if j = i then v else w.getLsbD j := by
  by_cases hj : j = i
  · subst hj
    cases v <;> simp [assignBit, Nat.lt_succ_of_le hi]
  · cases v with
    | true => simp [assignBit, getLsbD_one_shiftLeft hi, hj]
    | false => simpa [assignBit, getLsbD_one_shiftLeft hi, hj] using BitVec.lt_of_getLsbD

/-- The address field holds the bits of the row pair; the bits outside it are kept (R117). -/
theorem getLsbD_addrBits {c : Config} {n : Nat} (hn : ∀ j < n, c.bitAddr0 + j ≤ 15) (y : Nat) (w : DmaWord) (i : Nat) :
    (addrBits c y w n).getLsbD i =
      if c.bitAddr0 ≤ i ∧ i < c.bitAddr0 + n then y.testBit (i - c.bitAddr0) else w.getLsbD i := by
  induction n with
  | zero => rw [addrBits, if_neg (by omega)]
  | succ n ih =>
    rw [addrBits, getLsbD_assignBit (hn n n.lt_succ_self), ih fun j hj => hn j (Nat.lt_succ_of_lt hj)]
    by_cases hi : i = c.bitAddr0 + n
    · subst hi
      simp
    · rw [if_neg hi]
      congr 1
      simp only [eq_iff_iff]
      omega

/-- The bits of a DMA word apart from the row address, each with its value, in the order of `Config.bitPositions` (R118). -/
def fixedBits (c : Config) (x : Nat) (c1 c2 : Color) (k b : Nat) : List (Nat × Bool) :=
  let q := 8 - c.K + k
  [(c.bitR1, c1.getLsbD q), (c.bitG1, c1.getLsbD (8 + q)), (c.bitB1, c1.getLsbD (16 + q)),
   (c.bitR2, c2.getLsbD q), (c.bitG2, c2.getLsbD (8 + q)), (c.bitB2, c2.getLsbD (16 + q)),
   (c.bitLat, decide (x = c.W - 1)), (c.bitOe, decide (blanked c.W x b))]

/-- Whether a bit list sets bit `i`. -/
def setsBit (bits : List (Nat × Bool)) (i : Nat) : Bool := bits.any fun p => p.2 && decide (i = p.1)

theorem setsBit_of_mem {bits : List (Nat × Bool)} (hn : (bits.map Prod.fst).Nodup) {p : Nat × Bool} (hp : p ∈ bits) :
    setsBit bits p.1 = p.2 := by
  rw [Bool.eq_iff_iff, setsBit, List.any_eq_true]
  constructor
  · rintro ⟨q, hq, hset⟩
    simp only [Bool.and_eq_true, decide_eq_true_eq] at hset
    rw [List.inj_on_of_nodup_map hn hp hq hset.2]
    exact hset.1
  · exact fun hset => ⟨p, hp, by simp [hset]⟩

theorem setsBit_of_not_mem {bits : List (Nat × Bool)} {i : Nat} (hi : i ∉ bits.map Prod.fst) : setsBit bits i = false := by
  rw [setsBit, List.any_eq_false]
  rintro q hq hset
  simp only [Bool.and_eq_true, decide_eq_true_eq] at hset
  exact hi (hset.2 ▸ List.mem_map_of_mem hq)

section
variable {c : Config} (hc : c.Valid) (y x : Nat) (c1 c2 : Color) (k b i : Nat)

theorem bitPositions_eq :
    c.bitPositions = (fixedBits c x c1 c2 k b).map Prod.fst ++ (List.range c.L).map (c.bitAddr0 + ·) := rfl

theorem mem_addrField_iff : i ∈ (List.range c.L).map (c.bitAddr0 + ·) ↔ c.bitAddr0 ≤ i ∧ i < c.bitAddr0 + c.L := by
  simp only [List.mem_map, List.mem_range]
  exact ⟨fun ⟨j, hj, he⟩ => by omega, fun h => ⟨i - c.bitAddr0, by omega, by omega⟩⟩

include hc

/-- The row-address field is apart from the other bits (R11). -/
theorem not_mem_addrField {i : Nat} (hi : i ∈ (fixedBits c x c1 c2 k b).map Prod.fst) :
    ¬(c.bitAddr0 ≤ i ∧ i < c.bitAddr0 + c.L) := by
  obtain ⟨-, -, hapart⟩ := List.nodup_append.1 hc.bits_distinct
  exact fun hin => hapart i hi i ((mem_addrField_iff i).2 hin) rfl

/-- Every bit of a DMA word: the row address in its field, the listed bits outside it (R117, R118). -/
theorem getLsbD_encodeWord :
    (encodeWord c y x c1 c2 k b).getLsbD i =
      if c.bitAddr0 ≤ i ∧ i < c.bitAddr0 + c.L then y.testBit (i - c.bitAddr0)
      else setsBit (fixedBits c x c1 c2 k b) i := by
  have hle : ∀ p ∈ c.namedPositions, p ≤ 15 := hc.named_le
  have haddr : ∀ j < c.L, c.bitAddr0 + j ≤ 15 := fun j hj => hc.bits_le _ (by simp [Config.bitPositions, hj])
  simp only [Config.namedPositions, List.forall_mem_cons] at hle
  by_cases hi : c.bitAddr0 ≤ i ∧ i < c.bitAddr0 + c.L
  · have hnot : i ∉ (fixedBits c x c1 c2 k b).map Prod.fst := fun hmem => not_mem_addrField hc x c1 c2 k b hmem hi
    simp only [fixedBits, List.map_cons, List.mem_cons, not_or] at hnot
    simp [encodeWord, getLsbD_orBit, getLsbD_addrBits haddr, hle, hi, hnot]
  · simp [encodeWord, colorBits, getLsbD_orBit, getLsbD_addrBits haddr, hle, hi, setsBit, fixedBits, Bool.or_assoc]

end

/-- Settles O49: each listed bit outside the address field has its value because all positions are distinct. -/
theorem encodedDmaWordHasExactlyItsBits : Obligations.EncodedDmaWordHasExactlyItsBits := by
  intro c y x k b c1 c2 hc w q
  obtain ⟨hdistinct, -, -⟩ := List.nodup_append.1 hc.bits_distinct
  have hword : ∀ i, w.getLsbD i = _ := getLsbD_encodeWord hc y x c1 c2 k b
  have hbit : ∀ p ∈ fixedBits c x c1 c2 k b, w.getLsbD p.1 = p.2 := fun p hp => by
    rw [hword, if_neg (not_mem_addrField hc x c1 c2 k b (List.mem_map_of_mem hp)),
      setsBit_of_mem (bits := fixedBits c x c1 c2 k b) hdistinct hp]
  simp only [fixedBits, List.forall_mem_cons] at hbit
  obtain ⟨hr1, hg1, hb1, hr2, hg2, hb2, hlat, hoe, -⟩ := hbit
  refine ⟨hr1, hg1, hb1, hr2, hg2, hb2, fun j hj => ?_, hlat, hoe, fun i hi => ?_⟩
  · rw [hword, if_pos (by omega), Nat.add_sub_cancel_left]
  · rw [bitPositions_eq x c1 c2 k b, List.mem_append, not_or, mem_addrField_iff] at hi
    rw [hword, if_neg hi.2, setsBit_of_not_mem hi.1]

end Sys2Proof.Machine
end

section
/-! PROOFS. Pixel arithmetic and gamma: the factors and channels where `sc` is exact, the two lanes of `scale`, the channels of `over`
that do not wrap (R78 to R86): O20 to O24. -/

namespace Sys2Proof.Machine

/-! ### `sc` and `scale` -/

theorem ch_le_255 (p : Pixel) (c : Channel) : ch p c ≤ 255 := Nat.le_of_lt_succ (ch_lt p c)

/-- `sc` is non-decreasing in the factor and in the channel (R80(d)). -/
theorem sc_le_sc {f f' v v' : Nat} (hf : f ≤ f') (hv : v ≤ v') : sc f v ≤ sc f' v' := by
  rw [sc_eq, sc_eq]
  exact Nat.div_le_div_right (Nat.mul_le_mul (by omega) hv)

/-- The identity at full scale (R80(a)). -/
@[simp] theorem sc_255_left (v : Nat) : sc 255 v = v := by
  rw [sc_eq]
  omega

@[simp] theorem sc_zero_right (f : Nat) : sc f 0 = 0 := by simp [sc_eq]

/-- Factor 0 leaves nothing of a channel (R80(b)). -/
theorem sc_zero_left {v : Nat} (hv : v ≤ 255) : sc 0 v = 0 := by
  rw [sc_eq]
  omega

theorem scale_255 (p : Pixel) : scale 255 p = p :=
  pixel_ext fun c => by rw [ch_scale le_rfl, sc_255_left]

theorem scale_zero_left (p : Pixel) : scale 0 p = 0 :=
  pixel_ext fun c => by rw [ch_scale (Nat.zero_le _), sc_zero_left (ch_le_255 p c), ch_zero]

/-- Settles O20: each part is a fact about `sc`, read at every channel by `ch_scale`. -/
theorem scaleProperties : Obligations.ScaleProperties := by
  refine ⟨scale_255, scale_zero_left, fun f v hf => sc_le hf v, fun f p c hf => ?_, fun f f' v v' => sc_le_sc,
    fun f p hf hp => premultiplied_scale hf hp⟩
  rw [ch_scale hf]
  exact sc_le hf _

/-! ### The two lanes of `scale` -/

/-- A channel as a digit of the pixel's number (R14). -/
theorem ch_eq_div_mod (p : Pixel) (c : Channel) : ch p c = p.toNat / 2 ^ c.lo % 256 := by
  rw [ch, BitVec.extractLsb'_toNat, Nat.shiftRight_eq_div_pow]

theorem toNat_eq_sum_ch (p : Pixel) :
    p.toNat = ch p .R + 2 ^ 8 * ch p .G + 2 ^ 16 * ch p .B + 2 ^ 24 * ch p .A := by
  have := p.isLt
  simp only [ch_eq_div_mod, Channel.lo]
  omega

theorem ch_or (p q : Pixel) (c : Channel) : ch (p ||| q) c = ch p c ||| ch q c := by
  rw [ch, BitVec.extractLsb'_or, BitVec.toNat_or, ch, ch]

theorem ch_and (p q : Pixel) (c : Channel) : ch (p &&& q) c = ch p c &&& ch q c := by
  rw [ch, BitVec.extractLsb'_and, BitVec.toNat_and, ch, ch]

/-- The mask of R79 keeps the channels R and B and clears G and A. -/
theorem ch_and_laneMask (p : Pixel) (c : Channel) :
    ch (p &&& 0x00FF00FF#32) c = (match c with | .R | .B => ch p c | .G | .A => 0) := by
  have keep : ch p c &&& 255 = ch p c := Nat.and_two_pow_sub_one_of_lt_two_pow (n := 8) (ch_lt p c)
  rw [ch_and]
  cases c
  case R | B => exact keep
  case G | A => exact Nat.and_zero _

theorem ch_shiftLeft_8 (p : Pixel) (c : Channel) :
    ch (p <<< 8) c = (match c with | .R => 0 | .G => ch p .R | .B => ch p .G | .A => ch p .B) := by
  cases c <;> simp only [ch_eq_div_mod, Channel.lo, BitVec.toNat_shiftLeft, Nat.shiftLeft_eq] <;> omega

theorem ch_shiftRight_8 (p : Pixel) (c : Channel) :
    ch (p >>> 8) c = (match c with | .R => ch p .G | .G => ch p .B | .B => ch p .A | .A => 0) := by
  have := p.isLt
  cases c <;> simp only [ch_eq_div_mod, Channel.lo, BitVec.toNat_ushiftRight, Nat.shiftRight_eq_div_pow] <;> omega

/-- The channels R and B of a pixel in their 16-bit lanes, multiplied and shifted (R79). -/
def scaledLanes (f : Nat) (p : Pixel) : Pixel := ((p &&& 0x00FF00FF#32) * BitVec.ofNat 32 (f + 1)) >>> 8

theorem scaleLanes_eq (f : Nat) (p : Pixel) :
    scaleLanes f p =
      (scaledLanes f p &&& 0x00FF00FF#32) ||| ((scaledLanes f (p >>> 8) &&& 0x00FF00FF#32) <<< 8) := rfl

/-- A product stays in its 16 bits, so no carry crosses a lane and 32 bits are enough (R79). -/
theorem toNat_scaledLanes {f : Nat} (hf : f ≤ 255) (p : Pixel) :
    (scaledLanes f p).toNat = ((f + 1) * ch p .R + 2 ^ 16 * ((f + 1) * ch p .B)) / 2 ^ 8 := by
  have hR : (f + 1) * ch p .R ≤ 256 * 255 := Nat.mul_le_mul (by omega) (ch_le_255 p .R)
  have hB : (f + 1) * ch p .B ≤ 256 * 255 := Nat.mul_le_mul (by omega) (ch_le_255 p .B)
  have hprod : (p &&& 0x00FF00FF#32).toNat * (f + 1) = (f + 1) * ch p .R + 2 ^ 16 * ((f + 1) * ch p .B) := by
    simp only [toNat_eq_sum_ch (p &&& _), ch_and_laneMask]
    ring
  rw [scaledLanes, BitVec.toNat_ushiftRight, BitVec.toNat_mul, BitVec.toNat_ofNat,
    Nat.mod_eq_of_lt (a := f + 1) (by omega), hprod, Nat.mod_eq_of_lt (by omega), Nat.shiftRight_eq_div_pow]

/-- The low byte of each lane is the scaled channel (R78, R79). -/
theorem ch_scaledLanes {f : Nat} (hf : f ≤ 255) (p : Pixel) :
    ch (scaledLanes f p) .R = sc f (ch p .R) ∧ ch (scaledLanes f p) .B = sc f (ch p .B) := by
  have hR := sc_le_sc hf (ch_le_255 p .R)
  have hB := sc_le_sc hf (ch_le_255 p .B)
  rw [sc_eq, sc_255_left] at hR hB
  rw [ch_eq_div_mod (scaledLanes f p), ch_eq_div_mod (scaledLanes f p), toNat_scaledLanes hf, sc_eq, sc_eq]
  simp only [Channel.lo]
  exact ⟨by omega, by omega⟩

/-- Settles O21: R and B come from the lanes of `p`, G and A from those of `p >>> 8`, and `ch_scaledLanes` reads both. -/
theorem laneFormOfScaleAgrees : Obligations.LaneFormOfScaleAgrees := by
  intro f p hf
  obtain ⟨hR, hB⟩ := ch_scaledLanes hf p
  obtain ⟨hG, hA⟩ := ch_scaledLanes hf (p >>> 8)
  rw [ch_shiftRight_8] at hG hA
  apply pixel_ext
  intro c
  rw [scaleLanes_eq, ch_scale hf, ch_or, ch_shiftLeft_8, ch_and_laneMask]
  cases c <;> simp only [ch_and_laneMask, hR, hG, hB, hA, Nat.or_zero, Nat.zero_or]

/-! ### `over` -/

theorem Premultiplied.ch_le_alpha {p : Pixel} (h : Premultiplied p) (c : Channel) : ch p c ≤ ch p .A := by
  obtain ⟨hR, hG, hB⟩ := h
  cases c
  case R => exact hR
  case G => exact hG
  case B => exact hB
  case A => exact le_rfl

/-- No channel of `over` wraps where the source's channel is at most its alpha: at most `255 - a` is left of the destination (R83). -/
theorem overChannel_le_255 (dst : Pixel) {src : Pixel} {c : Channel} (hs : ch src c ≤ ch src .A) :
    overChannel dst src c ≤ 255 := by
  have ha := ch_le_255 src .A
  have left : ch dst c - sc (ch src .A) (ch dst c) ≤ 255 - ch src .A := by
    simpa only [sc_255 ha] using sub_sc_mono ha (ch_le_255 dst c)
  rw [overChannel_eq]
  omega

/-- Settles O22: `overChannel_eq` gives the bounds for all pixels, `overChannel_le_255` that a premultiplied source never wraps. -/
theorem overWrapsPerChannelAndKeepsPremultiplied : Obligations.OverWrapsPerChannelAndKeepsPremultiplied := by
  refine ⟨fun dst src c => ?_, fun dst src c hs => overChannel_le_255 dst (hs.ch_le_alpha c),
    fun dst src => premultiplied_blendOver, by decide⟩
  have hsc := sc_le (ch_le_255 src .A) (ch dst c)
  have hd := ch_le_255 dst c
  have hs := ch_le_255 src c
  have hover := overChannel_eq dst src c
  exact ⟨by omega, by omega, by omega, ch_blendOver dst src c⟩

/-- An opaque source covers the destination (R84(a)). -/
theorem blendOver_opaque (dst : Pixel) {src : Pixel} (h : ch src .A = 255) : blendOver dst src = src :=
  pixel_ext fun c => by
    rw [ch_blendOver, overChannel, h, sc_255_left, Nat.add_sub_cancel_left, Nat.mod_eq_of_lt (ch_lt src c)]

theorem blendOver_zero_right (dst : Pixel) : blendOver dst 0 = dst :=
  pixel_ext fun c => by
    rw [ch_blendOver, overChannel, ch_zero, ch_zero, sc_zero_left (ch_le_255 dst c), Nat.add_zero, Nat.sub_zero,
      Nat.mod_eq_of_lt (ch_lt dst c)]

theorem blendOver_zero_left (src : Pixel) : blendOver 0 src = src :=
  pixel_ext fun c => by
    rw [ch_blendOver, overChannel, ch_zero, sc_zero_right, Nat.zero_add, Nat.sub_zero, Nat.mod_eq_of_lt (ch_lt src c)]

/-- Settles O23: the identities hold for all pixels, and the spec's pixels show that `over` neither commutes nor associates. -/
theorem overIdentities : Obligations.OverIdentities :=
  ⟨fun dst src _ _ => ⟨blendOver_opaque dst, blendOver_zero_right dst, blendOver_zero_left src⟩, by decide⟩

/-! ### Gamma -/

/-- The display colour depends on the three colour channels only (R86). -/
theorem gammaRGB_congr (c : Config) {acc acc' : Pixel} (hR : ch acc .R = ch acc' .R) (hG : ch acc .G = ch acc' .G)
    (hB : ch acc .B = ch acc' .B) : gammaRGB c acc = gammaRGB c acc' := by
  rw [gammaRGB, gammaRGB, hR, hG, hB]

/-- Settles O24: the parts of the appended bytes, and `gammaRGB_congr` for the alpha. -/
theorem gammaMapsTheColorChannelsAndDropsAlpha : Obligations.GammaMapsTheColorChannelsAndDropsAlpha := by
  refine ⟨fun c acc => ⟨?R, ?G, ?B⟩, fun c r g b a a' => gammaRGB_congr c ?_ ?_ ?_⟩
  case R =>
    rw [gammaRGB, BitVec.extractLsb'_append_eq_of_add_le (by decide), BitVec.extractLsb'_eq_self]
  case G =>
    rw [gammaRGB, BitVec.extractLsb'_append_eq_of_le (by decide), BitVec.extractLsb'_append_eq_of_add_le (by decide),
      BitVec.extractLsb'_eq_self]
  case B =>
    rw [gammaRGB, BitVec.extractLsb'_append_eq_of_le (by decide), BitVec.extractLsb'_append_eq_of_le (by decide),
      BitVec.extractLsb'_eq_self]
  all_goals rw [ch_pack, ch_pack]

end Sys2Proof.Machine
end

section
/-! PROOFS. Repeated fading (R97): every call lowers a channel that is not yet zero: O25. -/

namespace Sys2Proof.Machine

/-- A factor below full scale lowers every non-zero channel: the quotient of R78 rounds down. -/
theorem sc_lt {f v : Nat} (hf : f < 255) (hv : 0 < v) : sc f v < v := by
  rw [sc_eq, Nat.div_lt_iff_lt_mul (by decide), Nat.mul_comm v]
  exact Nat.mul_lt_mul_of_pos_right (by omega) hv

theorem iterate_sc_le {f : Nat} (hf : f < 255) (n v : Nat) : (sc f)^[n] v ≤ v - n := by
  induction n generalizing v with
  | zero => exact le_rfl
  | succ n ih =>
    have hsc : sc f v ≤ v - 1 := by
      rcases Nat.eq_zero_or_pos v with rfl | hv
      · rw [sc_zero_right]
      · exact Nat.le_sub_one_of_lt (sc_lt hf hv)
    calc (sc f)^[n + 1] v = (sc f)^[n] (sc f v) := Function.iterate_succ_apply _ _ _
      _ ≤ sc f v - n := ih _
      _ ≤ v - (n + 1) := by omega

/-- Repeated scaling treats every channel on its own (R78). -/
theorem ch_iterate_scale {f : Nat} (hf : f ≤ 255) (n : Nat) (p : Pixel) (c : Channel) :
    ch ((scale f)^[n] p) c = (sc f)^[n] (ch p c) :=
  Function.Semiconj.iterate_right (f := (ch · c)) (fun q => ch_scale hf q c) n p

/-- Opaque white under factor 10 has one step of brightness left after 72 calls (R97). -/
theorem iterate_sc_245 : (sc 245)^[72] 255 = 1 := by
  simp only [Function.iterate_succ_apply, Function.iterate_zero_apply, sc_eq, Nat.reduceAdd, Nat.reduceMul, Nat.reduceDiv]

/-- Settles O25: `sc_lt` for one call, `iterate_sc_le` for 255, and `iterate_sc_245` at every channel of opaque white. -/
theorem fadingReachesZero : Obligations.FadingReachesZero := by
  have white (c : Channel) : ch ((scale 245)^[72] 0xFFFFFFFF#32) c = 1 := by
    have h255 : ch 0xFFFFFFFF#32 c = 255 := by cases c <;> rfl
    rw [ch_iterate_scale (by decide), h255, iterate_sc_245]
  refine ⟨fun factor p c h1 _ hp => ?_, fun factor p h1 _ => pixel_ext fun c => ?_, fun h72 => ?_,
    pixel_ext fun c => ?_⟩
  · rw [ch_scale (by omega)]
    exact sc_lt (by omega) hp
  · have hle := iterate_sc_le (f := 255 - factor) (by omega) 255 (ch p c)
    rw [Nat.sub_eq_zero_of_le (ch_le_255 p c)] at hle
    rw [ch_iterate_scale (by omega), ch_zero]
    exact Nat.le_zero.1 hle
  · have hred := white .R
    rw [h72, ch_zero] at hred
    exact absurd hred (by decide)
  · rw [Function.iterate_succ_apply', ch_scale (by decide), white, ch_zero]
    decide

end Sys2Proof.Machine
end

section
/-! PROOFS. The pixel commands and `COMPOSITE` in a ready block: what each runs, the policies of R93, and the fold of the layers
(R90 to R94, R99 to R101): O29 to O32. -/

namespace Sys2Proof.Machine

variable {s t : State}

/-! ### What each command runs -/

section
variable (hr : s.initState = .ready) {l : Nat} (hl : l < s.cfg.N) {x y : Int}
include hr

theorem exec_composite {v : Color} (hv : s.compositeAt x y = some v) :
    exec (.composite x y) s = .next (s.respond .ok (v.setWidth 32)) := by
  rw [exec, execComposite, checked_pass (refusalCode_ready hr), hv, orNoValue]

include hl

theorem exec_getPixel {v : Pixel} (hv : s.readPix l x y = some v) :
    exec (.getPixel l x y) s = .next (s.respond .ok v) := by
  rw [exec, execGetPixel, layerOk_of_lt hl, checked_pass (refusalCode_ready hr), hv, orNoValue]

theorem exec_setPixel_inside (color : Pixel) (hb : inb s.cfg x y) :
    exec (.setPixel l x y color) s = .next ((s.writeLayer l (idx s.cfg x y) color).respond .ok 0) := by
  rw [exec, execSetPixel, layerOk_of_lt hl, checked_pass (refusalCode_ready hr), if_pos hb]

theorem exec_setPixel_outside (color : Pixel) (hb : ¬inb s.cfg x y) :
    exec (.setPixel l x y color) s = .next (s.respond .ok 0) := by
  rw [exec, execSetPixel, layerOk_of_lt hl, checked_pass (refusalCode_ready hr), if_neg hb]

theorem exec_setPixelOver_inside (color : Pixel) (hb : inb s.cfg x y) {p : Pixel}
    (hp : s.readLayer l (idx s.cfg x y) = some p) :
    exec (.setPixelOver l x y color) s =
      .next ((s.writeLayer l (idx s.cfg x y) (blendOver p color)).respond .ok 0) := by
  rw [exec, execSetPixelOver, layerOk_of_lt hl, checked_pass (refusalCode_ready hr), if_pos hb, hp, orNoValue]

theorem exec_setPixelOver_outside (color : Pixel) (hb : ¬inb s.cfg x y) :
    exec (.setPixelOver l x y color) s = .next (s.respond .ok 0) := by
  rw [exec, execSetPixelOver, layerOk_of_lt hl, checked_pass (refusalCode_ready hr), if_neg hb]

end

/-! ### `SET_PIXEL` and `SET_PIXEL_OVER` -/

/-- A write that ends its command: its frame, its response, and the layers element by element (R47, R70). -/
theorem writeLayer_respond_spec (hw : s.layer.wf) (l i : Nat) (v : Pixel) (code : Code) (data : BitVec 32)
    (ht : t = (s.writeLayer l i v).respond code data) :
    t = { s with layer := t.layer, ports := t.ports } ∧ Responded s t code data ∧
      ∀ a, t.layer.read a = if a = layerAddr s.cfg l i then some v else s.layer.read a := by
  subst ht
  exact ⟨rfl, rfl, fun a => read_write _ hw _ _ _⟩

/-- Settles O29, by whether the pixel is in bounds. -/
theorem setPixelWritesTheElementInBounds : Obligations.SetPixelWritesTheElementInBounds := by
  intro s l x y color hr hl hw
  by_cases hb : inb s.cfg x y
  · obtain ⟨hframe, hport, hread⟩ := writeLayer_respond_spec hw l (idx s.cfg x y) color .ok 0 rfl
    exact ⟨_, exec_setPixel_inside hr hl color hb, hframe, hport, fun _ => hread, fun hn => absurd hb hn⟩
  · exact ⟨_, exec_setPixel_outside hr hl color hb, rfl, rfl, fun h => absurd h hb, fun _ _ => rfl⟩

/-- Settles O30, by whether the pixel is in bounds. -/
theorem setPixelOverBlendsTheElementInBounds : Obligations.SetPixelOverBlendsTheElementInBounds :=
  fun _ _ _ _ color hr hl hw =>
    ⟨fun _ hb hp => ⟨_, exec_setPixelOver_inside hr hl color hb hp, writeLayer_respond_spec hw _ _ _ _ _ rfl⟩,
      fun hb => ⟨_, exec_setPixelOver_outside hr hl color hb, rfl, rfl⟩⟩

/-! ### `GET_PIXEL` -/

theorem readPix_inside {l : Nat} {x y : Int} (hb : inb s.cfg x y) :
    s.readPix l x y = s.readLayer l (x.toNat + y.toNat * s.cfg.W) := if_pos hb

section
variable {l : Nat} {x y : Int} (hb : ¬inb s.cfg x y)
include hb

theorem readPix_zero (ho : s.cfg.oob = .zero) : s.readPix l x y = some 0 := by
  rw [State.readPix, if_neg hb, ho]

theorem readPix_wrap (ho : s.cfg.oob = .wrap) :
    s.readPix l x y = s.readLayer l (idx s.cfg (wrapCoord s.cfg.W x) (wrapCoord s.cfg.H y)) := by
  rw [State.readPix, if_neg hb, ho]

theorem readPix_clamp (ho : s.cfg.oob = .clamp) :
    s.readPix l x y = s.readLayer l (idx s.cfg (clampCoord s.cfg.W x) (clampCoord s.cfg.H y)) := by
  rw [State.readPix, if_neg hb, ho]

end

/-- The mask of the `WRAP` policy is the remainder, for a size that is a power of two below `2^16` (R13, R93). -/
theorem wrapCoord_eq_emod {n : Nat} (hn : ∃ a, n = 2 ^ a) (hlt : n < 2 ^ 16) (v : Int) : wrapCoord n v = v % n := by
  obtain ⟨a, rfl⟩ := hn
  have hdvd : ((2 ^ a : Nat) : Int) ∣ ((2 ^ 16 : Nat) : Int) :=
    Int.natCast_dvd_natCast.2 (Nat.pow_dvd_pow 2 ((Nat.pow_lt_pow_iff_right (by decide)).1 hlt).le)
  have hnonneg : 0 ≤ v % ((2 ^ 16 : Nat) : Int) := Int.emod_nonneg _ (by decide)
  rw [wrapCoord, BitVec.toNat_and, BitVec.toNat_ofNat, Nat.mod_eq_of_lt (by omega), Nat.and_two_pow_sub_one_eq_mod,
    BitVec.toNat_ofInt, Int.natCast_emod, Int.toNat_of_nonneg hnonneg, Int.emod_emod_of_dvd _ hdvd]

/-- Settles O31: the invariant gives the value read, and the lemma on `readPix` for the case says where it stands. -/
theorem getPixelReadsByThePolicy : Obligations.GetPixelReadsByThePolicy := by
  intro s l x y hs hr hl _ _
  have hc := hs.cfg_valid
  obtain ⟨v, hv⟩ := readPix_some hs hr hl x y
  refine ⟨_, v, exec_getPixel hr hl hv, rfl, rfl, fun hb => ?inside, fun hb ho => ?zero, fun hb ho => ?wrap,
    fun hb ho => ?clamp⟩
  case inside => rwa [readPix_inside hb] at hv
  case zero =>
    rw [readPix_zero hb ho] at hv
    exact (Option.some.inj hv).symm
  case wrap =>
    obtain ⟨hW, hH⟩ := hc.wrap_pow2 ho
    have hWlt := hc.w_le
    have hHlt := hc.h_le
    rwa [readPix_wrap hb ho, wrapCoord_eq_emod hW (by omega), wrapCoord_eq_emod hH (by omega)] at hv
  case clamp => rwa [readPix_clamp hb ho] at hv

/-! ### `COMPOSITE` -/

/-- The recursion of the model is the fold over the layers in their order (R99). -/
theorem accUpTo_eq_foldl {x y : Int} {f : Nat → Pixel} (n : Nat) (hf : ∀ l < n, s.readPix l x y = some (f l)) :
    s.accUpTo x y n = some ((List.range n).foldl (fun acc l => blendOver acc (f l)) 0) := by
  induction n with
  | zero => rfl
  | succ n ih =>
    rw [State.accUpTo, ih fun l hl => hf l (by omega), hf n (by omega), List.range_succ, List.foldl_append]
    rfl

/-- Transparent layers leave the accumulator (R84(b), R99). -/
theorem foldl_blendOver_transparent {f : Nat → Pixel} {ls : List Nat} (hf : ∀ l ∈ ls, f l = 0) (acc : Pixel) :
    ls.foldl (fun acc l => blendOver acc (f l)) acc = acc := by
  induction ls with
  | nil => rfl
  | cons l ls ih =>
    rw [List.foldl_cons, hf l List.mem_cons_self, blendOver_zero_right, ih fun k hk => hf k (List.mem_cons_of_mem _ hk)]

/-- Every admitted gamma table shows transparent black as black (R8, R86). -/
theorem gammaRGB_zero {c : Config} (h : c.Valid) : gammaRGB c 0 = 0 := by
  simp only [gammaRGB, ch_zero, gammaAt, h.gamma_zero]
  rfl

/-- Settles O32: the invariant gives every layer's pixel, and `accUpTo_eq_foldl` the colour; transparent layers fold to 0. -/
theorem compositeRespondsTheDisplayColor : Obligations.CompositeRespondsTheDisplayColor := by
  intro s x y hs hr _ _
  choose! f hf using fun l (hl : l < s.cfg.N) => readPix_some hs hr hl x y
  have hcolor : s.compositeAt x y =
      some (gammaRGB s.cfg ((List.range s.cfg.N).foldl (fun acc l => blendOver acc (f l)) 0)) := by
    rw [State.compositeAt, State.accAt, accUpTo_eq_foldl _ hf, Option.map_some]
  refine ⟨_, f, exec_composite hr hcolor, rfl, hf, rfl, fun h0 => ?_⟩
  rw [foldl_blendOver_transparent fun l hl => h0 l (List.mem_range.1 hl), gammaRGB_zero hs.cfg_valid]
  rfl

end Sys2Proof.Machine
end

section
/-! PROOFS. One step of each barrier command: what it answers, the flags it sets and clears, and all it leaves (R102 to R107,
R111): O39 to O42. -/

namespace Sys2Proof.Machine

variable {s : State}

/-! ### What each command runs -/

/-- A command that tries the barrier: its first step passes its checks, or it is held and not checked again (R136). -/
abbrev TriesBarrier (s : State) : Prop :=
  (s.actorState = .idle ∧ s.initState ≠ .fatal) ∨ ∃ i c, s.actorState = .held i c

theorem exec_startDrawing {l : Nat} (hl : l < s.cfg.N) (ht : TriesBarrier s) :
    exec (.startDrawing l) s = tryStartDrawing l s := by
  obtain ⟨hst, hi⟩ | ⟨i, c, hst⟩ := ht
  · exact exec_startDrawing_idle hi hl hst
  · rw [exec, execStartDrawing, hst]

theorem exec_waitDrawingDone (ht : TriesBarrier s) : exec .waitDrawingDone s = tryWaitDrawingDone s := by
  obtain ⟨hst, hi⟩ | ⟨i, c, hst⟩ := ht
  · rw [exec, execWaitDrawingDone, hst]
    exact checked_pass (refusalCode_notFatal hi)
  · rw [exec, execWaitDrawingDone, hst]

theorem exec_doneDrawing (hi : s.initState ≠ .fatal) {l : Nat} (hl : l < s.cfg.N) :
    exec (.doneDrawing l) s = .next ((s.setDone l true).respond .ok 0) := by
  rw [exec, execDoneDrawing, layerOk_of_lt hl, checked_pass (refusalCode_notFatal hi)]

theorem exec_doneUpdating (hi : s.initState ≠ .fatal) : exec .doneUpdating s = .next (s.releaseAll.respond .ok 0) := by
  rw [exec, execDoneUpdating, checked_pass (refusalCode_notFatal hi)]

/-! ### `START_DRAWING` and `WAIT_DRAWING_DONE` after their checks -/

theorem tryStartDrawing_drawable {l : Nat} (hd : s.drawableAt l = true) :
    tryStartDrawing l s = .next ((s.setDrawable l false).respond .ok 0) := if_pos hd

section
variable {l : Nat} (hd : s.drawableAt l = false)
include hd

theorem tryStartDrawing_timeout (ha : s.alt = true) : tryStartDrawing l s = .next (s.respond .timeout 0) := by
  rw [tryStartDrawing, hd, if_neg nofun, if_pos ha]

theorem tryStartDrawing_hold (ha : s.alt = false) :
    tryStartDrawing l s = .next (s.hold (.startDrawing l) (.drawable l)) := by
  rw [tryStartDrawing, hd, if_neg nofun, ha, if_neg nofun]

end

theorem allDone_eq_false (h : ∃ l < s.cfg.N, s.doneAt l = false) : s.allDone = false := by
  obtain ⟨l, hl, hf⟩ := h
  rw [← Bool.not_eq_true, allDone_iff]
  exact fun hall => nomatch hf.symm.trans (hall l hl)

/-- The state that a wait ended with a response leaves: only `DONE` and the port can differ (R105, R106). -/
theorem endWait_respond_eq (b : Bool) (code : Code) (data : BitVec 32) : (s.endWait b).respond code data =
    { s with
      done := if b = false ∨ s.cfg.wddClear = true then List.replicate s.cfg.N false else s.done
      ports := s.ports.modify s.actor fun q => q.respond code data } := by
  rw [endWait_eq, endWait_done_eq]
  rfl

theorem tryWaitDrawingDone_done (hd : s.allDone = true) :
    tryWaitDrawingDone s = .next ((s.endWait false).respond .ok 0) := if_pos hd

section
variable (hd : s.allDone = false)
include hd

theorem tryWaitDrawingDone_timeout (ha : s.alt = true) :
    tryWaitDrawingDone s = .next ((s.endWait true).respond .timeout 0) := by
  rw [tryWaitDrawingDone, hd, if_neg nofun, if_pos ha]

theorem tryWaitDrawingDone_hold (ha : s.alt = false) :
    tryWaitDrawingDone s = .next (s.hold .waitDrawingDone .allDone) := by
  rw [tryWaitDrawingDone, hd, if_neg nofun, ha, if_neg nofun]

end

/-! ### The commands -/

/-- Settles O39: past its checks the command takes the layer, times out or holds, as `tryStartDrawing` does. -/
theorem startDrawingTakesTheLayerOrWaits : Obligations.StartDrawingTakesTheLayerOrWaits := by
  intro s l hl ht
  rw [exec_startDrawing hl ht]
  refine ⟨fun hd => ?drawable, fun hd ha => ?timeout, fun hd ha => ?hold⟩
  case drawable => exact ⟨_, tryStartDrawing_drawable hd, rfl, rfl, fun l' => flagAt_set s.drawable l l' false (.inr rfl)⟩
  case timeout => exact ⟨_, tryStartDrawing_timeout hd ha, rfl, rfl⟩
  case hold => exact ⟨_, tryStartDrawing_hold hd ha, rfl, rfl⟩

/-- Settles O41: past its checks the command tests every flag, and `endWait_respond_eq` says what the end of its wait clears. -/
theorem waitDrawingDoneTestsAndClears : Obligations.WaitDrawingDoneTestsAndClears := by
  intro s ht
  rw [exec_waitDrawingDone ht]
  refine ⟨fun hd => ?done, fun hd ha => ?timeout, fun hd ha => ?hold⟩
  case done =>
    rw [tryWaitDrawingDone_done (allDone_iff.2 hd), endWait_respond_eq, if_pos (.inl rfl)]
    exact ⟨_, rfl, rfl, rfl, fun l hl => flagAt_replicate false hl⟩
  case timeout =>
    rw [tryWaitDrawingDone_timeout (allDone_eq_false hd) ha, endWait_respond_eq]
    refine ⟨_, rfl, rfl, rfl, fun hc l hl => ?clears, fun hc => ?keeps⟩
    case clears => simpa only [State.doneAt, hc, or_true, if_true] using flagAt_replicate false hl
    case keeps => exact if_neg (by rw [hc]; decide)
  case hold => exact ⟨_, tryWaitDrawingDone_hold (allDone_eq_false hd) ha, rfl, rfl⟩

/-- Settles O40: the layer's flag is in its row, so setting it shows. -/
theorem doneDrawingSetsTheDoneFlag : Obligations.DoneDrawingSetsTheDoneFlag := by
  intro s l hl hi hlen
  exact ⟨_, exec_doneDrawing hi hl, rfl, rfl, fun l' => flagAt_set s.done l l' true (.inl (hlen ▸ hl))⟩

/-- Settles O42: `DRAWABLE` becomes a row of ones as long as there are layers. -/
theorem doneUpdatingReleasesEveryLayer : Obligations.DoneUpdatingReleasesEveryLayer := by
  intro s hi
  exact ⟨_, exec_doneUpdating hi, rfl, rfl, fun l hl => flagAt_replicate true hl⟩

end Sys2Proof.Machine
end

section
/-! PROOFS. The OE window (R116), and one step of each command of the panel driver: `INIT` and the port's steps of `UPDATE_FRAME`
(R114, R118, R120, R124, R126): O48, O50, O52. -/

namespace Sys2Proof.Machine

variable {s : State}

/-! ### The OE window -/

/-- How many of the first `n` columns a window of `b` columns from `a` on holds. -/
theorem length_filter_window (a b n : Nat) :
    ((List.range n).filter fun x => decide (a ≤ x ∧ x < a + b)).length = min (n - a) b := by
  induction n with
  | zero => simp
  | succ n ih =>
    rw [List.range_succ, List.filter_append, List.length_append, ih]
    by_cases hn : a ≤ n ∧ n < a + b
    · simp only [List.filter_singleton, decide_eq_true hn, cond_true, List.length_singleton]
      omega
    · simp only [List.filter_singleton, decide_eq_false hn, cond_false, List.length_nil]
      omega

/-- Settles O48: `oeStop` is `oeStart` and `b` columns more, and `length_filter_window` counts the lit columns. -/
theorem oeWindowIsCentredAndAsWideAsTheBrightness : Obligations.OeWindowIsCentredAndAsWideAsTheBrightness := by
  intro W b hb
  have hstart : oeStart W b = (W - b) / 2 := rfl
  have hstop : oeStop W b = oeStart W b + b := rfl
  refine ⟨hstart, hstop, fun _ => Iff.rfl, ?_, by omega, by omega, fun hW hb2 => ?_, fun h0 x => ?_⟩
  · simp only [blanked, not_not, hstop, length_filter_window]
    omega
  · simp only [blanked]
    omega
  · simp only [blanked]
    omega

/-! ### `INIT` -/

section
variable (hu : s.initState = .uninit) (b : Nat)
include hu

theorem exec_init_ok (hf : ¬(s.cfg.allocCanFail = true ∧ s.alt = true)) :
    exec (.init b) s = .next ((s.initialised b).respond .ok 0) := by
  rw [exec, execInit, checked_pass (refusalCode_uninit hu), if_neg hf]

theorem exec_init_fails (hf : s.cfg.allocCanFail = true ∧ s.alt = true) :
    exec (.init b) s = .next (({ s with initState := .fatal } : State).respond .fatal 0) := by
  rw [exec, execInit, checked_pass (refusalCode_uninit hu), if_pos hf]

end

theorem readLayer_initialised (b : Nat) {l i : Nat} (hl : l < s.cfg.N) (hi : i < s.cfg.pixels) :
    (s.initialised b).readLayer l i = some 0 :=
  (read_filled _ _ _).trans (if_pos (layerAddr_lt hl hi))

/-- The element of plane `k` at word `j` is blanked as black at the word's row pair and column (R118, R120). -/
theorem blankWord_planeAddr {c : Config} (b k : Nat) {j : Nat} (hj : j < c.planeWords) :
    blankWord c b (planeAddr c k j) = encodeWord c (j / c.W) (j % c.W) 0 0 k b := by
  have hplane : planeAddr c k j / c.planeWords = k := by
    rw [planeAddr, Nat.mul_comm, Nat.mul_add_div (Nat.zero_lt_of_lt hj), Nat.div_eq_of_lt hj, Nat.add_zero]
  have hword : planeAddr c k j % c.planeWords = j := by
    rw [planeAddr, Nat.mul_comm, Nat.mul_add_mod, Nat.mod_eq_of_lt hj]
  rw [blankWord, hplane, hword]

theorem readPlane_initialised (b : Nat) {k j : Nat} (hk : k < s.cfg.K) (hj : j < s.cfg.planeWords) :
    (s.initialised b).readPlane k j =
      some (encodeWord s.cfg (j / s.cfg.W) (j % s.cfg.W) 0 0 k (clampBrightness s.cfg b).toNat) :=
  (read_filled _ _ _).trans ((if_pos (planeAddr_lt hk hj)).trans (congrArg some (blankWord_planeAddr _ k hj)))

/-- Settles O50: `readLayer_initialised` and `readPlane_initialised` for a successful `INIT`; the width of an admitted
configuration keeps the clamped values in their registers. -/
theorem initBuildsTheBlockOrFails : Obligations.InitBuildsTheBlockOrFails := by
  intro s b hv hu
  have hbrightness := clampBrightness_toNat hv b
  have hW := hv.w_le
  refine ⟨fun hf => ⟨_, exec_init_ok hu b hf, rfl, hbrightness, toNat_ofNat_of_lt (by omega),
    fun l hl i hi => readLayer_initialised b hl hi, fun k hk j hj => ?_, rfl⟩,
    fun ha hf => ⟨_, exec_init_fails hu b ⟨ha, hf⟩, rfl, rfl⟩⟩
  rw [← hbrightness]
  exact readPlane_initialised b hk hj

/-! ### The port's steps of `UPDATE_FRAME` -/

/-- The first step of `UPDATE_FRAME` in a ready block, and a step held for the sequencer, try to acquire it (R126, R136). -/
theorem exec_updateFrame_acquire
    (ht : (s.actorState = .idle ∧ s.initState = .ready) ∨ ∃ i, s.actorState = .held i .seqFree) :
    exec .updateFrame s = tryAcquire s := by
  obtain ⟨hst, hr⟩ | ⟨i, hst⟩ := ht
  · rw [exec, execUpdateFrame, hst]
    exact checked_pass (refusalCode_ready hr)
  · rw [exec, execUpdateFrame, hst]

theorem exec_updateFrame_wait (ht : ∃ i, s.actorState = .held i .allDone) : exec .updateFrame s = tryFrameWait s := by
  obtain ⟨i, hst⟩ := ht
  rw [exec, execUpdateFrame, hst]

theorem tryFrameWait_hold (hd : s.allDone = false) (ha : s.alt = false) :
    tryFrameWait s = .next (s.hold .updateFrame .allDone) := by
  rw [tryFrameWait, hd, if_neg nofun, ha, if_neg nofun]

/-- Settles O52: `tryAcquire` by the sequencer's owner, and `tryFrameWait` by the layers' flags and the open choice;
`frameWaitDone_eq` and `endWait_done_eq` say what the completing step leaves. -/
theorem updateFrameAcquiresThenWaits : Obligations.UpdateFrameAcquiresThenWaits := by
  intro s
  refine ⟨fun ht => ?acquire, fun ht => ?wait⟩
  case acquire =>
    rw [exec_updateFrame_acquire ht]
    exact ⟨fun ho => ⟨_, if_pos ho, rfl, rfl⟩, fun ho => ⟨_, if_neg ho, rfl, rfl⟩⟩
  case wait =>
    rw [exec_updateFrame_wait ht]
    refine ⟨fun hd => ?done, fun hd ha => ?timeout, fun hd ha => ?hold⟩
    case done =>
      have hall := allDone_iff.2 hd
      rw [tryFrameWait_ends (.inl hall), hall, frameWaitDone_eq, endWait_done_eq, if_pos (.inl rfl)]
      exact ⟨_, rfl, rfl, fun l hl => flagAt_replicate false hl, rfl⟩
    case timeout =>
      rw [tryFrameWait_ends (.inr ha), allDone_eq_false hd, frameWaitDone_eq, endWait_done_eq]
      refine ⟨_, rfl, rfl, fun hc l hl => ?clears, fun hc => ?keeps, rfl⟩
      case clears => simpa only [State.doneAt, hc, or_true, if_true] using flagAt_replicate false hl
      case keeps => exact if_neg (by rw [hc]; decide)
    case hold => exact ⟨_, tryFrameWait_hold (allDone_eq_false hd) ha, rfl, rfl⟩

end Sys2Proof.Machine
end

section
/-! PROOFS. One step of the sequencer: the words of a position, the next position, and the release (R118, R119, R124, R125): O53. -/

namespace Sys2Proof.Machine

variable {s : State} {p : Nat}

/-! ### The plane words -/

theorem wf_writePlanes (hw : s.plane.wf) (y x : Nat) (c1 c2 : Color) (n : Nat) : (s.writePlanes y x c1 c2 n).plane.wf := by
  induction n with
  | zero => exact hw
  | succ n ih => exact wf_write ih _ _

/-- The writes of a position reach its word in the planes written, and no other element (R47, R124). -/
theorem read_writePlanes_frame (hw : s.plane.wf) (y x : Nat) (c1 c2 : Color) {n a : Nat}
    (ha : ∀ k < n, a ≠ planeAddr s.cfg k (y * s.cfg.W + x)) :
    (s.writePlanes y x c1 c2 n).plane.read a = s.plane.read a := by
  induction n with
  | zero => rfl
  | succ n ih =>
    rw [State.writePlanes, writePlane_plane, writePlanes_cfg, read_write _ (wf_writePlanes hw y x c1 c2 n),
      if_neg (ha n n.lt_succ_self), ih fun k hk => ha k (Nat.lt_succ_of_lt hk)]

/-! ### The next position -/

theorem nextPosition_column (hx : s.seqX + 1 < s.cfg.W) : s.nextPosition = { s with seqX := s.seqX + 1 } := if_pos hx

section
variable (hx : s.seqX + 1 = s.cfg.W)
include hx

theorem nextPosition_row (hy : s.seqY + 1 < s.cfg.half) : s.nextPosition = { s with seqX := 0, seqY := s.seqY + 1 } :=
  (if_neg (Nat.not_lt.2 hx.ge)).trans (if_pos hy)

theorem nextPosition_release (hy : s.seqY + 1 = s.cfg.half) :
    s.nextPosition = { s with seqX := 0, seqY := 0, seqPhase := .release } :=
  (if_neg (Nat.not_lt.2 hx.ge)).trans (if_neg (Nat.not_lt.2 hy.ge))

end

/-! ### The sequencer's steps -/

/-- An encode step writes the words of its position, moves on, and sets the owner's progress (R124). -/
theorem sequencerStep_encode_eq {c1 c2 : Color} (ho : s.seqOwner = some p) (hp : s.seqPhase = .encode)
    (h1 : s.compositeAt s.seqX s.seqY = some c1) (h2 : s.compositeAt s.seqX (s.seqY + s.cfg.half : Nat) = some c2) :
    sequencerStep s = .next { s with
      plane := (s.writePlanes s.seqY s.seqX c1 c2 s.cfg.K).plane
      seqX := s.nextPosition.seqX, seqY := s.nextPosition.seqY, seqPhase := s.nextPosition.seqPhase
      ports := s.ports.modify p fun q => { q with st := .exec .updateFrame (s.seqY * s.cfg.W + s.seqX + 1) 0 } } := by
  have hmoved (m : Memory 16) : ({ s with plane := m } : State).nextPosition = { s with
      plane := m, seqX := s.nextPosition.seqX, seqY := s.nextPosition.seqY, seqPhase := s.nextPosition.seqPhase } := by
    unfold State.nextPosition
    split_ifs <;> rfl
  have hstep : sequencerStep s = .next ((s.writePlanes s.seqY s.seqX c1 c2 s.cfg.K).nextPosition.execOn p .updateFrame
      (s.seqY * s.cfg.W + s.seqX + 1) 0) := by
    simp only [sequencerStep, ho, hp, encodeStep, h1, h2, orNoValue]
  rw [hstep, writePlanes_eq, hmoved]
  rfl

/-- Settles O53: `sequencerStep_encode_eq` and the lemmas on what it writes and where it moves, or `sequencerStep_release`; the
invariant gives the display colours and the word's place in its plane. -/
theorem sequencerEncodesOnePositionAndReleases : Obligations.SequencerEncodesOnePositionAndReleases := by
  intro s p hs ho
  have hr := (hs.owner_ok p ho).1
  refine ⟨fun hp => ?encode, fun hp => ?release⟩
  case encode =>
    obtain ⟨c1, h1⟩ := compositeAt_some hs hr s.seqX s.seqY
    obtain ⟨c2, h2⟩ := compositeAt_some hs hr s.seqX (s.seqY + s.cfg.half : Nat)
    have hpos := position_lt hs.cfg_valid hs.seq_y_lt hs.seq_x_lt
    refine ⟨_, c1, c2, sequencerStep_encode_eq ho hp h1 h2, h1, h2, rfl, fun k hk => ?words,
      fun a ha => read_writePlanes_frame hs.plane_wf _ _ c1 c2 ha, rfl, fun hx => ?column, fun hx hy => ?row,
      fun hx hy => ?last⟩
    case words =>
      have hread := readPlane_writePlanes hs.plane_wf hpos hpos c1 c2 s.cfg.K k
      rw [State.readPlane, writePlanes_cfg, if_pos ⟨hk, rfl⟩] at hread
      exact hread
    case column =>
      rw [nextPosition_column hx]
      exact ⟨rfl, rfl, hp⟩
    case row =>
      rw [nextPosition_row hx hy]
      exact ⟨rfl, rfl, hp⟩
    case last => rw [nextPosition_release hx hy]
  case release => exact ⟨_, sequencerStep_release ho hp, rfl, fun l hl => flagAt_replicate true hl, rfl⟩

end Sys2Proof.Machine
end

section
/-! PROOFS. One step of the DMA engine, and a whole period of its steps (R114, R128, R129, R133): O57, O58. -/

namespace Sys2Proof.Machine

variable {s v : State}

/-! ### One word -/

theorem dmaStep_stopped (hd : s.dmaRun = false) : dmaStep s = .next s := by
  rw [dmaStep, hd, if_neg nofun]

theorem dmaStep_word {k : Nat} {w : DmaWord} (hd : s.dmaRun = true) (hk : s.sched[s.dmaSlot]? = some k)
    (hw : s.readPlane k s.dmaIdx = some w) : dmaStep s = .next (s.emit w).advanceDma := by
  rw [dmaStep, if_pos hd, hk, orNoValue, hw, orNoValue]

/-- In a ready block the engine finds a plane in its slot and a word at its index (R115, R134). -/
theorem dmaWord_some (h : BlockInv s) (hr : s.initState = .ready) :
    ∃ k w, s.sched[s.dmaSlot]? = some k ∧ s.readPlane k s.dmaIdx = some w := by
  obtain ⟨k, hk, hkK⟩ := sched_slot_some h hr
  obtain ⟨w, hw⟩ := Option.isSome_iff_exists.1 (h.plane_full hr k hkK _ h.idx_lt)
  exact ⟨k, w, hk, hw⟩

/-- Settles O57: `dmaStep_word` with the word that `dmaWord_some` finds, and `advanceDma_emit` for the position. -/
theorem dmaStepEmitsAndAdvances : Obligations.DmaStepEmitsAndAdvances := by
  intro s hs
  refine ⟨dmaStep_stopped, fun hd => ?_⟩
  obtain ⟨k, w, hk, hw⟩ := dmaWord_some hs (ready_of_dmaRun hs hd)
  have hlast : s.dmaIdx = s.cfg.W * s.cfg.H / 2 - 1 ↔ s.dmaIdx + 1 = s.cfg.planeWords := by
    have hpos : 0 < s.cfg.W * s.cfg.H / 2 := planeWords_pos hs.cfg_valid
    rw [Config.planeWords]
    omega
  refine ⟨k, w, hk, hw, ?_⟩
  rw [dmaStep_word hd hk hw, advanceDma_emit]
  simp only [hlast]
  rfl

/-! ### One period -/

/-- The word that the engine emits in slot `slot` at index `j` (R128). -/
def State.slotWord (s : State) (slot j : Nat) : DmaWord := (s.sched[slot]?.bind fun k => s.readPlane k j).getD 0

/-- The first `i` words from slot 0, index 0 on (R128). -/
def State.periodWords (s : State) (i : Nat) : List DmaWord :=
  (List.range i).map fun m => s.slotWord (m / s.cfg.planeWords) (m % s.cfg.planeWords)

/-- `s` after `i` words from slot 0, index 0 on. -/
def State.played (s : State) (i : Nat) : State :=
  { s with
    bus := s.bus ++ s.periodWords i
    dmaSlot := i / s.cfg.planeWords % s.cfg.slots
    dmaIdx := i % s.cfg.planeWords }

theorem slotWord_spec (h : BlockInv s) (hr : s.initState = .ready) {slot j : Nat} (hslot : slot < s.cfg.slots)
    (hj : j < s.cfg.planeWords) : ∃ k, s.sched[slot]? = some k ∧ s.readPlane k j = some (s.slotWord slot j) := by
  have hat : BlockInv { s with dmaSlot := slot, dmaIdx := j } := { h with slot_lt := hslot, idx_lt := hj }
  obtain ⟨k, w, hk, hw⟩ := dmaWord_some hat hr
  have hword : s.slotWord slot j = w := by
    rw [State.slotWord, hk, Option.bind_some]
    exact congrArg (·.getD 0) hw
  exact ⟨k, hk, hword ▸ hw⟩

theorem periodWords_succ (s : State) (i : Nat) :
    s.periodWords (i + 1) = s.periodWords i ++ [s.slotWord (i / s.cfg.planeWords) (i % s.cfg.planeWords)] := by
  rw [State.periodWords, List.range_succ, List.map_append]
  rfl

theorem periodWords_length (s : State) (i : Nat) : (s.periodWords i).length = i := by
  rw [State.periodWords, List.length_map, List.length_range]

/-- The words of a whole period, by slot and index (R128). -/
theorem periodWords_getElem? {slot j : Nat} (hslot : slot < s.cfg.slots) (hj : j < s.cfg.planeWords) :
    (s.periodWords (s.cfg.slots * s.cfg.planeWords))[slot * s.cfg.planeWords + j]? = some (s.slotWord slot j) := by
  have hm : slot * s.cfg.planeWords + j < s.cfg.slots * s.cfg.planeWords := by
    have := Nat.mul_le_mul_right s.cfg.planeWords (Nat.succ_le_of_lt hslot)
    rw [Nat.succ_mul] at this
    omega
  obtain ⟨hdiv, hmod⟩ := (Nat.div_mod_unique (a := slot * s.cfg.planeWords + j) (Nat.zero_lt_of_lt hj)).2
    ⟨by rw [Nat.add_comm, Nat.mul_comm], hj⟩
  rw [State.periodWords, List.getElem?_map, List.getElem?_range hm, Option.map_some, hdiv, hmod]

/-- The next quotient and remainder, by whether the remainder is the last one. -/
theorem succ_div_mod {n : Nat} (hn : 0 < n) (i : Nat) :
    (i + 1) / n = (if i % n + 1 = n then i / n + 1 else i / n) ∧ (i + 1) % n = if i % n + 1 = n then 0 else i % n + 1 := by
  have hi := Nat.mod_add_div i n
  have hlt := Nat.mod_lt i hn
  rw [Nat.div_mod_unique hn]
  split_ifs with hlast
  · rw [Nat.mul_add_one]
    omega
  · omega

/-- One word emitted and the position advanced is one word more of the period (R128). -/
theorem advanceDma_emit_played (hv : s.cfg.Valid) (i : Nat) :
    ((s.played i).emit (s.slotWord (i / s.cfg.planeWords) (i % s.cfg.planeWords))).advanceDma = s.played (i + 1) := by
  obtain ⟨hdiv, hmod⟩ := succ_div_mod (planeWords_pos hv) i
  rw [advanceDma_emit, State.played, State.played, periodWords_succ, hdiv, hmod, List.append_assoc]
  split_ifs <;> simp

theorem dmaStep_played (h : BlockInv s) (hd : s.dmaRun = true) {i : Nat} (hi : i < s.cfg.slots * s.cfg.planeWords) :
    dmaStep (s.played i) = .next (s.played (i + 1)) := by
  have hslot : i / s.cfg.planeWords < s.cfg.slots := (Nat.div_lt_iff_lt_mul (planeWords_pos h.cfg_valid)).2 hi
  obtain ⟨k, hk, hw⟩ := slotWord_spec h (ready_of_dmaRun h hd) hslot (Nat.mod_lt i (planeWords_pos h.cfg_valid))
  rw [← advanceDma_emit_played h.cfg_valid]
  refine dmaStep_word hd ?_ hw
  rw [← hk]
  exact congrArg (s.sched[·]?) (Nat.mod_eq_of_lt hslot)

section
variable (hslot : s.dmaSlot = 0) (hidx : s.dmaIdx = 0)
include hslot hidx

theorem played_zero : s.played 0 = s := by
  have hbus : s.bus ++ s.periodWords 0 = s.bus := List.append_nil _
  rw [State.played, hbus, Nat.zero_div, Nat.zero_mod, Nat.zero_mod]
  cases s
  cases hslot
  cases hidx
  rfl

/-- A period ends where it began (R128). -/
theorem played_period (hv : s.cfg.Valid) : s.played (s.cfg.slots * s.cfg.planeWords) =
    { s with bus := s.bus ++ s.periodWords (s.cfg.slots * s.cfg.planeWords) } := by
  rw [State.played, Nat.mul_div_cancel _ (planeWords_pos hv), Nat.mod_self, Nat.mul_mod_left]
  simp only [hslot, hidx]

end

/-- Settles O58: `dmaStep_played` for each turn of the period, and `slotWord_spec` for each of its words. -/
theorem dmaPeriodPlaysTheWholeSchedule : Obligations.DmaPeriodPlaysTheWholeSchedule := by
  intro s rest hs hd hslot hidx ha
  have hr := ready_of_dmaRun hs hd
  have hturn (i : Nat) (v : State) (rest : List Turn) (hi : i < s.cfg.slots * s.cfg.planeWords)
      (hv : v = { s.played i with agenda := v.agenda }) (hva : v.agenda = .dma :: rest) :
      ∃ t, step v = .next t ∧ t.agenda = rest ∧ t = { s.played (i + 1) with agenda := t.agenda } := by
    refine ⟨{ s.played (i + 1) with agenda := rest }, ?_, rfl, rfl⟩
    rw [step, nextTurn_cons v hva, dropTurn_cons v hva, hv]
    exact dmaStep_played (s := { s with agenda := rest }) { hs with } hd hi
  obtain ⟨t, hrun, hta, ht⟩ := run_replicate hturn (by rw [played_zero hslot hidx]) ha
  refine ⟨s.periodWords (s.cfg.slots * s.cfg.planeWords), hrun.trans ?_, periodWords_length _ _, fun slot hlt j hj => ?_⟩
  · rw [ht, hta, played_period hslot hidx hs.cfg_valid]
  · obtain ⟨k, hk, hw⟩ := slotWord_spec hs hr hlt hj
    exact ⟨k, (hs.sched_built hr).1 ▸ hk, (periodWords_getElem? hlt hj).trans hw.symm⟩

end Sys2Proof.Machine
end

section
/-! PROOFS. The BCM schedule: the greedy rule gives slot 0 and then the schedule of one plane fewer twice, each plane moved up by one,
and what follows from that by induction (R114, R115, R130): O47, O59. -/

namespace Sys2Proof.Machine

/-! ### The weights -/

/-- The weights after `n` slots of the greedy rule (R114). -/
def weightsAfter (K : Nat) : Nat → List Nat → List Nat
  | 0, ws => ws
  | n + 1, ws => weightsAfter K n (ws.modify (leastMin ws) (· + 2 ^ (K - 1 - leastMin ws)))

theorem scheduleFrom_add (K m n : Nat) (ws : List Nat) :
    scheduleFrom K (m + n) ws = scheduleFrom K m ws ++ scheduleFrom K n (weightsAfter K m ws) := by
  induction m generalizing ws with
  | zero => rw [Nat.zero_add]; rfl
  | succ m ih => rw [Nat.succ_add, scheduleFrom, scheduleFrom, ih]; rfl

theorem weightsAfter_add (K m n : Nat) (ws : List Nat) :
    weightsAfter K (m + n) ws = weightsAfter K n (weightsAfter K m ws) := by
  induction m generalizing ws with
  | zero => rw [Nat.zero_add]; rfl
  | succ m ih => rw [Nat.succ_add, weightsAfter, ih]; rfl

/-- No slot lowers a weight. -/
theorem le_getD_weightsAfter (K n : Nat) (ws : List Nat) (k : Nat) : ws.getD k 0 ≤ (weightsAfter K n ws).getD k 0 := by
  induction n generalizing ws with
  | zero => exact le_rfl
  | succ n ih =>
    refine le_trans ?_ (ih _)
    rw [List.getD_eq_getElem?_getD, List.getD_eq_getElem?_getD, List.getElem?_modify]
    cases ws[k]? with
    | none => exact Nat.zero_le _
    | some w =>
      simp only [Option.getD_some]
      split_ifs <;> simp

/-- The weight that the next slot raises is below what it is after the slots to come. -/
theorem getD_leastMin_lt (K n : Nat) {ws : List Nat} (hw : ws ≠ []) :
    ws.getD (leastMin ws) 0 < (weightsAfter K (n + 1) ws).getD (leastMin ws) 0 := by
  refine Nat.lt_of_lt_of_le ?_ (le_getD_weightsAfter K n _ _)
  have hl := leastMin_lt ws hw
  simp [List.getD_eq_getElem?_getD, hl]

/-! ### Weights moved together -/

theorem getD_map_add (c : Nat) {k : Nat} {ws : List Nat} (hk : k < ws.length) :
    (ws.map (· + c)).getD k 0 = ws.getD k 0 + c := by
  simp [List.getD_eq_getElem?_getD, hk]

theorem leastMin_map_add (c : Nat) (ws : List Nat) : leastMin (ws.map (· + c)) = leastMin ws := by
  induction ws with
  | nil => rfl
  | cons a ws ih =>
    cases ws with
    | nil => rfl
    | cons b rest =>
      have hget := getD_map_add c (leastMin_lt (b :: rest) (List.cons_ne_nil _ _))
      simp only [List.map_cons] at ih hget
      simp only [List.map_cons, leastMin, ih, hget, Nat.add_le_add_iff_right]

theorem modify_map_add (c d k : Nat) (ws : List Nat) :
    (ws.map (· + c)).modify k (· + d) = (ws.modify k (· + d)).map (· + c) := by
  refine List.ext_getElem? fun i => ?_
  simp only [List.getElem?_modify, List.getElem?_map]
  cases ws[i]? with
  | none => rfl
  | some w =>
    simp only [Option.map_some, Option.map_eq_map]
    split_ifs
    · exact congrArg some (Nat.add_right_comm w c d)
    · rfl

/-- The greedy rule compares weights, so it does not see one amount added to them all. -/
theorem scheduleFrom_map_add (K n c : Nat) (ws : List Nat) :
    scheduleFrom K n (ws.map (· + c)) = scheduleFrom K n ws ∧
      weightsAfter K n (ws.map (· + c)) = (weightsAfter K n ws).map (· + c) := by
  induction n generalizing ws with
  | zero => exact ⟨rfl, rfl⟩
  | succ n ih =>
    simp only [scheduleFrom, weightsAfter, leastMin_map_add, modify_map_add, ih, and_self]

/-! ### One plane more -/

/-- A new plane 0 that is too heavy for the others to outgrow in `n` slots has none of these slots: the rule goes on as without
it, with every plane's number one higher. -/
theorem scheduleFrom_cons (K n a : Nat) {ws : List Nat} (hw : ws ≠ [] ∨ n = 0)
    (ha : ∀ k, (weightsAfter K n ws).getD k 0 ≤ a) :
    scheduleFrom (K + 1) n (a :: ws) = (scheduleFrom K n ws).map (· + 1) ∧
      weightsAfter (K + 1) n (a :: ws) = a :: weightsAfter K n ws := by
  induction n generalizing ws with
  | zero => exact ⟨rfl, rfl⟩
  | succ n ih =>
    have hw' : ws ≠ [] := hw.resolve_right n.succ_ne_zero
    have hlt : ws.getD (leastMin ws) 0 < a := (getD_leastMin_lt K n hw').trans_le (ha _)
    have hleast : leastMin (a :: ws) = leastMin ws + 1 := by
      cases ws with
      | nil => exact absurd rfl hw'
      | cons b rest => exact if_neg (Nat.not_le.2 hlt)
    have hstep : K + 1 - 1 - (leastMin ws + 1) = K - 1 - leastMin ws := by omega
    have hnext : ws.modify (leastMin ws) (· + 2 ^ (K - 1 - leastMin ws)) ≠ [] ∨ n = 0 :=
      .inl fun he => hw' (List.length_eq_zero_iff.1 (by rw [← List.length_modify, he, List.length_nil]))
    obtain ⟨hsched, hweights⟩ := ih hnext ha
    simp only [scheduleFrom, weightsAfter, hleast, hstep, List.modify_succ_cons, hsched, hweights, List.map_cons, and_self]

theorem leastMin_zero_cons (ws : List Nat) : leastMin (0 :: ws) = 0 := by
  cases ws with
  | nil => rfl
  | cons b rest => rw [leastMin, if_pos (Nat.zero_le _)]

theorem getD_replicate_le (n a k : Nat) : (List.replicate n a).getD k 0 ≤ a := by
  rw [List.getD_eq_getElem?_getD, List.getElem?_replicate]
  split_ifs <;> simp

/-- The slots of `K + 1` planes: one of plane 0, and those of `K` planes twice. -/
theorem slots_succ (K : Nat) : 2 ^ (K + 1) - 1 = 2 ^ K - 1 + (2 ^ K - 1) + 1 := by
  have := Nat.one_le_two_pow (n := K)
  omega

/-- The schedule of one plane more (R115), given that a period of `K` planes leaves equal weights. -/
theorem buildSchedule_succ_of_equal_weights {K : Nat}
    (hK : weightsAfter K (2 ^ K - 1) (List.replicate K 0) = List.replicate K (2 ^ (K - 1))) :
    buildSchedule (K + 1) = 0 :: (buildSchedule K).map (· + 1) ++ (buildSchedule K).map (· + 1) ∧
      weightsAfter (K + 1) (2 ^ (K + 1) - 1) (List.replicate (K + 1) 0) = List.replicate (K + 1) (2 ^ K) := by
  have hne (a : Nat) : List.replicate K a ≠ [] ∨ 2 ^ K - 1 = 0 := by
    cases K with
    | zero => exact .inr rfl
    | succ K => exact .inl (List.cons_ne_nil _ _)
  have hmoved : List.replicate K (2 ^ (K - 1)) = (List.replicate K 0).map (· + 2 ^ (K - 1)) := by
    rw [List.map_replicate, Nat.zero_add]
  obtain ⟨hsched, hweights⟩ := scheduleFrom_map_add K (2 ^ K - 1) (2 ^ (K - 1)) (List.replicate K 0)
  have htwice : weightsAfter K (2 ^ K - 1) (List.replicate K (2 ^ (K - 1))) = List.replicate K (2 ^ K) := by
    rw [hmoved, hweights, hK, List.map_replicate]
    cases K with
    | zero => rfl
    | succ K => rw [Nat.pow_succ, Nat.mul_two]; rfl
  obtain ⟨hs1, hw1⟩ := scheduleFrom_cons K (2 ^ K - 1) (2 ^ K) (hne 0) fun k => by
    rw [hK]
    exact (getD_replicate_le _ _ k).trans (Nat.pow_le_pow_right Nat.two_pos (Nat.sub_le K 1))
  obtain ⟨hs2, hw2⟩ := scheduleFrom_cons K (2 ^ K - 1) (2 ^ K) (hne (2 ^ (K - 1))) fun k => by
    rw [htwice]
    exact getD_replicate_le _ _ k
  have hfirst : leastMin (List.replicate (K + 1) 0) = 0 := leastMin_zero_cons _
  have hheavy : (List.replicate (K + 1) 0).modify 0 (· + 2 ^ (K + 1 - 1 - 0)) = 2 ^ K :: List.replicate K 0 := by
    rw [List.replicate_succ, List.modify_zero_cons, Nat.zero_add]
    rfl
  constructor
  · rw [buildSchedule, slots_succ, scheduleFrom, hfirst, hheavy, scheduleFrom_add, hs1, hw1, hK, hs2, hmoved, hsched]
    rfl
  · rw [slots_succ, weightsAfter, hfirst, hheavy, weightsAfter_add, hw1, hK, hw2, htwice]
    rfl

/-- After a period every plane has the same weight. -/
theorem weightsAfter_period (K : Nat) :
    weightsAfter K (2 ^ K - 1) (List.replicate K 0) = List.replicate K (2 ^ (K - 1)) := by
  induction K with
  | zero => rfl
  | succ K ih => exact (buildSchedule_succ_of_equal_weights ih).2

/-- The interleaved recursion of the schedule (R115). -/
theorem buildSchedule_succ (K : Nat) :
    buildSchedule (K + 1) = 0 :: (buildSchedule K).map (· + 1) ++ (buildSchedule K).map (· + 1) :=
  (buildSchedule_succ_of_equal_weights (weightsAfter_period K)).1

/-! ### What the recursion gives -/

theorem buildSchedule_length (K : Nat) : (buildSchedule K).length = 2 ^ K - 1 := scheduleFrom_length _ _ _

theorem buildSchedule_head (K : Nat) : (buildSchedule (K + 1)).head? = some 0 := by
  rw [buildSchedule_succ]
  rfl

theorem buildSchedule_getLast? (K : Nat) : (buildSchedule (K + 1)).getLast? = some K := by
  induction K with
  | zero => rfl
  | succ K ih => rw [buildSchedule_succ, List.getLast?_append, List.getLast?_map, ih]; rfl

/-- How many slots satisfy a condition on their plane, by the condition on plane 0 and on the planes above it. -/
theorem countP_buildSchedule_succ (K : Nat) (P : Nat → Bool) :
    (buildSchedule (K + 1)).countP P = 2 * (buildSchedule K).countP (fun k => P (k + 1)) + if P 0 then 1 else 0 := by
  rw [buildSchedule_succ, List.countP_append, List.countP_cons, List.countP_map]
  simp only [Function.comp_def]
  omega

/-- Plane `k` has `2^k` slots (R115(b)). -/
theorem count_buildSchedule {K k : Nat} (hk : k < K) : (buildSchedule K).count k = 2 ^ k := by
  induction K generalizing k with
  | zero => omega
  | succ K ih =>
    rw [List.count, countP_buildSchedule_succ]
    cases k with
    | zero => simp
    | succ k =>
      have := ih (Nat.lt_of_succ_lt_succ hk)
      rw [List.count] at this
      simp [this, Nat.pow_succ, Nat.mul_comm]

/-- Settles O59, by induction on the planes: plane 0 has one slot, and it shows the lowest of the `K` high bits of the value. -/
theorem scheduleLightsEachChannelByItsValue : Obligations.ScheduleLightsEachChannelByItsValue := by
  intro K v _ hK hv
  clear * - hK hv
  induction K with
  | zero =>
    rw [Nat.sub_zero, Nat.shiftRight_eq_div_pow, Nat.div_eq_of_lt hv]
    rfl
  | succ K ih =>
    have hplane (k : Nat) : 8 - (K + 1) + (k + 1) = 8 - K + k := by omega
    have hlow : 8 - K = 8 - (K + 1) + 1 := by omega
    rw [countP_buildSchedule_succ]
    simp only [hplane]
    rw [ih (Nat.le_of_succ_le hK), hlow, Nat.shiftRight_succ, Nat.add_zero, Nat.testBit_eq_decide_div_mod_eq,
      ← Nat.shiftRight_eq_div_pow]
    simp only [decide_eq_true_eq]
    generalize v >>> (8 - (K + 1)) = high
    split_ifs <;> omega

/-! ### Runs of one plane -/

/-- Plane `k` has the `n` slots of `l` from slot `i` on. -/
def RunAt (l : List Nat) (n i k : Nat) : Prop := ∀ j < n, l[i + j]? = some k

theorem runAt_one {l : List Nat} {i k : Nat} (h : l[i]? = some k) : RunAt l 1 i k :=
  Nat.forall_lt_succ_right.2 ⟨nofun, h⟩

theorem RunAt.snoc {l : List Nat} {n i k : Nat} (h : RunAt l n i k) (hnext : l[i + n]? = some k) : RunAt l (n + 1) i k :=
  Nat.forall_lt_succ_right.2 ⟨h, hnext⟩

theorem runAt_le_length {l : List Nat} {n i k : Nat} (hn : 0 < n) (h : RunAt l n i k) : i + n ≤ l.length := by
  have := (List.getElem?_eq_some_iff.1 (h (n - 1) (by omega))).1
  omega

/-- Where two lists meet in different planes, no run goes on from one to the other. -/
theorem runAt_append {l r : List Nat} {n i k : Nat} (hmeet : ∀ x, l.getLast? = some x → r.head? ≠ some x)
    (h : RunAt (l ++ r) n i k) : RunAt l n i k ∨ ∃ i', RunAt r n i' k := by
  rcases Nat.lt_or_ge l.length (i + n) with hover | hleft
  · rcases Nat.lt_or_ge i l.length with hbefore | hright
    · have hlast := h (l.length - 1 - i) (by omega)
      have hhead := h (l.length - i) (by omega)
      rw [List.getElem?_append_left (by omega), show i + (l.length - 1 - i) = l.length - 1 by omega,
        ← List.getLast?_eq_getElem?] at hlast
      rw [List.getElem?_append_right (by omega), show i + (l.length - i) - l.length = 0 by omega,
        ← List.head?_eq_getElem?] at hhead
      exact absurd hhead (hmeet k hlast)
    · refine .inr ⟨i - l.length, fun j hj => ?_⟩
      rw [← h j hj, List.getElem?_append_right (by omega), Nat.sub_add_comm hright]
  · exact .inl fun j hj => by rw [← h j hj, List.getElem?_append_left (by omega)]

theorem runAt_map_succ {l : List Nat} {n i k : Nat} (hn : 0 < n) (h : RunAt (l.map (· + 1)) n i k) :
    ∃ k', k = k' + 1 ∧ RunAt l n i k' := by
  simp only [RunAt, List.getElem?_map, Option.map_eq_some_iff] at h
  obtain ⟨k', -, rfl⟩ := h 0 hn
  refine ⟨k', rfl, fun j hj => ?_⟩
  obtain ⟨k'', hk'', he⟩ := h j hj
  rwa [← Nat.succ.inj he]

/-- With two planes or more, only the last has slots in a row, and no more than two (R115). -/
theorem runAt_buildSchedule {K n i k : Nat} (hn : 2 ≤ n) (h : RunAt (buildSchedule (K + 2)) n i k) : n = 2 ∧ k = K + 1 := by
  induction K generalizing i k with
  | zero =>
    have hlen : i + n ≤ 3 := runAt_le_length (by omega) h
    have h0 : [0, 1, 1][i]? = some k := h 0 (by omega)
    have h1 : [0, 1, 1][i + 1]? = some k := h 1 (by omega)
    obtain rfl | rfl : i = 0 ∨ i = 1 := by omega
    · cases h0
      cases h1
    · cases h0
      exact ⟨by omega, rfl⟩
  | succ K ih =>
    have upper {i : Nat} (h : RunAt ((buildSchedule (K + 2)).map (· + 1)) n i k) : n = 2 ∧ k = K + 2 := by
      obtain ⟨k', rfl, h'⟩ := runAt_map_succ (by omega) h
      obtain ⟨hn2, rfl⟩ := ih h'
      exact ⟨hn2, rfl⟩
    have hhead : ((buildSchedule (K + 2)).map (· + 1)).head? = some 1 := by
      rw [List.head?_map, buildSchedule_head]
      rfl
    have hlast : ((buildSchedule (K + 2)).map (· + 1)).getLast? = some (K + 2) := by
      rw [List.getLast?_map, buildSchedule_getLast?]
      rfl
    rw [buildSchedule_succ, ← List.singleton_append, List.append_assoc] at h
    obtain h0 | ⟨i', h'⟩ := runAt_append (by simp [hhead]) h
    · have : i + n ≤ 1 := runAt_le_length (by omega) h0
      omega
    · obtain h1 | ⟨i'', h2⟩ := runAt_append (by simp [hhead, hlast]) h'
      · exact upper h1
      · exact upper h2

/-- No plane has three slots in a row (R115). -/
theorem not_runAt_three {K i k : Nat} (hK : 1 ≤ K) : ¬RunAt (buildSchedule K) 3 i k := by
  obtain _ | _ | K := K
  · omega
  · intro h
    have : i + 3 ≤ 1 := runAt_le_length (by omega) h
    omega
  · exact fun h => absurd (runAt_buildSchedule (by omega) h).1 (by decide)

/-- Settles O47: `buildSchedule_succ` gives each table from the one before; the properties are the lemmas on counts, ends and
runs. -/
theorem scheduleIsTheInterleavedOne : Obligations.ScheduleIsTheInterleavedOne := by
  have h1 : buildSchedule 1 = [0] := rfl
  have h2 := buildSchedule_succ 1
  have h3 := buildSchedule_succ 2
  have h4 := buildSchedule_succ 3
  have h5 := buildSchedule_succ 4
  have h6 := buildSchedule_succ 5
  rw [h1] at h2
  rw [h2] at h3
  rw [h3] at h4
  rw [h4] at h5
  rw [h5] at h6
  refine ⟨h1, h2, h3, h4, h5, h6, fun K hK _ => ?_, fun K hK _ => ⟨buildSchedule_length K, fun k hk => count_buildSchedule hk,
    ?_, fun i k h => ?_⟩, fun K hK _ => ⟨fun i k hfirst hsecond => ?_, ?_, by omega⟩⟩
  · obtain ⟨K, rfl⟩ := Nat.exists_eq_add_of_le' hK
    exact buildSchedule_succ _
  · obtain ⟨K, rfl⟩ := Nat.exists_eq_add_of_le' hK
    rw [← List.head?_eq_getElem?]
    exact buildSchedule_head K
  · obtain ⟨hfirst, hsecond, hthird⟩ := h
    exact not_runAt_three hK (((runAt_one hfirst).snoc hsecond).snoc hthird)
  · obtain ⟨K, rfl⟩ := Nat.exists_eq_add_of_le' hK
    exact (runAt_buildSchedule le_rfl ((runAt_one hfirst).snoc hsecond)).2
  · obtain ⟨K, rfl⟩ := Nat.exists_eq_add_of_le' hK
    have := buildSchedule_getLast? (K + 1)
    rwa [List.getLast?_eq_getElem?, buildSchedule_length] at this

end Sys2Proof.Machine
end

section
/-! PROOFS. The checks of R136 for every command: what each asks of `INIT_STATE` and of its operand, and what refuses it: O17. -/

namespace Sys2Proof.Machine

variable {s : State} {i : Instr}

/-! ### What each command asks -/

/-- What a command asks of `INIT_STATE` (R102, R127, R138). -/
def commandNeeds : Instr → Needs
  | .readReg _ => .nothing
  | .init _ => .uninit
  | .startDrawing _ | .doneDrawing _ | .waitDrawingDone | .doneUpdating => .notFatal
  | _ => .ready

/-- Check 4 of R136, as the commands make it. -/
def State.operandOk (s : State) : Instr → Bool
  | .readReg r => (s.regValue r).isSome
  | i => (namedLayer i).all s.layerOk

theorem commandNeeds_ne_nothing (h : isReadReg i = false) : commandNeeds i ≠ .nothing := by
  cases i with
  | readReg r => cases h
  | _ => nofun

theorem commandNeeds_of_isReadReg (h : isReadReg i = true) : commandNeeds i = .nothing := by
  cases i with
  | readReg r => rfl
  | _ => cases h

theorem commandNeeds_of_isInit (h : isInit i = true) : commandNeeds i = .uninit := by
  cases i with
  | init b => rfl
  | _ => cases h

theorem commandNeeds_of_needsReady (h : needsReady i = true) : commandNeeds i = .ready := by
  cases i with
  | startDrawing | doneDrawing | waitDrawingDone | doneUpdating | init | readReg => cases h
  | _ => rfl

/-- The register map has five registers (R33). -/
theorem regValue_isSome_iff {r : Nat} : (s.regValue r).isSome = true ↔ r < 5 := by
  match r with
  | 0 | 1 | 2 | 3 | 4 => simp [State.regValue]
  | r + 5 => simp [State.regValue]

/-- The command's own check of its operand is check 4 of R136. -/
theorem operandOk_iff : s.operandOk i = true ↔ ¬operandBad s.cfg i := by
  cases i with
  | readReg r => simp [State.operandOk, operandBad, namedLayer, regValue_isSome_iff]
  | _ => simp [State.operandOk, operandBad, namedLayer]

/-! ### The first step -/

theorem bulk_idle {ok : Bool} {elem : Nat → Nat → State → Result} (hst : s.actorState = .idle) :
    s.bulk ok elem = s.checked .ready ok (elem 0 0) := by
  rw [State.bulk, hst]

/-- The first step of every command makes its checks before anything else (R136). -/
theorem exec_idle (hst : s.actorState = .idle) (i : Instr) :
    ∃ run, exec i s = s.checked (commandNeeds i) (s.operandOk i) run := by
  cases i with
  | setAll | fadeOut | shiftUp =>
    simp only [exec, execSetAll, execFadeOut, execShiftUp, bulk_idle hst]
    exact ⟨_, rfl⟩
  | startDrawing | waitDrawingDone | updateFrame =>
    simp only [exec, execStartDrawing, execWaitDrawingDone, execUpdateFrame, hst]
    exact ⟨_, rfl⟩
  | _ =>
    simp only [exec]
    exact ⟨_, rfl⟩

/-- A refused first step answers the check's code with data 0 and changes nothing else (R135, R137). -/
theorem exec_refused {code : Code} (hst : s.actorState = .idle)
    (h : s.refusalCode (commandNeeds i) (s.operandOk i) = some code) : exec i s = .next (s.respond code 0) := by
  obtain ⟨run, hrun⟩ := exec_idle hst i
  rw [hrun, State.checked, h]
  rfl

/-! ### The checks in their order -/

theorem refusalCode_fatal {needs : Needs} {ok : Bool} (hi : s.initState = .fatal) (hn : needs ≠ .nothing) :
    s.refusalCode needs ok = some .fatal :=
  if_pos ⟨hi, hn⟩

theorem refusalCode_operand {needs : Needs} (h : s.initState ≠ .fatal ∨ needs = .nothing) :
    s.refusalCode needs false = some .illegal := by
  rw [State.refusalCode, if_neg (by tauto), if_pos rfl]

theorem refusalCode_uninit_of_ready {ok : Bool} (hi : s.initState = .ready) : s.refusalCode .uninit ok = some .illegal := by
  cases ok <;> simp [State.refusalCode, hi]

theorem refusalCode_ready_of_uninit (hi : s.initState = .uninit) : s.refusalCode .ready true = some .notReady := by
  simp [State.refusalCode, hi]

/-- Settles O17: `exec_refused`, with the checks of `refusalCode` in their order. -/
theorem checksAnswerInTheirOrder : Obligations.ChecksAnswerInTheirOrder := by
  refine fun i s hst => ⟨fun hi hr => ?fatal, fun hi hb => ?operand, fun hinit hi => ?uninit, fun hr hi hb => ?ready⟩ <;>
    apply exec_refused hst
  case fatal => exact refusalCode_fatal hi (commandNeeds_ne_nothing hr)
  case operand =>
    have hok : s.operandOk i = false := Bool.eq_false_iff.2 fun h => operandOk_iff.1 h hb
    rw [hok]
    exact refusalCode_operand (hi.imp_right commandNeeds_of_isReadReg)
  case uninit =>
    rw [commandNeeds_of_isInit hinit]
    exact refusalCode_uninit_of_ready hi
  case ready =>
    rw [commandNeeds_of_needsReady hr, operandOk_iff.2 hb]
    exact refusalCode_ready_of_uninit hi

end Sys2Proof.Machine
end

section
/-! PROOFS. A block in `FATAL` keeps its storage until reset (R140): O19. -/

namespace Sys2Proof.Machine

variable {s t u : State}

/-- Only a reset takes a block out of `FATAL` (R140). -/
theorem step_fatal (hi : s.initState = .fatal) (hr : s.nextTurn ≠ .reset) (h : step s = .next t) : t.initState = .fatal := by
  by_contra hne
  obtain hreset | ⟨hu, _⟩ := initStateChangesOnlyByInitOrReset s t h (by rwa [hi])
  · exact hr hreset
  · cases hi.symm.trans hu

/-- The commands that set the brightness registers pass their checks in `UNINIT` or `READY` only (R136). -/
theorem effect_brightness_of_fatal {i : Instr} (hi : s.initState = .fatal) (h : Effect s i u) :
    u.brightness = s.brightness ∧ u.brightnessCap = s.brightnessCap := by
  cases h with
  | initOk b hu => cases hi.symm.trans hu
  | setBrightness v hr => cases hi.symm.trans hr
  | setBrightnessCap v hr => cases hi.symm.trans hr
  | frame b hs =>
    rw [endWait_eq]
    exact ⟨rfl, rfl⟩
  | _ => exact ⟨rfl, rfl⟩

/-- Neither brightness register changes in `FATAL` (R140). -/
theorem step_fatal_brightness (hi : s.initState = .fatal) (hr : s.nextTurn ≠ .reset) (h : step s = .next t) :
    (t.brightness, t.brightnessCap) = (s.brightness, s.brightnessCap) := by
  by_contra hne
  obtain ⟨p, alt, i, v, u, hc, hne⟩ := command_of_change (g := fun s => (s.brightness, s.brightnessCap))
    (fun h => (congrArg (fun s => (s.brightness, s.brightnessCap)) h :)) h hr hne
  have hv : v.initState = .fatal := (congrArg State.initState hc.before :).trans hi
  exact hne (Prod.ext_iff.2 (effect_brightness_of_fatal hv hc.effect))

/-- A stopped DMA engine emits nothing (R128, R133). -/
theorem step_bus_of_stopped (hd : s.dmaRun = false) (h : step s = .next t) : t.bus = s.bus := by
  by_contra hne
  rw [step, bus_changed h hne, turnStep, dmaStep_stopped (s := s.dropTurn) hd] at h
  cases h
  exact hne rfl

/-- Settles O19: the block stays in `FATAL` and keeps its invariant, which leaves a block that is not ready no storage, no
running engine and no owner of the sequencer; the brightness registers and the bus are the two lemmas above. -/
theorem fatalBlockKeepsItsStorageUntilReset : Obligations.FatalBlockKeepsItsStorageUntilReset := by
  intro s t hs hi hr h
  have hti := step_fatal hi hr h
  have hb := Prod.ext_iff.1 (step_fatal_brightness hi hr h)
  obtain ⟨t', ht', htinv⟩ := stepNeverStopsAndKeepsTheInvariant s hs
  cases h.symm.trans ht'
  have hsn : s.initState ≠ .ready := by simp [hi]
  have htn : t.initState ≠ .ready := by simp [hti]
  obtain ⟨hsl, hsp, hss, hsd⟩ := hs.no_value hsn
  obtain ⟨htl, htp, hts, htd⟩ := htinv.no_value htn
  exact ⟨hti, htl.trans hsl.symm, htp.trans hsp.symm, hts.trans hss.symm, hb.1, hb.2, step_bus_of_stopped hsd h, htd,
    owner_none_of_not_ready htinv htn⟩

end Sys2Proof.Machine
end
